-- ==== Sys2Proof/Word.lean ====
section
/-! DEFINITION. The block's words: bytes, the 16-bit CRC, 32-bit counters and intervals, the ring index with exactly
three values, and the two kinds of level. -/

namespace Sys2Proof

/-- A byte, 8 bits, unsigned (R10). -/
abbrev Byte := BitVec 8

/-- A 16-bit CRC value (R100). -/
abbrev Crc := BitVec 16

/-- A counter of `COUNTER_WIDTH` = 32 bits, wrapping (R8, R30, R31). -/
abbrev Count := BitVec 32

/-- A poll interval of `INTERVAL_WIDTH` = 32 bits, in milliseconds (R8, R28, R32). -/
abbrev Millis := BitVec 32

/-- `RING_DEPTH`, fixed at 3 (R8, R9). -/
abbrev ringDepth : Nat := 3

/-- The index of a ring slot: exactly the values 0, 1 and 2 (R9, R34). -/
abbrev RingIdx := Fin ringDepth

/-- The electrical level of a line (R27, R36). -/
inductive Level where
  | low
  | high
  deriving DecidableEq, Repr

/-- The stored flow-control level (R35). -/
inductive FlowLevel where
  | deasserted
  | asserted
  deriving DecidableEq, Repr

end Sys2Proof
end

