-- ==== Sys2Proof/Config.lean ====
section
/-! DEFINITION. The implementation parameters of 00_scope.md R8: fixed at reset, never changed by a step. -/

namespace Sys2Proof

/-- `CHECKSUM_POLICY` (R8, R108). -/
inductive ChecksumPolicy where
  | required
  | optional
  deriving DecidableEq, Repr

/-- `OVERFLOW_POLICY` (R8, R125). -/
inductive OverflowPolicy where
  | dropAndHold
  | dropAndTransition
  | frameTooLarge
  deriving DecidableEq, Repr

/-- `HEX_CASE` (R8, R103). -/
inductive HexCase where
  | upperOnly
  | anyCase
  deriving DecidableEq, Repr

/-- `SAMPLE_GRANULARITY` (R8, R181, R193, R289). -/
inductive SampleGranularity where
  | atomic
  | perField
  deriving DecidableEq, Repr

/-- `INIT_OUTCOME`: whether peripheral and resource setup succeeds (R8, R271). -/
inductive InitOutcome where
  | ok
  | fail
  deriving DecidableEq, Repr

/-- The parameters of R8. `RING_DEPTH`, `COUNTER_WIDTH` and `INTERVAL_WIDTH` are fixed in the types of Word.lean, and
`CRC_DIGIT_ORDER` is fixed most significant digit first (R83, R104). -/
structure Config where
  /-- `N`, the number of sender ports, at least 1. -/
  n : Nat
  /-- `BUF_SIZE`, the capacity of every slot, at least 1. -/
  bufSize : Nat
  checksumPolicy : ChecksumPolicy
  requestLinePresent : Bool
  overflowPolicy : OverflowPolicy
  hexCase : HexCase
  flowActiveLevel : Level
  initRxEnabled : Bool
  initTxEnabled : Bool
  initRxInterval : Millis
  initTxInterval : Millis
  sampleGranularity : SampleGranularity
  initOutcome : InitOutcome
  deriving DecidableEq, Repr

namespace Config

/-- `READ_TIMEOUT_MS` (R8, R256): a constant that no rule reads, because time is not modelled (R293). -/
def readTimeoutMs : Nat := 5000

/-- The preconditions on the parameters: `N >= 1` and `BUF_SIZE >= 1` (R8, R271). -/
abbrev valid (c : Config) : Prop := 1 ≤ c.n ∧ 1 ≤ c.bufSize

/-- The configuration of `State.reset`: the defaults of R8; where R8 gives none, a value of this model
(DESIGN CHOICE, log 2: N = 2, BUF_SIZE = 16, Required, a request line, intervals 0). -/
def default : Config where
  n := 2
  bufSize := 16
  checksumPolicy := .required
  requestLinePresent := true
  overflowPolicy := .dropAndHold
  hexCase := .anyCase
  flowActiveLevel := .high
  initRxEnabled := true
  initTxEnabled := true
  initRxInterval := 0
  initTxInterval := 0
  sampleGranularity := .perField
  initOutcome := .ok

end Config
end Sys2Proof
end

