-- ==== Sys2Proof/Syntax.lean ====
section
/-! DEFINITION. The instructions: one constructor per row of spec/opcode_table.json (R80), with the operands the
table's fields name. An internal step's operands are the arguments of the phase that selects it (R89, log 13). -/

namespace Sys2Proof

/-- An agent with a phase register, and the owners a guard can have: RX, TX(k), CTRL (R13, R40). -/
inductive Agent where
  | rx
  | tx (k : Nat)
  | ctrl
  deriving DecidableEq, Repr

/-- A buffer slot, and the buffer space that is its data: `rx_slot` (space RX) or `ring[k][s]` (space TX(k,s))
(R12, R60, R214). -/
inductive SlotRef where
  | rx
  | ring (k : Nat) (s : RingIdx)
  deriving DecidableEq, Repr

/-- The rows of opcode_table.json. -/
inductive Instr where
  -- inbound bytes, by framer class (R81, R120)
  | byteStart
  | byteEnd
  | byteLf
  | byteOther (b : Byte)
  -- environment events (R86 to R88)
  | timeout
  | tickRx
  | tickTx (k : Nat)
  | flowEdge (k : Nat) (v : Level)
  -- internal steps of RX (R89)
  | rxSkip
  | readArm
  | readComplete
  | rxOfferSkip (k : Nat)
  | rxOfferTry (k : Nat)
  | rxCopy (k : Nat) (s : RingIdx)
  | rxAdvance (k : Nat) (s : RingIdx)
  | rxRelease (k : Nat) (s : RingIdx)
  | rxDone
  -- internal steps of TX(k) (R89)
  | txSample (k : Nat)
  | txSampleFlow (k : Nat)
  | txSampleHead (k : Nat) (f : FlowLevel)
  | txSampleLen (k : Nat) (f : FlowLevel) (h : RingIdx)
  | txAcquire (k : Nat) (h : RingIdx)
  | txByte (k : Nat) (h : RingIdx) (i len : Nat)
  | txAbort (k : Nat) (h : RingIdx) (i len : Nat)
  | txDone (k : Nat) (h : RingIdx) (len : Nat)
  -- internal steps of CTRL (R89)
  | ctrlDumpAcq (g : SlotRef)
  | ctrlDumpRel (g : SlotRef) (snap : List Byte)
  | ctrlStatsSlot (j : Nat) (lens : List Nat)
  | ctrlStatsEnd (lens : List Nat)
  -- host commands (R90)
  | cmdEnable (port : Nat)
  | cmdDisable (port : Nat)
  | cmdInterval (port : Nat) (ms : Millis)
  | cmdDump (g : SlotRef)
  | cmdStats
  | cmdMalformed (line : List Byte)
  deriving DecidableEq, Repr

/-- What the environment and the scheduler choose next (log 3): one encoded event, command line or row (`word`), or
an agent given its turn, R93's `STEP RX`, `STEP TX k` or `STEP CTRL` (`agent`). -/
inductive Item where
  | word (bytes : List Byte)
  | agent (a : Agent)
  deriving DecidableEq, Repr

/-- Why a word decodes to no instruction (log 5). -/
inductive DecodeError where
  /-- The word has no byte. -/
  | empty
  /-- The first token is the name of no row. -/
  | unknownName
  /-- The operand tokens are not of the row's shape. -/
  | badOperands
  /-- An operand is outside its range (a port outside 1..N, a length above BUF_SIZE, ...). -/
  | outOfRange
  deriving DecidableEq, Repr

end Sys2Proof
end

