-- ==== Sys2Proof/Machine/Ascii.lean ====
section
/-! DEFINITION. ASCII: the codes the rules name, decimal numerals (R91), tokens separated by spaces (R90), and the
fixed words of the notation (R93). Printing and reading stand side by side. -/

namespace Sys2Proof

/-- The bytes of a text, one per ASCII character. -/
def asciiOf (s : String) : List Byte := s.toList.map fun c => BitVec.ofNat 8 c.toNat

/-- `'/'`, the start marker (R10, R81). -/
def slash : Byte := 0x2F

/-- `'!'`, the end marker (R10, R81). -/
def bang : Byte := 0x21

/-- Line feed (R10, R81). -/
def lineFeed : Byte := 0x0A

/-- Carriage return (R10, R81). -/
def carriageReturn : Byte := 0x0D

/-- The separator of tokens (R90). -/
def space : Byte := 0x20

/-- The value of a decimal digit 0x30 to 0x39 (R91). -/
def digitValue (b : Byte) : Option Nat :=
  if 0x30 ≤ b.toNat ∧ b.toNat ≤ 0x39 then some (b.toNat - 0x30) else none

/-- A run of decimal digits read onto an accumulated value; any other byte makes it no numeral (R91). -/
def numeralFrom (acc : Nat) : List Byte → Option Nat
  | [] => some acc
  | b :: bs =>
    match digitValue b with
    | some d => numeralFrom (10 * acc + d) bs
    | none => none

/-- An unsigned decimal numeral: one or more digits, no sign, leading zeros allowed (R91). -/
def numeral (t : List Byte) : Option Nat :=
  if t = [] then none else numeralFrom 0 t

/-- A list of tokens, each a numeral. -/
def numerals : List (List Byte) → Option (List Nat)
  | [] => some []
  | t :: ts =>
    match numeral t, numerals ts with
    | some v, some vs => some (v :: vs)
    | _, _ => none

/-- The decimal digit of a value 0 to 9. -/
def digitByte (d : Nat) : Byte := BitVec.ofNat 8 (0x30 + d)

/-- The decimal digits of `v`, most significant first; `fuel` at least `v` is enough. -/
def digitsOf : Nat → Nat → List Byte
  | 0, v => [digitByte (v % 10)]
  | fuel + 1, v => if v < 10 then [digitByte v] else digitsOf fuel (v / 10) ++ [digitByte (v % 10)]

/-- The decimal numeral of `v`, without leading zeros. -/
def numeralOf (v : Nat) : List Byte := digitsOf v v

/-- The tokens of a line, `cur` being the token begun so far: maximal runs of bytes other than a space (R90; a leading
or a trailing space starts no token, log 9). -/
def tokensFrom (cur : List Byte) : List Byte → List (List Byte)
  | [] => if cur = [] then [] else [cur]
  | b :: bs =>
    if b = space then (if cur = [] then tokensFrom [] bs else cur :: tokensFrom [] bs)
    else tokensFrom (cur ++ [b]) bs

/-- The tokens of a line, "separated by one or more spaces" (R90). -/
def tokens (line : List Byte) : List (List Byte) := tokensFrom [] line

/-- Tokens joined by single spaces. -/
def joinTokens : List (List Byte) → List Byte
  | [] => []
  | [t] => t
  | t :: ts => t ++ space :: joinTokens ts

/-- A ring index 0 to 2; any other value is none (R34, R91). -/
def ringIdxOf (v : Nat) : Option RingIdx :=
  if h : v < ringDepth then some ⟨v, h⟩ else none

/-- `High` or `Low`, the level operand of R93's `FLOW k High|Low`. -/
def levelToken : Level → List Byte
  | .high => asciiOf "High"
  | .low => asciiOf "Low"

/-- The level a token names. -/
def levelOfToken (t : List Byte) : Option Level :=
  if t = levelToken .high then some .high
  else if t = levelToken .low then some .low
  else none

/-- `Asserted` or `Deasserted`, the sampled level `f` of a sample step (R35, R193). -/
def flowToken : FlowLevel → List Byte
  | .asserted => asciiOf "Asserted"
  | .deasserted => asciiOf "Deasserted"

/-- The sampled level a token names. -/
def flowOfToken (t : List Byte) : Option FlowLevel :=
  if t = flowToken .asserted then some .asserted
  else if t = flowToken .deasserted then some .deasserted
  else none

end Sys2Proof
end

