-- ==== Sys2Proof/Machine/State.lean ====
section
/-! DEFINITION. The block's state (10_state.md), its reset (70_reset_and_hazards.md R270 to R272), and the reasons a
step can stop. The parts of State are the six parts of R20, then the two fields of the model's own. -/

namespace Sys2Proof.Machine

/-- Why a step stops with a fault. No rule of the spec reaches any of them. -/
inductive Fault where
  /-- A buffer access at an offset outside 0..BUF_SIZE-1 (R63); raised by MemRead and MemWrite. Safe. -/
  | offsetOutOfRange
  /-- A buffer access to a ring of a port that does not exist; raised by MemRead and MemWrite. Safe. -/
  | noSuchBuffer
  /-- A read of a slot byte that nothing has written since reset (R44, 93 I14); raised by MemRead. Safe. -/
  | unwrittenByte
  /-- A Release by an agent that does not hold the guard (R13); raised by the steps that release. Safe (log 10). -/
  | guardNotHeld
  deriving DecidableEq, Repr

/-- Why a step has no meaning. -/
inductive Refusal where
  /-- The instruction has no meaning in the model yet; raised by exec's arms. Safe. -/
  | notModelled (mnemonic : String)
  /-- The block is halted, and in Halted no agent has any step (R21, R272, 93 I21); raised by every row but the BYTE
  rows and FLOW_EDGE. Safe. -/
  | halted
  /-- The row's enabling condition is false: the step does not exist in this state (R89, R245, 93 I20); raised by every
  row that has an enabling condition. Safe (log 11). -/
  | notEnabled
  /-- The row's operand names a port outside 1..N, or a slot of one (R8, R88); raised by every row with a port. Safe. -/
  | noSuchPort
  /-- The word at the front of the agenda decodes to no instruction; raised by step. Safe. -/
  | undecodable (e : DecodeError)
  deriving DecidableEq, Repr

/-- The bytes of one buffer space as (offset, byte) pairs, offsets strictly rising (`Memory.wf`); an offset that is not
listed holds no value (R39, R44, log 6). -/
abbrev Memory := List Host.Cell

/-- A guard (R13). -/
inductive Guard where
  | free
  | held (owner : Agent)
  deriving DecidableEq, Repr

/-- A buffer slot (R29, R33). -/
structure Slot where
  guard : Guard
  data : Memory
  length : Nat
  deriving DecidableEq, Repr

/-- The three slots of a sender port (R33): three named fields, so the depth is in the type (R9). -/
structure Ring where
  s0 : Slot
  s1 : Slot
  s2 : Slot
  deriving DecidableEq, Repr

/-- `block_status` (R21). -/
inductive BlockStatus where
  | running
  | halted
  deriving DecidableEq, Repr

/-- `rd_state` (R22): exactly five values. -/
inductive RdState where
  | idle
  | synchronizing
  | awaitingTerminator
  | awaitingChecksumLine
  | complete
  deriving DecidableEq, Repr

/-- The reader (framer) registers (R22 to R27). -/
structure Reader where
  state : RdState
  idx : Nat
  overflow : Bool
  lock : Guard
  done : Bool
  reqOut : Level
  deriving DecidableEq, Repr

/-- The phases of RX, with their arguments (R40). -/
inductive RxPhase where
  | sleep
  | start
  | wait
  | offer (k : Nat)
  | copy (k : Nat) (s : RingIdx)
  | advance (k : Nat) (s : RingIdx)
  | release (k : Nat) (s : RingIdx)
  deriving DecidableEq, Repr

/-- The receiver port registers (R28 to R30), the latch `rx_n` (R42) and RX's phase register (R40). -/
structure Receiver where
  enabled : Bool
  interval : Millis
  slot : Slot
  cntRead : Count
  cntFailedTimeout : Count
  cntFailedChecksum : Count
  cntFailedOther : Count
  n : Nat
  phase : RxPhase
  deriving DecidableEq, Repr

/-- The phases of TX(k), whose arguments are its latches (R40, R42). -/
inductive TxPhase where
  | sleep
  | sample
  | sampleH (f : FlowLevel)
  | sampleL (f : FlowLevel) (h : RingIdx)
  | acquire (h : RingIdx)
  | send (h : RingIdx) (i len : Nat)
  deriving DecidableEq, Repr

/-- The registers of one sender port (R31 to R35), its lines (R36, R37) and TX(k)'s phase register (R40). -/
structure Port where
  enabled : Bool
  interval : Millis
  ring : Ring
  head : RingIdx
  flowLevel : FlowLevel
  copied : Count
  requested : Count
  aborted : Count
  written : Count
  flowIn : Level
  out : List Byte
  phase : TxPhase
  deriving DecidableEq, Repr

/-- What `stats` reports of the receiver port (R215). -/
structure RxStats where
  enabled : Bool
  interval : Millis
  length : Nat
  read : Count
  failedTimeout : Count
  failedChecksum : Count
  failedOther : Count
  deriving DecidableEq, Repr

/-- What `stats` reports of a sender port (R215). -/
structure TxStats where
  enabled : Bool
  interval : Millis
  lengths : List Nat
  copied : Count
  requested : Count
  aborted : Count
  written : Count
  deriving DecidableEq, Repr

/-- The payload of a response (R210). -/
inductive Payload where
  | none
  | usage
  | dump (bytes : List Byte)
  | stats (rx : RxStats) (tx : List TxStats)
  deriving DecidableEq, Repr

/-- A response `Resp(status, payload)`; `status` is 0 for success and 1 for failure (R210). -/
structure Resp where
  status : Nat
  payload : Payload
  deriving DecidableEq, Repr

/-- The phases of CTRL, whose arguments are its latches (R40, R42, R214, R215). -/
inductive CtrlPhase where
  | idle
  | dump (g : SlotRef)
  | dumpRel (g : SlotRef) (snap : List Byte)
  | stats (j : Nat) (lens : List Nat)
  | statsEnd (lens : List Nat)
  deriving DecidableEq, Repr

/-- CTRL's phase register and the response sequence `ctrl_resp` (R39, R40, R210). -/
structure Ctrl where
  phase : CtrlPhase
  resp : List Resp
  deriving DecidableEq, Repr

/-- The state of the block. -/
structure State where
  /-- The parameters of R8. They are no state of the block (R20): they stand here because `step` takes only a State, and
  no step writes them (log 1). -/
  cfg : Config
  blockStatus : BlockStatus
  reader : Reader
  rx : Receiver
  /-- Sender port k stands at list position k - 1. -/
  ports : List Port
  ctrl : Ctrl
  /-- What happens next, chosen by the environment and the scheduler (log 3). -/
  agenda : List Item
  deriving DecidableEq, Repr

/-- A slot at reset: Free, empty, its data unspecified, so nothing is listed (R39, R270). -/
def Slot.reset : Slot where
  guard := .free
  data := []
  length := 0

/-- The reader at reset (R39, R270). -/
def Reader.reset : Reader where
  state := .idle
  idx := 0
  overflow := false
  lock := .free
  done := false
  reqOut := .low

/-- The receiver port at reset (R39, R270). The latch `rx_n` is unspecified and never read before it is written (R42);
DESIGN CHOICE 0 (log 7). -/
def Receiver.reset (c : Config) : Receiver where
  enabled := c.initRxEnabled
  interval := c.initRxInterval
  slot := Slot.reset
  cntRead := 0
  cntFailedTimeout := 0
  cntFailedChecksum := 0
  cntFailedOther := 0
  n := 0
  phase := .sleep

/-- A sender port at reset, its pin reading `pin` (R39, R270). -/
def Port.reset (c : Config) (pin : Level) : Port where
  enabled := c.initTxEnabled
  interval := c.initTxInterval
  ring := ⟨Slot.reset, Slot.reset, Slot.reset⟩
  head := 0
  flowLevel := if pin = c.flowActiveLevel then .asserted else .deasserted
  copied := 0
  requested := 0
  aborted := 0
  written := 0
  flowIn := pin
  out := []
  phase := .sleep

/-- The ports 1..n at reset; a pin the list does not give reads Low. -/
def Port.resetAll (c : Config) (pins : List Level) (n : Nat) : List Port :=
  (List.range n).map fun i => Port.reset c (pins.getD i .low)

/-- Every field at its reset value (R270). -/
def State.resetFields (c : Config) (pins : List Level) : State where
  cfg := c
  blockStatus := .running
  reader := Reader.reset
  rx := Receiver.reset c
  ports := Port.resetAll c pins c.n
  ctrl := ⟨.idle, []⟩
  agenda := []

/-- `raise InitError`, the block's one fatal condition (R14, R253, R272): the block is halted, and nothing else is
saved or changed. -/
def State.raiseInitError (s : State) : State := { s with blockStatus := .halted }

/-- Initialisation: resource setup succeeds or fails as `INIT_OUTCOME` says (R271). -/
def State.initialise (s : State) : State :=
  match s.cfg.initOutcome with
  | .ok => s
  | .fail => s.raiseInitError

/-- The block right after reset and initialisation, for any parameters and any levels of the pins `FLOW_IN[1..N]`
(R270, R271; 93 I16). -/
def State.resetOf (c : Config) (pins : List Level) : State := (State.resetFields c pins).initialise

/-- The block right after reset under `Config.default`, every pin Low (DESIGN CHOICE, log 2). -/
def State.reset : State := State.resetOf Config.default []

end Sys2Proof.Machine
end

