-- ==== Sys2Proof/Machine/Ops.lean ====
section
/-! DEFINITION. The named operations: buffer access (R12), guards (R13), the ports, slots and phases of State, the
forms in which a row answers, and the shared ends of a read (R133, R153) and of a transmission (R184, R185). The block
takes no trap: an event is one step of its agent, and nothing is saved or restored (R251, R252). Its one fatal condition
is `State.raiseInitError`. -/

namespace Sys2Proof.Machine

/-! ### Buffer bytes -/

/-- The byte listed at an offset. -/
def Memory.lookup (m : Memory) (a : Nat) : Option Byte :=
  match m with
  | [] => none
  | c :: m => if c.1 = a then some c.2 else Memory.lookup m a

/-- The memory with byte `v` at offset `a`, the list kept strictly rising. -/
def Memory.insert (m : Memory) (a : Nat) (v : Byte) : Memory :=
  match m with
  | [] => [(a, v)]
  | c :: m =>
    if a < c.1 then (a, v) :: c :: m
    else if a = c.1 then (a, v) :: m
    else c :: Memory.insert m a v

/-- Offsets strictly rising and all at least `lo`. -/
def Memory.wfFrom (lo : Nat) (m : Memory) : Bool :=
  match m with
  | [] => true
  | c :: m => lo ≤ c.1 && Memory.wfFrom (c.1 + 1) m

/-- The canonical form: offsets strictly rising, so equal contents are equal lists. -/
def Memory.wf (m : Memory) : Bool := Memory.wfFrom 0 m

/-- `MemRead` on a space of `cap` bytes (R12, R63, R44). -/
def memRead (cap : Nat) (m : Memory) (off : Nat) : Except Fault Byte :=
  if off < cap then
    match Memory.lookup m off with
    | some b => .ok b
    | none => .error .unwrittenByte
  else .error .offsetOutOfRange

/-- `MemWrite` on a space of `cap` bytes (R12, R63). -/
def memWrite (cap : Nat) (m : Memory) (off : Nat) (v : Byte) : Except Fault Memory :=
  if off < cap then .ok (Memory.insert m off v) else .error .offsetOutOfRange

/-- The bytes at offsets 0..len-1, in order. -/
def readRange (cap : Nat) (m : Memory) : Nat → Except Fault (List Byte)
  | 0 => .ok []
  | len + 1 => do
    let front ← readRange cap m len
    let b ← memRead cap m len
    return front ++ [b]

/-- The bytes at offsets 0..len-1 of `src` written to the same offsets of `dst`, in ascending order (R157). -/
def copyRange (cap : Nat) (src dst : Memory) : Nat → Except Fault Memory
  | 0 => .ok dst
  | len + 1 => do
    let m ← copyRange cap src dst len
    let b ← memRead cap src len
    memWrite cap m len b

/-! ### Ring and ports -/

/-- `(x + 1) mod 3` (R10, R154). -/
def nextIdx (x : RingIdx) : RingIdx := ⟨(x.val + 1) % ringDepth, Nat.mod_lt _ (by decide)⟩

/-- `ring[k][i]` of a port's ring. -/
def Ring.get (r : Ring) (i : RingIdx) : Slot :=
  match i with
  | 0 => r.s0
  | 1 => r.s1
  | 2 => r.s2

/-- The ring with slot i replaced. -/
def Ring.set (r : Ring) (i : RingIdx) (sl : Slot) : Ring :=
  match i with
  | 0 => { r with s0 := sl }
  | 1 => { r with s1 := sl }
  | 2 => { r with s2 := sl }

/-- Sender port k, 1 <= k <= N. -/
def State.port? (s : State) (k : Nat) : Option Port :=
  match k with
  | 0 => none
  | k + 1 => s.ports[k]?

/-- The state with sender port k replaced; nothing changes if there is no port k. -/
def State.setPort (s : State) (k : Nat) (p : Port) : State :=
  match k with
  | 0 => s
  | k + 1 => { s with ports := s.ports.set k p }

/-- The state with the reader registers replaced. -/
def State.setReader (s : State) (r : Reader) : State := { s with reader := r }

/-- The state with the receiver port registers replaced. -/
def State.setRx (s : State) (r : Receiver) : State := { s with rx := r }

/-- `phase(RX) <- p`. -/
def State.setRxPhase (s : State) (p : RxPhase) : State := s.setRx { s.rx with phase := p }

/-- The state with CTRL's registers replaced. -/
def State.setCtrl (s : State) (c : Ctrl) : State := { s with ctrl := c }

/-- `phase(CTRL) <- p`. -/
def State.setCtrlPhase (s : State) (p : CtrlPhase) : State := s.setCtrl { s.ctrl with phase := p }

/-- The response of a command appended to `ctrl_resp` (R210). -/
def State.respond (s : State) (r : Resp) : State := s.setCtrl { s.ctrl with resp := s.ctrl.resp ++ [r] }

/-- The state with the agenda replaced. -/
def State.setAgenda (s : State) (a : List Item) : State := { s with agenda := a }

/-! ### Slots, guards and MemRead/MemWrite on State -/

/-- The slot a reference names. -/
def State.slot? (s : State) (g : SlotRef) : Option Slot :=
  match g with
  | .rx => some s.rx.slot
  | .ring k i => (s.port? k).map fun p => p.ring.get i

/-- The state with a slot replaced; nothing changes if the slot does not exist. -/
def State.setSlot (s : State) (g : SlotRef) (sl : Slot) : State :=
  match g with
  | .rx => s.setRx { s.rx with slot := sl }
  | .ring k i =>
    match s.port? k with
    | some p => s.setPort k { p with ring := p.ring.set i sl }
    | none => s

/-- `MemRead(buf, off, 1)` (R12). -/
def State.memRead (s : State) (buf : SlotRef) (off : Nat) : Except Fault Byte :=
  match s.slot? buf with
  | some sl => Machine.memRead s.cfg.bufSize sl.data off
  | none => .error .noSuchBuffer

/-- `MemWrite(buf, off, 1, v)` (R12). -/
def State.memWrite (s : State) (buf : SlotRef) (off : Nat) (v : Byte) : Except Fault State :=
  match s.slot? buf with
  | some sl => do
    let m ← Machine.memWrite s.cfg.bufSize sl.data off v
    return s.setSlot buf { sl with data := m }
  | none => .error .noSuchBuffer

/-- Whether a slot's guard is Free: the condition of an `Acquire` (R13). -/
def State.guardFree (s : State) (g : SlotRef) : Bool :=
  match s.slot? g with
  | some sl => sl.guard == .free
  | none => false

/-- Whether an agent holds a slot's guard. -/
def State.holds (s : State) (self : Agent) (g : SlotRef) : Bool :=
  match s.slot? g with
  | some sl => sl.guard == .held self
  | none => false

/-- `TryAcquire` by `self` (R13, R69): the state with the guard taken, or none when it is not Free. -/
def State.tryAcquire (s : State) (self : Agent) (g : SlotRef) : Option State :=
  match s.slot? g with
  | some sl => if sl.guard = .free then some (s.setSlot g { sl with guard := .held self }) else none
  | none => none

/-- `Release` by `self` (R13): it requires `Held(self)`; anything else is a fault no rule reaches (log 10). -/
def State.release (s : State) (self : Agent) (g : SlotRef) : Except Fault State :=
  match s.slot? g with
  | some sl =>
    if sl.guard = .held self then .ok (s.setSlot g { sl with guard := .free }) else .error .guardNotHeld
  | none => .error .noSuchBuffer

/-! ### How a row answers -/

/-- The outcomes of a step. -/
abbrev Answer := Host.Outcome State Fault Refusal

/-- A computation that may fault, as an outcome. -/
def answer : Except Fault State → Answer
  | .ok s => .next s
  | .error f => .fault f

/-- A row with an enabling condition (R15): no step in Halted (R21), none when the condition is false. -/
def whenEnabled (s : State) (enabled : Bool) (body : Except Fault State) : Answer :=
  if s.blockStatus = .halted then .refused .halted
  else if enabled then answer body
  else .refused .notEnabled

/-- A row of sender port k with an enabling condition on the port. -/
def whenPortEnabled (s : State) (k : Nat) (enabled : Port → Bool) (body : Port → Except Fault State) : Answer :=
  match s.port? k with
  | some p => whenEnabled s (enabled p) (body p)
  | none => if s.blockStatus = .halted then .refused .halted else .refused .noSuchPort

/-! ### Results of a read -/

/-- The results of a read (R240). `otherError` is reserved and never produced. -/
inductive ReadResult where
  | ok (n : Nat)
  | timeoutError
  | checksumError
  | otherError
  | frameTooLargeError
  deriving DecidableEq, Repr

/-- The result codes (R240). -/
def ReadResult.code : ReadResult → BitVec 3
  | .ok _ => 0
  | .timeoutError => 2
  | .checksumError => 3
  | .otherError => 4
  | .frameTooLargeError => 5

/-- The code of `InitError` (R240). -/
def initErrorCode : BitVec 3 := 1

/-- The codes of `rd_state` (R22). -/
def RdState.code : RdState → BitVec 3
  | .idle => 0
  | .synchronizing => 1
  | .awaitingTerminator => 2
  | .awaitingChecksumLine => 3
  | .complete => 4

/-- `REQ_OUT <- v` if the line is present; a no-op if it is absent (R27, R129). -/
def Reader.driveReqOut (c : Config) (r : Reader) (v : Level) : Reader :=
  if c.requestLinePresent then { r with reqOut := v } else r

/-- `ReadFinish()` (R133). -/
def readFinish (s : State) : State :=
  s.setReader { s.reader.driveReqOut s.cfg .low with state := .idle, done := false, lock := .free }

/-- The counter of `RxAccount` that a result moves (R153): exactly one. -/
def countResult (res : ReadResult) (r : Receiver) : Receiver :=
  match res with
  | .ok _ => { r with cntRead := r.cntRead + 1 }
  | .timeoutError => { r with cntFailedTimeout := r.cntFailedTimeout + 1 }
  | .checksumError => { r with cntFailedChecksum := r.cntFailedChecksum + 1 }
  | .otherError => { r with cntFailedOther := r.cntFailedOther + 1 }
  | .frameTooLargeError => { r with cntFailedOther := r.cntFailedOther + 1 }

/-- `RxAccount(res)` (R153). -/
def rxAccount (res : ReadResult) (s : State) : Except Fault State :=
  let r := countResult res s.rx
  match res with
  | .ok n => .ok (s.setRx { r with slot := { r.slot with length := n }, n := n, phase := .offer 1 })
  | _ => do
    let s ← (s.setRx { r with slot := { r.slot with length := 0 } }).release .rx .rx
    return s.setRxPhase .sleep

/-- The end of a transmission of slot h (R184, R185): the length is 0 before the guard is released, and TX(k) sleeps.
`p` is port k with its counter already moved. -/
def endTransmission (s : State) (k : Nat) (h : RingIdx) (p : Port) : Except Fault State :=
  ((s.setPort k { p with ring := p.ring.set h { p.ring.get h with length := 0 }, phase := .sleep }).release (.tx k)
    (.ring k h))

end Sys2Proof.Machine
end

