-- ==== Sys2Proof/Machine/Operands.lean ====
section
/-! DEFINITION. What a row reads its operands from: the frame bytes of a read, the slots of `stats` in order, the
fields of a sample and of a stats record. -/

namespace Sys2Proof.Machine

/-- The stored frame `RX[0..n)` of a read (R108). -/
def State.frame (s : State) (n : Nat) : Except Fault (List Byte) :=
  readRange s.cfg.bufSize s.rx.slot.data n

/-- Slot j of `stats`: `rx_slot` for j = 0, `ring[k][i]` for j = 3(k-1) + i + 1 (R215). -/
def statsSlot (j : Nat) : SlotRef :=
  match j with
  | 0 => .rx
  | j + 1 => .ring (j / ringDepth + 1) ⟨j % ringDepth, Nat.mod_lt _ (by decide)⟩

/-- `data[0..length)` of a slot, the snapshot of a dump (R214). -/
def snapshot (cap : Nat) (sl : Slot) : Except Fault (List Byte) := readRange cap sl.data sl.length

/-- The receiver part of the stats record; `lens` are the lengths collected, slot 0 first (R215). -/
def rxStats (r : Receiver) (lens : List Nat) : RxStats where
  enabled := r.enabled
  interval := r.interval
  length := lens.getD 0 0
  read := r.cntRead
  failedTimeout := r.cntFailedTimeout
  failedChecksum := r.cntFailedChecksum
  failedOther := r.cntFailedOther

/-- The record of one sender port with the three lengths of its slots (R215). -/
def txStats (p : Port) (lengths : List Nat) : TxStats where
  enabled := p.enabled
  interval := p.interval
  lengths := lengths
  copied := p.copied
  requested := p.requested
  aborted := p.aborted
  written := p.written

/-- The records of the sender ports in order, three lengths each (R215). -/
def txStatsAll : List Port → List Nat → List TxStats
  | [], _ => []
  | p :: ps, lens => txStats p (lens.take ringDepth) :: txStatsAll ps (lens.drop ringDepth)

/-- The stats record: `lens[0]` is the receiver's, `lens[3(k-1)+1 .. 3(k-1)+3]` are port k's (R215). -/
def statsPayload (s : State) (lens : List Nat) : Payload :=
  .stats (rxStats s.rx lens) (txStatsAll s.ports (lens.drop 1))

end Sys2Proof.Machine
end

