-- ==== Sys2Proof/Machine/Control.lean ====
section
/-! DEFINITION. The host control surface CTRL (44_control.md). A command is accepted only in CtrlIdle while the block is
Running, and ends by appending exactly one response (R210). -/

namespace Sys2Proof.Machine

/-- `Resp(0, None)` (R210). -/
def respDone : Resp := ⟨0, .none⟩

/-- `Resp(1, Usage)` (R211). -/
def respUsage : Resp := ⟨1, .usage⟩

/-- A command accepted by CTRL (R210). -/
def acceptCommand (s : State) (body : Except Fault State) : Answer := whenEnabled s (s.ctrl.phase == .idle) body

/-- A command that names port p >= 1, accepted by CTRL. -/
def acceptPortCommand (s : State) (k : Nat) (body : Port → Except Fault State) : Answer :=
  whenPortEnabled s k (fun _ => s.ctrl.phase == .idle) body

/-- `enabled` of port p set to v: port 0 is the receiver (R212). -/
def setEnabled (port : Nat) (v : Bool) (s : State) : Answer :=
  match port with
  | 0 => acceptCommand s (.ok ((s.setRx { s.rx with enabled := v }).respond respDone))
  | k + 1 => acceptPortCommand s (k + 1) fun p => .ok ((s.setPort (k + 1) { p with enabled := v }).respond respDone)

/-- CMD_ENABLE (R212). -/
def execCmdEnable (port : Nat) (s : State) : Answer := setEnabled port true s

/-- CMD_DISABLE (R212). -/
def execCmdDisable (port : Nat) (s : State) : Answer := setEnabled port false s

/-- CMD_INTERVAL (R213). -/
def execCmdInterval (port : Nat) (ms : Millis) (s : State) : Answer :=
  match port with
  | 0 => acceptCommand s (.ok ((s.setRx { s.rx with interval := ms }).respond respDone))
  | k + 1 => acceptPortCommand s (k + 1) fun p => .ok ((s.setPort (k + 1) { p with interval := ms }).respond respDone)

/-- CMD_DUMP, the accepting step (R214). -/
def execCmdDump (g : SlotRef) (s : State) : Answer :=
  match g with
  | .rx => acceptCommand s (.ok (s.setCtrlPhase (.dump .rx)))
  | .ring k i => acceptPortCommand s k fun _ => .ok (s.setCtrlPhase (.dump (.ring k i)))

/-- CMD_STATS, the accepting step (R215). -/
def execCmdStats (s : State) : Answer := acceptCommand s (.ok (s.setCtrlPhase (.stats 0 [])))

/-- CMD_MALFORMED (R211): a usage response and no other change. -/
def execCmdMalformed (_line : List Byte) (s : State) : Answer := acceptCommand s (.ok (s.respond respUsage))

/-- CTRL_DUMP_ACQ (R214): blocked while another agent holds the guard. -/
def execCtrlDumpAcq (g : SlotRef) (s : State) : Answer :=
  match s.slot? g with
  | none => if s.blockStatus = .halted then .refused .halted else .refused .noSuchPort
  | some sl =>
    whenEnabled s (s.ctrl.phase == .dump g && sl.guard == .free) do
      let snap ← snapshot s.cfg.bufSize sl
      return (s.setSlot g { sl with guard := .held .ctrl }).setCtrlPhase (.dumpRel g snap)

/-- CTRL_DUMP_REL (R214). -/
def execCtrlDumpRel (g : SlotRef) (snap : List Byte) (s : State) : Answer :=
  whenEnabled s (s.ctrl.phase == .dumpRel g snap) do
    let s ← s.release .ctrl g
    return (s.respond ⟨0, .dump snap⟩).setCtrlPhase .idle

/-- CTRL_STATS_SLOT (R215): the guard is taken and returned within the step. -/
def execCtrlStatsSlot (j : Nat) (lens : List Nat) (s : State) : Answer :=
  match s.slot? (statsSlot j) with
  | none => if s.blockStatus = .halted then .refused .halted else .refused .noSuchPort
  | some sl =>
    whenEnabled s (s.ctrl.phase == .stats j lens && sl.guard == .free)
      (.ok (s.setCtrlPhase
        (if j < 3 * s.cfg.n then .stats (j + 1) (lens ++ [sl.length]) else .statsEnd (lens ++ [sl.length]))))

/-- CTRL_STATS_END (R215). -/
def execCtrlStatsEnd (lens : List Nat) (s : State) : Answer :=
  whenEnabled s (s.ctrl.phase == .statsEnd lens)
    (.ok ((s.respond ⟨0, statsPayload s lens⟩).setCtrlPhase .idle))

end Sys2Proof.Machine
end

