-- ==== Sys2Proof/Machine/Fanout.lean ====
section
/-! DEFINITION. The receiver port's iteration and its fan-out into the rings (42_receiver_fanout.md). -/

namespace Sys2Proof.Machine

/-- TICK_RX (R150). -/
def execTickRx (s : State) : Answer :=
  whenEnabled s (s.rx.phase == .sleep) (.ok (s.setRxPhase .start))

/-- RX_SKIP (R151). -/
def execRxSkip (s : State) : Answer :=
  whenEnabled s (s.rx.phase == .start && !s.rx.enabled) (.ok (s.setRxPhase .sleep))

/-- RX_OFFER_SKIP (R155). -/
def execRxOfferSkip (k : Nat) (s : State) : Answer :=
  whenPortEnabled s k (fun p => s.rx.phase == .offer k && !p.enabled) fun _ => .ok (s.setRxPhase (.offer (k + 1)))

/-- RX_OFFER_TRY (R154): never blocks. -/
def execRxOfferTry (k : Nat) (s : State) : Answer :=
  whenPortEnabled s k (fun p => s.rx.phase == .offer k && p.enabled) fun p =>
    match s.tryAcquire .rx (.ring k (nextIdx p.head)) with
    | some s => .ok (s.setRxPhase (.copy k (nextIdx p.head)))
    | none => .ok (s.setRxPhase (.offer (k + 1)))

/-- The telegram copied into a port's slot i, with its length (R157). -/
def copyTelegram (s : State) (k : Nat) (i : RingIdx) (p : Port) : Except Fault State := do
  let m ← copyRange s.cfg.bufSize s.rx.slot.data (p.ring.get i).data s.rx.n
  return (s.setSlot (.ring k i) { p.ring.get i with data := m, length := s.rx.n }).setRxPhase (.advance k i)

/-- RX_COPY (R157): RX holds the slot's guard (log 14). -/
def execRxCopy (k : Nat) (i : RingIdx) (s : State) : Answer :=
  whenPortEnabled s k (fun p => s.rx.phase == .copy k i && (p.ring.get i).guard == .held .rx) (copyTelegram s k i)

/-- RX_ADVANCE (R158). -/
def execRxAdvance (k : Nat) (i : RingIdx) (s : State) : Answer :=
  whenPortEnabled s k (fun _ => s.rx.phase == .advance k i) fun p =>
    .ok ((s.setPort k { p with head := i, copied := p.copied + 1 }).setRxPhase (.release k i))

/-- RX_RELEASE (R159). -/
def execRxRelease (k : Nat) (i : RingIdx) (s : State) : Answer :=
  whenPortEnabled s k (fun _ => s.rx.phase == .release k i) fun _ => do
    let s ← s.release .rx (.ring k i)
    return s.setRxPhase (.offer (k + 1))

/-- RX_DONE (R156): `rx_slot.length` keeps n. -/
def execRxDone (s : State) : Answer :=
  whenEnabled s (s.rx.phase == .offer (s.cfg.n + 1)) do
    let s ← s.release .rx .rx
    return s.setRxPhase .sleep

end Sys2Proof.Machine
end

