-- ==== Sys2Proof/Machine/Flags.lean ====
section
/-! DEFINITION. The block has no condition codes (R43). This file holds the computations of its status fields: the
flow level and the request edge (R189, R190), the sample's decision (R181, R193), and what a byte without room does to
`rd_overflow`, `rd_state` and `rd_done` (R125). -/

namespace Sys2Proof.Machine

/-- The flow level a pin level means: asserted when it equals `FLOW_ACTIVE_LEVEL` (R189). -/
def flowOf (c : Config) (v : Level) : FlowLevel :=
  if v = c.flowActiveLevel then .asserted else .deasserted

/-- Whether an edge is a request: a transition from Deasserted to Asserted (R190). -/
def isRequest (before after : FlowLevel) : Bool := before == .deasserted && after == .asserted

/-- The decision of the sample: enabled, asserted, and a non-empty head slot (R181, R193). -/
def mayTransmit (enabled : Bool) (f : FlowLevel) (length : Nat) : Bool :=
  enabled && f == .asserted && length != 0

/-- `NoRoom(b)` on the reader registers (R125). -/
def noRoom (c : Config) (b : Byte) (r : Reader) : Reader :=
  match c.overflowPolicy with
  | .dropAndHold => { r with overflow := true }
  | .dropAndTransition =>
    if r.state = .awaitingTerminator ∧ b = bang then
      { r with overflow := true, state := .awaitingChecksumLine }
    else if r.state = .awaitingChecksumLine ∧ b = lineFeed then
      { r with overflow := true, state := .complete, done := true }
    else { r with overflow := true }
  | .frameTooLarge => { r with overflow := true, state := .complete, done := true }

end Sys2Proof.Machine
end

