-- ==== Sys2Proof/Machine/Framer.lean ====
section
/-! DEFINITION. The byte handler FRAMER (41_framer.md part 1) and the four BYTE rows. A BYTE event is always enabled,
never blocks and never fails (R85, R120). -/

namespace Sys2Proof.Machine

/-- A byte appended to the frame: `MemWrite(RX, rd_idx, 1, b)`, `rd_idx <- rd_idx + 1` (R123, R124). -/
def appendByte (b : Byte) (s : State) : Except Fault State := do
  let s ← s.memWrite .rx s.reader.idx b
  return s.setReader { s.reader with idx := s.reader.idx + 1 }

/-- A byte in Synchronizing (R122). -/
def byteSynchronizing (b : Byte) (s : State) : Except Fault State :=
  if b = slash then do
    let s ← appendByte b (s.setReader { s.reader with idx := 0 })
    return s.setReader { s.reader with state := .awaitingTerminator }
  else .ok s

/-- A byte in AwaitingTerminator (R123). -/
def byteAwaitingTerminator (b : Byte) (s : State) : Except Fault State :=
  if s.reader.idx < s.cfg.bufSize then do
    let s ← appendByte b s
    return if b = bang then s.setReader { s.reader with state := .awaitingChecksumLine } else s
  else .ok (s.setReader (noRoom s.cfg b s.reader))

/-- A byte in AwaitingChecksumLine (R124). -/
def byteAwaitingChecksumLine (b : Byte) (s : State) : Except Fault State :=
  if s.reader.idx < s.cfg.bufSize then do
    let s ← appendByte b s
    return if b = lineFeed then s.setReader { s.reader with state := .complete, done := true } else s
  else .ok (s.setReader (noRoom s.cfg b s.reader))

/-- `BYTE(b)` dispatch (R120, R121). -/
def receiveByte (b : Byte) (s : State) : Answer :=
  if s.blockStatus = .halted then .next s
  else
    match s.reader.state with
    | .idle => .next s
    | .complete => .next s
    | .synchronizing => answer (byteSynchronizing b s)
    | .awaitingTerminator => answer (byteAwaitingTerminator b s)
    | .awaitingChecksumLine => answer (byteAwaitingChecksumLine b s)

/-- BYTE_START: the byte 0x2F (R81, R120). -/
def execByteStart (s : State) : Answer := receiveByte slash s

/-- BYTE_END: the byte 0x21 (R81, R120). -/
def execByteEnd (s : State) : Answer := receiveByte bang s

/-- BYTE_LF: the byte 0x0A (R81, R120). -/
def execByteLf (s : State) : Answer := receiveByte lineFeed s

/-- BYTE_OTHER: every other byte (R81, R120). -/
def execByteOther (b : Byte) (s : State) : Answer := receiveByte b s

end Sys2Proof.Machine
end

