-- ==== Sys2Proof/Machine/Checksum.lean ====
section
/-! DEFINITION. The Checksum Engine (40_checksum.md): pure functions over byte sequences. -/

namespace Sys2Proof.Machine

/-- One shift of the reflected CRC: right, and XOR 0xA001 when bit 0 was 1 (R100). -/
def crcShift (crc : Crc) : Crc :=
  if crc.getLsbD 0 then (crc >>> 1) ^^^ 0xA001 else crc >>> 1

/-- The inner loop of R100: 8 shifts. -/
def crcShift8 (crc : Crc) : Crc :=
  crcShift (crcShift (crcShift (crcShift (crcShift (crcShift (crcShift (crcShift crc)))))))

/-- One byte of the CRC (R100). -/
def crcByte (crc : Crc) (x : Byte) : Crc := crcShift8 (crc ^^^ x.setWidth 16)

/-- `CRC16(bytes)`, seed 0, no final XOR (R100). -/
def crc16 (m : List Byte) : Crc := m.foldl crcByte 0

/-- The table T of R101, rows 0x00 to 0x38. -/
def crcTable0 : List Crc :=
  [0x0000, 0xC0C1, 0xC181, 0x0140, 0xC301, 0x03C0, 0x0280, 0xC241] ++
  [0xC601, 0x06C0, 0x0780, 0xC741, 0x0500, 0xC5C1, 0xC481, 0x0440] ++
  [0xCC01, 0x0CC0, 0x0D80, 0xCD41, 0x0F00, 0xCFC1, 0xCE81, 0x0E40] ++
  [0x0A00, 0xCAC1, 0xCB81, 0x0B40, 0xC901, 0x09C0, 0x0880, 0xC841] ++
  [0xD801, 0x18C0, 0x1980, 0xD941, 0x1B00, 0xDBC1, 0xDA81, 0x1A40] ++
  [0x1E00, 0xDEC1, 0xDF81, 0x1F40, 0xDD01, 0x1DC0, 0x1C80, 0xDC41] ++
  [0x1400, 0xD4C1, 0xD581, 0x1540, 0xD701, 0x17C0, 0x1680, 0xD641] ++
  [0xD201, 0x12C0, 0x1380, 0xD341, 0x1100, 0xD1C1, 0xD081, 0x1040]

/-- The table T of R101, rows 0x40 to 0x78. -/
def crcTable1 : List Crc :=
  [0xF001, 0x30C0, 0x3180, 0xF141, 0x3300, 0xF3C1, 0xF281, 0x3240] ++
  [0x3600, 0xF6C1, 0xF781, 0x3740, 0xF501, 0x35C0, 0x3480, 0xF441] ++
  [0x3C00, 0xFCC1, 0xFD81, 0x3D40, 0xFF01, 0x3FC0, 0x3E80, 0xFE41] ++
  [0xFA01, 0x3AC0, 0x3B80, 0xFB41, 0x3900, 0xF9C1, 0xF881, 0x3840] ++
  [0x2800, 0xE8C1, 0xE981, 0x2940, 0xEB01, 0x2BC0, 0x2A80, 0xEA41] ++
  [0xEE01, 0x2EC0, 0x2F80, 0xEF41, 0x2D00, 0xEDC1, 0xEC81, 0x2C40] ++
  [0xE401, 0x24C0, 0x2580, 0xE541, 0x2700, 0xE7C1, 0xE681, 0x2640] ++
  [0x2200, 0xE2C1, 0xE381, 0x2340, 0xE101, 0x21C0, 0x2080, 0xE041]

/-- The table T of R101, rows 0x80 to 0xB8. -/
def crcTable2 : List Crc :=
  [0xA001, 0x60C0, 0x6180, 0xA141, 0x6300, 0xA3C1, 0xA281, 0x6240] ++
  [0x6600, 0xA6C1, 0xA781, 0x6740, 0xA501, 0x65C0, 0x6480, 0xA441] ++
  [0x6C00, 0xACC1, 0xAD81, 0x6D40, 0xAF01, 0x6FC0, 0x6E80, 0xAE41] ++
  [0xAA01, 0x6AC0, 0x6B80, 0xAB41, 0x6900, 0xA9C1, 0xA881, 0x6840] ++
  [0x7800, 0xB8C1, 0xB981, 0x7940, 0xBB01, 0x7BC0, 0x7A80, 0xBA41] ++
  [0xBE01, 0x7EC0, 0x7F80, 0xBF41, 0x7D00, 0xBDC1, 0xBC81, 0x7C40] ++
  [0xB401, 0x74C0, 0x7580, 0xB541, 0x7700, 0xB7C1, 0xB681, 0x7640] ++
  [0x7200, 0xB2C1, 0xB381, 0x7340, 0xB101, 0x71C0, 0x7080, 0xB041]

/-- The table T of R101, rows 0xC0 to 0xF8. -/
def crcTable3 : List Crc :=
  [0x5000, 0x90C1, 0x9181, 0x5140, 0x9301, 0x53C0, 0x5280, 0x9241] ++
  [0x9601, 0x56C0, 0x5780, 0x9741, 0x5500, 0x95C1, 0x9481, 0x5440] ++
  [0x9C01, 0x5CC0, 0x5D80, 0x9D41, 0x5F00, 0x9FC1, 0x9E81, 0x5E40] ++
  [0x5A00, 0x9AC1, 0x9B81, 0x5B40, 0x9901, 0x59C0, 0x5880, 0x9841] ++
  [0x8801, 0x48C0, 0x4980, 0x8941, 0x4B00, 0x8BC1, 0x8A81, 0x4A40] ++
  [0x4E00, 0x8EC1, 0x8F81, 0x4F40, 0x8D01, 0x4DC0, 0x4C80, 0x8C41] ++
  [0x4400, 0x84C1, 0x8581, 0x4540, 0x8701, 0x47C0, 0x4680, 0x8641] ++
  [0x8201, 0x42C0, 0x4380, 0x8341, 0x4100, 0x81C1, 0x8081, 0x4040]

/-- The table T of R101, transcribed; entry i is `crcShift8 i`. -/
def crcTable : List Crc := crcTable0 ++ crcTable1 ++ crcTable2 ++ crcTable3

/-- One byte of the table form (R101). -/
def crcTableByte (crc : Crc) (x : Byte) : Crc :=
  (crc >>> 8) ^^^ crcTable.getD ((crc ^^^ x.setWidth 16) &&& 0x00FF).toNat 0

/-- The table form of the CRC (R101). -/
def crc16Table (m : List Byte) : Crc := m.foldl crcTableByte 0

/-- `hexval(c)` (R103). -/
def hexval (hc : HexCase) (c : Byte) : Option Nat :=
  if 0x30 ≤ c.toNat ∧ c.toNat ≤ 0x39 then some (c.toNat - 0x30)
  else if 0x41 ≤ c.toNat ∧ c.toNat ≤ 0x46 then some (c.toNat - 0x41 + 10)
  else if 0x61 ≤ c.toNat ∧ c.toNat ≤ 0x66 ∧ hc = .anyCase then some (c.toNat - 0x61 + 10)
  else none

/-- The upper-case hex digit of a value 0..15 (R104). -/
def hexDigit (d : Nat) : Byte :=
  if d ≤ 9 then BitVec.ofNat 8 (0x30 + d) else BitVec.ofNat 8 (0x41 + (d - 10))

/-- `Hex4(v)`: 4 upper-case hex digits, most significant first (R104). The block never calls it. -/
def hex4 (v : Crc) : List Byte :=
  [hexDigit (v.toNat / 0x1000), hexDigit (v.toNat / 0x100 % 0x10), hexDigit (v.toNat / 0x10 % 0x10),
    hexDigit (v.toNat % 0x10)]

/-- `Parse4(t)` (R105); a sequence of another length is no 4-byte sequence. -/
def parse4 (hc : HexCase) : List Byte → Option Crc
  | [c0, c1, c2, c3] =>
    match hexval hc c0, hexval hc c1, hexval hc c2, hexval hc c3 with
    | some d0, some d1, some d2, some d3 => some (BitVec.ofNat 16 (((d0 * 0x10 + d1) * 0x10 + d2) * 0x10 + d3))
    | _, _, _, _ => none
  | _ => none

/-- The least position holding the end marker (R108). -/
def endMarker : List Byte → Option Nat
  | [] => none
  | b :: bs => if b = bang then some 0 else (endMarker bs).map (· + 1)

/-- One step of R106: if `e >= p + 2` and `b[e-1]` is `x`, then `e - 1`. -/
def stripAt (b : List Byte) (p : Nat) (x : Byte) (e : Nat) : Nat :=
  if p + 2 ≤ e ∧ b[e - 1]? = some x then e - 1 else e

/-- `Tail(b, n, p)`, with n the length of b: at most one LF and then at most one CR stripped (R106). -/
def tail (b : List Byte) (p : Nat) : List Byte :=
  (b.take (stripAt b p carriageReturn (stripAt b p lineFeed b.length))).drop (p + 1)

/-- `Verify` after its overflow test, on the stored frame b (R108). -/
def verifyFrame (c : Config) (b : List Byte) : ReadResult :=
  match endMarker b with
  | none => .checksumError
  | some p =>
    let t := tail b p
    if t = [] then
      match c.checksumPolicy with
      | .optional => .ok b.length
      | .required => .checksumError
    else
      match parse4 c.hexCase t with
      | none => .checksumError
      | some v => if v = crc16 (b.take (p + 1)) then .ok b.length else .checksumError

/-- `Verify(rd_idx)` (R108). The overflow test comes first and reads no byte (R244). -/
def verify (s : State) : Except Fault ReadResult :=
  if s.cfg.overflowPolicy = .frameTooLarge ∧ s.reader.overflow = true then .ok .frameTooLargeError
  else do
    let b ← s.frame s.reader.idx
    return verifyFrame s.cfg b

end Sys2Proof.Machine
end

