-- ==== Sys2Proof/Machine/ReadOp.lean ====
section
/-! DEFINITION. The read operation (41_framer.md part 2): arm, completion, timeout. -/

namespace Sys2Proof.Machine

/-- READ_ARM (R130). -/
def execReadArm (s : State) : Answer :=
  whenEnabled s
    (s.rx.phase == .start && s.rx.enabled && s.reader.lock == .free && s.rx.slot.guard == .free)
    (.ok <|
      (s.setReader
        ({ s.reader with lock := .held .rx, idx := 0, overflow := false, done := false, state := .synchronizing }.driveReqOut
          s.cfg .high)).setRx
        { s.rx with slot := { s.rx.slot with guard := .held .rx }, phase := .wait })

/-- READ_COMPLETE (R131): Verify, ReadFinish and RxAccount in one step. -/
def execReadComplete (s : State) : Answer :=
  whenEnabled s (s.rx.phase == .wait && s.reader.done) do
    let res ← verify s
    rxAccount res (readFinish s)

/-- TIMEOUT, the row of READ_TIMEOUT (R86, R132): enabled only in RxWait with `rd_done = false`. -/
def execTimeout (s : State) : Answer :=
  whenEnabled s (s.rx.phase == .wait && !s.reader.done) (rxAccount .timeoutError (readFinish s))

end Sys2Proof.Machine
end

