-- ==== Sys2Proof/Machine/Sender.lean ====
section
/-! DEFINITION. The sender ports: the transmit loop TX(k) and the flow-edge handler EDGE(k) (43_sender_flow.md). -/

namespace Sys2Proof.Machine

/-- The state with TX(k)'s phase replaced. -/
def setTxPhase (s : State) (k : Nat) (p : Port) (ph : TxPhase) : State := s.setPort k { p with phase := ph }

/-- TICK_TX (R180). -/
def execTickTx (k : Nat) (s : State) : Answer :=
  whenPortEnabled s k (fun p => p.phase == .sleep) fun p => .ok (setTxPhase s k p .sample)

/-- The phase a sample decides on (R181, R193). -/
def sampleDecision (p : Port) (f : FlowLevel) (h : RingIdx) : TxPhase :=
  if mayTransmit p.enabled f (p.ring.get h).length then .acquire h else .sleep

/-- TX_SAMPLE, under `SAMPLE_GRANULARITY = Atomic` (R181). -/
def execTxSample (k : Nat) (s : State) : Answer :=
  whenPortEnabled s k (fun p => p.phase == .sample && s.cfg.sampleGranularity == .atomic) fun p =>
    .ok (setTxPhase s k p (sampleDecision p p.flowLevel p.head))

/-- TX_SAMPLE_FLOW, under `SAMPLE_GRANULARITY = PerField` (R193). -/
def execTxSampleFlow (k : Nat) (s : State) : Answer :=
  whenPortEnabled s k (fun p => p.phase == .sample && s.cfg.sampleGranularity == .perField) fun p =>
    .ok (setTxPhase s k p (.sampleH p.flowLevel))

/-- TX_SAMPLE_HEAD (R193). -/
def execTxSampleHead (k : Nat) (f : FlowLevel) (s : State) : Answer :=
  whenPortEnabled s k (fun p => p.phase == .sampleH f) fun p => .ok (setTxPhase s k p (.sampleL f p.head))

/-- TX_SAMPLE_LEN (R193): the step that reads `tx_enabled[k]` and decides. -/
def execTxSampleLen (k : Nat) (f : FlowLevel) (h : RingIdx) (s : State) : Answer :=
  whenPortEnabled s k (fun p => p.phase == .sampleL f h) fun p => .ok (setTxPhase s k p (sampleDecision p f h))

/-- TX_ACQUIRE (R182): the length is read again under the guard; an empty slot is released at once. -/
def execTxAcquire (k : Nat) (h : RingIdx) (s : State) : Answer :=
  whenPortEnabled s k (fun p => p.phase == .acquire h && (p.ring.get h).guard == .free) fun p =>
    if (p.ring.get h).length = 0 then .ok (setTxPhase s k p .sleep)
    else
      .ok (s.setPort k
        { p with
          ring := p.ring.set h { p.ring.get h with guard := .held (.tx k) }
          phase := .send h 0 (p.ring.get h).length })

/-- TX_BYTE (R183). -/
def execTxByte (k : Nat) (h : RingIdx) (i len : Nat) (s : State) : Answer :=
  whenPortEnabled s k (fun p => p.phase == .send h i len && i < len && p.flowLevel == .asserted) fun p => do
    let b ← s.memRead (.ring k h) i
    return s.setPort k { p with out := p.out ++ [b], phase := .send h (i + 1) len }

/-- TX_ABORT (R184): the telegram is consumed even on abort. -/
def execTxAbort (k : Nat) (h : RingIdx) (i len : Nat) (s : State) : Answer :=
  whenPortEnabled s k (fun p => p.phase == .send h i len && i < len && p.flowLevel == .deasserted) fun p =>
    endTransmission s k h { p with aborted := p.aborted + 1 }

/-- TX_DONE (R185): the flow level is not tested. -/
def execTxDone (k : Nat) (h : RingIdx) (len : Nat) (s : State) : Answer :=
  whenPortEnabled s k (fun p => p.phase == .send h len len) fun p =>
    endTransmission s k h { p with written := p.written + 1 }

/-- The edge handler EDGE(k) on its port (R190). -/
def edgeHandler (c : Config) (v : Level) (p : Port) : Port :=
  { p with
    requested := if isRequest p.flowLevel (flowOf c v) then p.requested + 1 else p.requested
    flowLevel := flowOf c v }

/-- FLOW_EDGE (R87, R190): the pin now reads v; the handler has no effect in Halted (log 8). -/
def execFlowEdge (k : Nat) (v : Level) (s : State) : Answer :=
  match s.port? k with
  | none => .refused .noSuchPort
  | some p =>
    if s.blockStatus = .halted then .next (s.setPort k { p with flowIn := v })
    else .next (s.setPort k (edgeHandler s.cfg v { p with flowIn := v }))

end Sys2Proof.Machine
end

