-- ==== Sys2Proof/Machine/Dispatch.lean ====
section
/-! DEFINITION. The meaning of each row: one arm per constructor, one direct call each. -/

namespace Sys2Proof.Machine

def exec (i : Instr) (s : State) : Host.Outcome State Fault Refusal :=
  match i with
  | .byteStart => Sys2Proof.Machine.execByteStart s
  | .byteEnd => Sys2Proof.Machine.execByteEnd s
  | .byteLf => Sys2Proof.Machine.execByteLf s
  | .byteOther b => Sys2Proof.Machine.execByteOther b s
  | .timeout => Sys2Proof.Machine.execTimeout s
  | .tickRx => Sys2Proof.Machine.execTickRx s
  | .tickTx k => Sys2Proof.Machine.execTickTx k s
  | .flowEdge k v => Sys2Proof.Machine.execFlowEdge k v s
  | .rxSkip => Sys2Proof.Machine.execRxSkip s
  | .readArm => Sys2Proof.Machine.execReadArm s
  | .readComplete => Sys2Proof.Machine.execReadComplete s
  | .rxOfferSkip k => Sys2Proof.Machine.execRxOfferSkip k s
  | .rxOfferTry k => Sys2Proof.Machine.execRxOfferTry k s
  | .rxCopy k j => Sys2Proof.Machine.execRxCopy k j s
  | .rxAdvance k j => Sys2Proof.Machine.execRxAdvance k j s
  | .rxRelease k j => Sys2Proof.Machine.execRxRelease k j s
  | .rxDone => Sys2Proof.Machine.execRxDone s
  | .txSample k => Sys2Proof.Machine.execTxSample k s
  | .txSampleFlow k => Sys2Proof.Machine.execTxSampleFlow k s
  | .txSampleHead k f => Sys2Proof.Machine.execTxSampleHead k f s
  | .txSampleLen k f h => Sys2Proof.Machine.execTxSampleLen k f h s
  | .txAcquire k h => Sys2Proof.Machine.execTxAcquire k h s
  | .txByte k h j len => Sys2Proof.Machine.execTxByte k h j len s
  | .txAbort k h j len => Sys2Proof.Machine.execTxAbort k h j len s
  | .txDone k h len => Sys2Proof.Machine.execTxDone k h len s
  | .ctrlDumpAcq g => Sys2Proof.Machine.execCtrlDumpAcq g s
  | .ctrlDumpRel g snap => Sys2Proof.Machine.execCtrlDumpRel g snap s
  | .ctrlStatsSlot j lens => Sys2Proof.Machine.execCtrlStatsSlot j lens s
  | .ctrlStatsEnd lens => Sys2Proof.Machine.execCtrlStatsEnd lens s
  | .cmdEnable port => Sys2Proof.Machine.execCmdEnable port s
  | .cmdDisable port => Sys2Proof.Machine.execCmdDisable port s
  | .cmdInterval port ms => Sys2Proof.Machine.execCmdInterval port ms s
  | .cmdDump g => Sys2Proof.Machine.execCmdDump g s
  | .cmdStats => Sys2Proof.Machine.execCmdStats s
  | .cmdMalformed line => Sys2Proof.Machine.execCmdMalformed line s

end Sys2Proof.Machine
end

