-- ==== Sys2Proof/Machine/Command.lean ====
section
/-! DEFINITION. The host's command grammar (30_encoding.md R90 to R92, 44_control.md R211): a line of text read as the
row it is, CMD_MALFORMED for every line that is none of the five forms. It depends on N, the range of ports. -/

namespace Sys2Proof

/-- `<port>`: a numeral in 0..N (R91). -/
def portOf (n : Nat) (t : List Byte) : Option Nat :=
  match numeral t with
  | some p => if p ≤ n then some p else none
  | none => none

/-- `<slot-index>`: a numeral in 0..2 (R91, conflict C5). -/
def slotIndexOf (t : List Byte) : Option RingIdx :=
  match numeral t with
  | some v => ringIdxOf v
  | none => none

/-- `<milliseconds>`: a numeral in 0..2^32-1 (R91). -/
def millisOf (t : List Byte) : Option Millis :=
  match numeral t with
  | some v => if v < 2 ^ 32 then some (BitVec.ofNat 32 v) else none
  | none => none

/-- The arguments of `enable` and `disable`: exactly one port (R90). -/
def onePort (n : Nat) : List (List Byte) → Option Nat
  | [a] => portOf n a
  | _ => none

/-- The arguments of `interval`: exactly a port and a number of milliseconds (R90). -/
def portAndMillis (n : Nat) : List (List Byte) → Option (Nat × Millis)
  | [a, b] =>
    match portOf n a, millisOf b with
    | some p, some ms => some (p, ms)
    | _, _ => none
  | _ => none

/-- The arguments of `dump`: `0` alone, or a port of at least 1 and a slot index (R90). -/
def dumpSlot (n : Nat) : List (List Byte) → Option SlotRef
  | [a] => if portOf n a = some 0 then some .rx else none
  | [a, b] =>
    match portOf n a, slotIndexOf b with
    | some p, some s => if p = 0 then none else some (.ring p s)
    | _, _ => none
  | _ => none

/-- The well-formed command a line's tokens spell, if they spell one; command words are lower case and matched exactly
(R90, R211). -/
def commandOf (n : Nat) : List (List Byte) → Option Instr
  | [] => none
  | w :: args =>
    if w = asciiOf "enable" then (onePort n args).map .cmdEnable
    else if w = asciiOf "disable" then (onePort n args).map .cmdDisable
    else if w = asciiOf "interval" then (portAndMillis n args).map fun a => .cmdInterval a.1 a.2
    else if w = asciiOf "dump" then (dumpSlot n args).map .cmdDump
    else if w = asciiOf "stats" then (if args = [] then some .cmdStats else none)
    else none

/-- A command line as the row it is (R90 to R92, R210): every line is one, a malformed line is CMD_MALFORMED. -/
def parseCommand (n : Nat) (line : List Byte) : Instr :=
  (commandOf n (tokens line)).getD (.cmdMalformed line)

/-- The operand tokens of a slot: `0` for `rx_slot`, `k s` for `ring[k][s]`, as `dump` writes them (R90, R214). -/
def slotTokens : SlotRef → List (List Byte)
  | .rx => [numeralOf 0]
  | .ring k s => [numeralOf k, numeralOf s.val]

end Sys2Proof
end

