-- ==== Sys2Proof/WellFormed.lean ====
section
/-! DEFINITION. Well-formed instructions under a configuration: the operand ranges of opcode_table.json and of R81,
R89, R91. -/

namespace Sys2Proof

/-- A sender port number, 1..N (R8, R31). -/
def portInRange (c : Config) (k : Nat) : Bool := 1 ≤ k && k ≤ c.n

/-- A slot that exists: `rx_slot`, or a slot of a sender port 1..N (R60). -/
def slotInRange (c : Config) : SlotRef → Bool
  | .rx => true
  | .ring k _ => portInRange c k

/-- The operand ranges of each row. -/
def Instr.wellFormed (c : Config) : Instr → Bool
  | .byteStart => true
  | .byteEnd => true
  | .byteLf => true
  | .byteOther b => b != slash && b != bang && b != lineFeed
  | .timeout => true
  | .tickRx => true
  | .tickTx k => portInRange c k
  | .flowEdge k _ => portInRange c k
  | .rxSkip => true
  | .readArm => true
  | .readComplete => true
  | .rxOfferSkip k => portInRange c k
  | .rxOfferTry k => portInRange c k
  | .rxCopy k _ => portInRange c k
  | .rxAdvance k _ => portInRange c k
  | .rxRelease k _ => portInRange c k
  | .rxDone => true
  | .txSample k => portInRange c k
  | .txSampleFlow k => portInRange c k
  | .txSampleHead k _ => portInRange c k
  | .txSampleLen k _ _ => portInRange c k
  | .txAcquire k _ => portInRange c k
  | .txByte k _ i len => portInRange c k && i < len && len ≤ c.bufSize
  | .txAbort k _ i len => portInRange c k && i < len && len ≤ c.bufSize
  | .txDone k _ len => portInRange c k && 1 ≤ len && len ≤ c.bufSize
  | .ctrlDumpAcq g => slotInRange c g
  | .ctrlDumpRel g _ => slotInRange c g
  | .ctrlStatsSlot j lens => j ≤ 3 * c.n && lens.length == j
  | .ctrlStatsEnd lens => lens.length == 3 * c.n + 1
  | .cmdEnable port => port ≤ c.n
  | .cmdDisable port => port ≤ c.n
  | .cmdInterval port _ => port ≤ c.n
  | .cmdDump g => slotInRange c g
  | .cmdStats => true
  | .cmdMalformed line => parseCommand c.n line == .cmdMalformed line

end Sys2Proof
end

