-- ==== Sys2Proof/Decode.lean ====
section
/-! DEFINITION. Words to instructions and back. An inbound byte is its own 8-bit word, classified by R81. The other
rows have no code in the spec ("the constructor names of the table are the encoding", R80); their words are ASCII lines
(log 5): R93's `TIMEOUT`, `TICK_RX`, `TICK_TX k`, `FLOW k High|Low` and `CMD <line>`, and for an internal step the
row's name followed by its operands, in decimal. -/

namespace Sys2Proof

/-- The framer class of a byte (R81): every byte value has exactly one. -/
def decodeByte (b : Byte) : Instr :=
  if b = slash then .byteStart
  else if b = bang then .byteEnd
  else if b = lineFeed then .byteLf
  else .byteOther b

/-- The rows whose word is a line of tokens. -/
inductive Opcode where
  | timeout | tickRx | tickTx | flow
  | rxSkip | readArm | readComplete | rxOfferSkip | rxOfferTry | rxCopy | rxAdvance | rxRelease | rxDone
  | txSample | txSampleFlow | txSampleHead | txSampleLen | txAcquire | txByte | txAbort | txDone
  | ctrlDumpAcq | ctrlDumpRel | ctrlStatsSlot | ctrlStatsEnd
  deriving DecidableEq, Repr

/-- The first token of a row's word: R93's word for an event, the table's mnemonic for an internal step. -/
def opcodeName : Opcode → List Byte
  | .timeout => asciiOf "TIMEOUT"
  | .tickRx => asciiOf "TICK_RX"
  | .tickTx => asciiOf "TICK_TX"
  | .flow => asciiOf "FLOW"
  | .rxSkip => asciiOf "RX_SKIP"
  | .readArm => asciiOf "READ_ARM"
  | .readComplete => asciiOf "READ_COMPLETE"
  | .rxOfferSkip => asciiOf "RX_OFFER_SKIP"
  | .rxOfferTry => asciiOf "RX_OFFER_TRY"
  | .rxCopy => asciiOf "RX_COPY"
  | .rxAdvance => asciiOf "RX_ADVANCE"
  | .rxRelease => asciiOf "RX_RELEASE"
  | .rxDone => asciiOf "RX_DONE"
  | .txSample => asciiOf "TX_SAMPLE"
  | .txSampleFlow => asciiOf "TX_SAMPLE_FLOW"
  | .txSampleHead => asciiOf "TX_SAMPLE_HEAD"
  | .txSampleLen => asciiOf "TX_SAMPLE_LEN"
  | .txAcquire => asciiOf "TX_ACQUIRE"
  | .txByte => asciiOf "TX_BYTE"
  | .txAbort => asciiOf "TX_ABORT"
  | .txDone => asciiOf "TX_DONE"
  | .ctrlDumpAcq => asciiOf "CTRL_DUMP_ACQ"
  | .ctrlDumpRel => asciiOf "CTRL_DUMP_REL"
  | .ctrlStatsSlot => asciiOf "CTRL_STATS_SLOT"
  | .ctrlStatsEnd => asciiOf "CTRL_STATS_END"

/-- Every opcode, for the search of `opcodeOf`. -/
def opcodes : List Opcode :=
  [.timeout, .tickRx, .tickTx, .flow, .rxSkip, .readArm, .readComplete, .rxOfferSkip] ++
  [.rxOfferTry, .rxCopy, .rxAdvance, .rxRelease, .rxDone, .txSample, .txSampleFlow, .txSampleHead] ++
  [.txSampleLen, .txAcquire, .txByte, .txAbort, .txDone, .ctrlDumpAcq, .ctrlDumpRel, .ctrlStatsSlot, .ctrlStatsEnd]

/-- The opcode a first token names. -/
def opcodeOf (t : List Byte) : Option Opcode := opcodes.find? fun o => opcodeName o == t

/-- A slot read from the front of a list of numbers, as `slotTokens` writes it, and what follows it. -/
def slotOfNumbers : List Nat → Option (SlotRef × List Nat)
  | 0 :: rest => some (.rx, rest)
  | k :: s :: rest => (ringIdxOf s).map fun i => (.ring k i, rest)
  | _ => none

/-- Numbers read as bytes. -/
def bytesOfNumbers : List Nat → Option (List Byte)
  | [] => some []
  | v :: vs =>
    match bytesOfNumbers vs with
    | some bs => if v < 256 then some (BitVec.ofNat 8 v :: bs) else none
    | none => none

/-- A row whose operands are only numbers. -/
def instrOfNumbers : Opcode → List Nat → Option Instr
  | .timeout, [] => some .timeout
  | .tickRx, [] => some .tickRx
  | .tickTx, [k] => some (.tickTx k)
  | .rxSkip, [] => some .rxSkip
  | .readArm, [] => some .readArm
  | .readComplete, [] => some .readComplete
  | .rxOfferSkip, [k] => some (.rxOfferSkip k)
  | .rxOfferTry, [k] => some (.rxOfferTry k)
  | .rxCopy, [k, s] => (ringIdxOf s).map fun i => .rxCopy k i
  | .rxAdvance, [k, s] => (ringIdxOf s).map fun i => .rxAdvance k i
  | .rxRelease, [k, s] => (ringIdxOf s).map fun i => .rxRelease k i
  | .rxDone, [] => some .rxDone
  | .txSample, [k] => some (.txSample k)
  | .txSampleFlow, [k] => some (.txSampleFlow k)
  | .txAcquire, [k, h] => (ringIdxOf h).map fun s => .txAcquire k s
  | .txByte, [k, h, i, len] => (ringIdxOf h).map fun s => .txByte k s i len
  | .txAbort, [k, h, i, len] => (ringIdxOf h).map fun s => .txAbort k s i len
  | .txDone, [k, h, len] => (ringIdxOf h).map fun s => .txDone k s len
  | .ctrlDumpAcq, ns =>
    match slotOfNumbers ns with
    | some (g, []) => some (.ctrlDumpAcq g)
    | _ => none
  | .ctrlDumpRel, ns =>
    match slotOfNumbers ns with
    | some (g, rest) => (bytesOfNumbers rest).map fun snap => .ctrlDumpRel g snap
    | none => none
  | .ctrlStatsSlot, j :: lens => some (.ctrlStatsSlot j lens)
  | .ctrlStatsEnd, lens => some (.ctrlStatsEnd lens)
  | _, _ => none

/-- A row from its opcode and its operand tokens. FLOW and the two sample steps that carry a level have a word among
their operands; the rest have numbers. -/
def instrOf (o : Opcode) (args : List (List Byte)) : Option Instr :=
  match o, args with
  | .flow, [k, v] =>
    match numeral k, levelOfToken v with
    | some k, some v => some (.flowEdge k v)
    | _, _ => none
  | .txSampleHead, [k, f] =>
    match numeral k, flowOfToken f with
    | some k, some f => some (.txSampleHead k f)
    | _, _ => none
  | .txSampleLen, [k, f, h] =>
    match numeral k, flowOfToken f, slotIndexOf h with
    | some k, some f, some h => some (.txSampleLen k f h)
    | _, _, _ => none
  | o, args =>
    match numerals args with
    | some ns => instrOfNumbers o ns
    | none => none

/-- A line of tokens as a row, with the row's operand ranges checked. -/
def decodeTokens (c : Config) : List (List Byte) → Except DecodeError Instr
  | [] => .error .unknownName
  | t :: args =>
    match opcodeOf t with
    | none => .error .unknownName
    | some o =>
      match instrOf o args with
      | none => .error .badOperands
      | some i => if i.wellFormed c then .ok i else .error .outOfRange

/-- What follows `CMD ` in a host command's word (R93). -/
def commandLine? : List Byte → Option (List Byte)
  | 0x43#8 :: 0x4D#8 :: 0x44#8 :: 0x20#8 :: line => some line
  | _ => none

/-- The decoder: total on any bytes, rejecting by name. -/
def decode (c : Config) (w : List Byte) : Except DecodeError Instr :=
  match w with
  | [] => .error .empty
  | [b] => .ok (decodeByte b)
  | w =>
    match commandLine? w with
    | some line => .ok (parseCommand c.n line)
    | none => decodeTokens c (tokens w)

/-- The operand tokens of a list of numbers. -/
def numberTokens (ns : List Nat) : List (List Byte) := ns.map numeralOf

/-- The operand tokens of a list of bytes. -/
def byteTokens (bs : List Byte) : List (List Byte) := bs.map fun b => numeralOf b.toNat

/-- The word of a row that is a line of tokens. -/
def line (o : Opcode) (args : List (List Byte)) : List Byte := joinTokens (opcodeName o :: args)

/-- The word of a host command: `CMD ` and the command line (R93). -/
def command (text : List Byte) : List Byte := asciiOf "CMD " ++ text

/-- The encoder: the word of an instruction, from the same tables. -/
def encode : Instr → List Byte
  | .byteStart => [slash]
  | .byteEnd => [bang]
  | .byteLf => [lineFeed]
  | .byteOther b => [b]
  | .timeout => line .timeout []
  | .tickRx => line .tickRx []
  | .tickTx k => line .tickTx [numeralOf k]
  | .flowEdge k v => line .flow [numeralOf k, levelToken v]
  | .rxSkip => line .rxSkip []
  | .readArm => line .readArm []
  | .readComplete => line .readComplete []
  | .rxOfferSkip k => line .rxOfferSkip [numeralOf k]
  | .rxOfferTry k => line .rxOfferTry [numeralOf k]
  | .rxCopy k s => line .rxCopy (numberTokens [k, s.val])
  | .rxAdvance k s => line .rxAdvance (numberTokens [k, s.val])
  | .rxRelease k s => line .rxRelease (numberTokens [k, s.val])
  | .rxDone => line .rxDone []
  | .txSample k => line .txSample [numeralOf k]
  | .txSampleFlow k => line .txSampleFlow [numeralOf k]
  | .txSampleHead k f => line .txSampleHead [numeralOf k, flowToken f]
  | .txSampleLen k f h => line .txSampleLen [numeralOf k, flowToken f, numeralOf h.val]
  | .txAcquire k h => line .txAcquire (numberTokens [k, h.val])
  | .txByte k h i len => line .txByte (numberTokens [k, h.val, i, len])
  | .txAbort k h i len => line .txAbort (numberTokens [k, h.val, i, len])
  | .txDone k h len => line .txDone (numberTokens [k, h.val, len])
  | .ctrlDumpAcq g => line .ctrlDumpAcq (slotTokens g)
  | .ctrlDumpRel g snap => line .ctrlDumpRel (slotTokens g ++ byteTokens snap)
  | .ctrlStatsSlot j lens => line .ctrlStatsSlot (numberTokens (j :: lens))
  | .ctrlStatsEnd lens => line .ctrlStatsEnd (numberTokens lens)
  | .cmdEnable port => command (joinTokens [asciiOf "enable", numeralOf port])
  | .cmdDisable port => command (joinTokens [asciiOf "disable", numeralOf port])
  | .cmdInterval port ms => command (joinTokens [asciiOf "interval", numeralOf port, numeralOf ms.toNat])
  | .cmdDump g => command (joinTokens (asciiOf "dump" :: slotTokens g))
  | .cmdStats => command (asciiOf "stats")
  | .cmdMalformed text => command text

/-- The bytes of a table word: bit 0 is the least significant bit of the first byte, the second byte is bits 15..8. -/
def bytesOfWord : Nat → Nat → List Byte
  | 0, _ => []
  | len + 1, w => BitVec.ofNat 8 w :: bytesOfWord len (w / 256)

/-- The word of `nbits` bits, in whole bytes, as the link delivers it. -/
def wordBytes (nbits w : Nat) : List Byte := bytesOfWord ((nbits + 7) / 8) w

/-- The instruction the decoder reads from a table word, under the configuration of `State.reset`. -/
def decodeTableWord (nbits w : Nat) : Option Instr :=
  match decode Config.default (wordBytes nbits w) with
  | .ok i => some i
  | .error _ => none

end Sys2Proof
end

