-- ==== Sys2Proof/Machine/Fetch.lean ====
section
/-! DEFINITION. What step runs next: the item at the front of the agenda (log 3), a word through the decoder, an agent
through its phase register (R89). -/

namespace Sys2Proof.Machine

/-- RX's enabled internal step (R89). -/
def selectedRx (s : State) : Option Instr :=
  match s.rx.phase with
  | .sleep => none
  | .start =>
    if s.rx.enabled then
      if s.reader.lock = .free ∧ s.rx.slot.guard = .free then some .readArm else none
    else some .rxSkip
  | .wait => if s.reader.done then some .readComplete else none
  | .offer k =>
    if k = s.cfg.n + 1 then some .rxDone
    else (s.port? k).map fun p => if p.enabled then .rxOfferTry k else .rxOfferSkip k
  | .copy k i => if s.holds .rx (.ring k i) then some (.rxCopy k i) else none
  | .advance k i => some (.rxAdvance k i)
  | .release k i => some (.rxRelease k i)

/-- TX(k)'s enabled internal step, from its port (R89). -/
def selectedTx (c : Config) (k : Nat) (p : Port) : Option Instr :=
  match p.phase with
  | .sleep => none
  | .sample =>
    match c.sampleGranularity with
    | .atomic => some (.txSample k)
    | .perField => some (.txSampleFlow k)
  | .sampleH f => some (.txSampleHead k f)
  | .sampleL f h => some (.txSampleLen k f h)
  | .acquire h => if (p.ring.get h).guard = .free then some (.txAcquire k h) else none
  | .send h i len =>
    if i < len then
      match p.flowLevel with
      | .asserted => some (.txByte k h i len)
      | .deasserted => some (.txAbort k h i len)
    else if i = len then some (.txDone k h len)
    else none

/-- CTRL's enabled internal step (R89). -/
def selectedCtrl (s : State) : Option Instr :=
  match s.ctrl.phase with
  | .idle => none
  | .dump g => if s.guardFree g then some (.ctrlDumpAcq g) else none
  | .dumpRel g snap => some (.ctrlDumpRel g snap)
  | .stats j lens => if s.guardFree (statsSlot j) then some (.ctrlStatsSlot j lens) else none
  | .statsEnd lens => some (.ctrlStatsEnd lens)

/-- The one enabled internal step of an agent, if it has one (R89); none in Halted (R21). -/
def selected (a : Agent) (s : State) : Option Instr :=
  if s.blockStatus = .halted then none
  else
    match a with
    | .rx => selectedRx s
    | .tx k => (s.port? k).bind (selectedTx s.cfg k)
    | .ctrl => selectedCtrl s

/-- What the front of the agenda asks for. -/
inductive Fetched where
  /-- Nothing: the agenda is empty. -/
  | idle
  /-- An agent that has no enabled step was given its turn. -/
  | noStep (rest : List Item)
  /-- An instruction to run. -/
  | run (i : Instr) (rest : List Item)
  /-- A word that decodes to nothing. -/
  | bad (e : DecodeError)
  deriving DecidableEq, Repr

/-- The fetch. -/
def fetch (s : State) : Fetched :=
  match s.agenda with
  | [] => .idle
  | .word w :: rest =>
    match decode s.cfg w with
    | .ok i => .run i rest
    | .error e => .bad e
  | .agent a :: rest =>
    match selected a s with
    | some i => .run i rest
    | none => .noStep rest

/-- The state with a word put where the fetch finds it next. -/
def State.pushWord (s : State) (w : List Byte) : State := s.setAgenda (.word w :: s.agenda)

end Sys2Proof.Machine
end

