-- ==== Sys2Proof/Machine/Step.lean ====
section
/-! DEFINITION. One step of the block: the next item of the agenda is taken, and what it asks for is run. -/

namespace Sys2Proof.Machine

/-- One step. With nothing on the agenda nothing happens; an agent without an enabled step only loses its turn, which
is no fault (R13); an instruction is run by `exec` on the state whose agenda is one item shorter (log 3). -/
def step (s : State) : Host.Outcome State Fault Refusal :=
  match fetch s with
  | .idle => .next s
  | .noStep rest => .next (s.setAgenda rest)
  | .run i rest => exec i (s.setAgenda rest)
  | .bad e => .refused (.undecodable e)

/-- The state with a table word put at the front of the agenda, where step fetches next (log 4). -/
def State.withFetchWord (s : State) (nbits w : Nat) : State := s.pushWord (wordBytes nbits w)

end Sys2Proof.Machine
end

