-- ==== Sys2Proof/Safety.lean ====
section
/-! DEFINITION. What the claims are stated in: the invariant of the block, runs, who takes which row, and the ways in
which two states may differ. -/

namespace Sys2Proof.Machine

/-! ### Runs -/

/-- `n` steps, stopping at the first fault or refusal. -/
def run : Nat → State → Answer
  | 0, s => .next s
  | n + 1, s =>
    match step s with
    | .next t => run n t
    | .fault f => .fault f
    | .refused r => .refused r

/-- The instructions of a list run in order, each by `exec`. -/
def execAll : List Instr → State → Answer
  | [], s => .next s
  | i :: is, s =>
    match exec i s with
    | .next t => execAll is t
    | .fault f => .fault f
    | .refused r => .refused r

/-- The bytes of a text delivered in order, one BYTE event each (R85; R93's `FEED`). -/
def feed (bs : List Byte) (s : State) : Answer := execAll (bs.map decodeByte) s

/-- An agenda that gives one agent `n` turns. -/
def turns (a : Agent) (n : Nat) : List Item := List.replicate n (.agent a)

/-- A telegram with payload `x` as the meter frames it: `'/' x '!' Hex4(CRC16('/' x '!')) CR LF` (R82, R102, R104). -/
def frameOf (x : List Byte) : List Byte :=
  (slash :: x ++ [bang]) ++ hex4 (crc16 (slash :: x ++ [bang])) ++ [carriageReturn, lineFeed]

/-! ### Who takes a row -/

/-- The agent whose internal step a row is (R89); none for the events and the host's commands. -/
def agentOf : Instr → Option Agent
  | .byteStart => none
  | .byteEnd => none
  | .byteLf => none
  | .byteOther _ => none
  | .timeout => none
  | .tickRx => none
  | .tickTx _ => none
  | .flowEdge _ _ => none
  | .rxSkip => some .rx
  | .readArm => some .rx
  | .readComplete => some .rx
  | .rxOfferSkip _ => some .rx
  | .rxOfferTry _ => some .rx
  | .rxCopy _ _ => some .rx
  | .rxAdvance _ _ => some .rx
  | .rxRelease _ _ => some .rx
  | .rxDone => some .rx
  | .txSample k => some (.tx k)
  | .txSampleFlow k => some (.tx k)
  | .txSampleHead k _ => some (.tx k)
  | .txSampleLen k _ _ => some (.tx k)
  | .txAcquire k _ => some (.tx k)
  | .txByte k _ _ _ => some (.tx k)
  | .txAbort k _ _ _ => some (.tx k)
  | .txDone k _ _ => some (.tx k)
  | .ctrlDumpAcq _ => some .ctrl
  | .ctrlDumpRel _ _ => some .ctrl
  | .ctrlStatsSlot _ _ => some .ctrl
  | .ctrlStatsEnd _ => some .ctrl
  | .cmdEnable _ => none
  | .cmdDisable _ => none
  | .cmdInterval _ _ => none
  | .cmdDump _ => none
  | .cmdStats => none
  | .cmdMalformed _ => none

/-- The rows of a host command: the commands and the internal steps of CTRL (R210 to R215). -/
def isHostRow : Instr → Bool
  | .cmdEnable _ => true
  | .cmdDisable _ => true
  | .cmdInterval _ _ => true
  | .cmdDump _ => true
  | .cmdStats => true
  | .cmdMalformed _ => true
  | i => agentOf i == some .ctrl

/-- The BYTE rows (R81). -/
def isByteRow : Instr → Bool
  | .byteStart => true
  | .byteEnd => true
  | .byteLf => true
  | .byteOther _ => true
  | _ => false

/-- The offset of RX at which a BYTE row stores: 0 in Synchronizing, else `rd_idx` (R122 to R124). -/
def byteOffset (s : State) : Nat := if s.reader.state = .synchronizing then 0 else s.reader.idx

/-! ### How two states may differ -/

/-- The ports of `t` are those of `s`, but for port k, which is `p`. -/
abbrev PortsBut (s t : State) (k : Nat) (p : Port) : Prop :=
  t.ports.length = s.ports.length ∧ t.port? k = some p ∧ ∀ j, j ≠ k → t.port? j = s.port? j

/-- Nothing differs but sender port k, which is `p` in `t`. -/
abbrev OnlyPort (s t : State) (k : Nat) (p : Port) : Prop := t = { s with ports := t.ports } ∧ PortsBut s t k p

/-- Of the receiver port and the sender ports of `s`, nothing differs in `t` but slot g, which is `sl`. -/
def SlotsBut (s t : State) (g : SlotRef) (sl : Slot) : Prop :=
  match g with
  | .rx => t.ports = s.ports ∧ t.rx = { s.rx with slot := sl }
  | .ring k i => t.rx = s.rx ∧ ∃ p, s.port? k = some p ∧ PortsBut s t k { p with ring := p.ring.set i sl }

/-- Every byte of every buffer space reads as before. -/
abbrev SameBytes (s t : State) : Prop := ∀ g off, t.memRead g off = s.memRead g off

/-! ### The invariant -/

/-- The bytes at offsets 0..len-1 have been written. -/
abbrev Listed (m : Memory) (len : Nat) : Prop := ∀ i < len, (Memory.lookup m i).isSome = true

/-- A slot in good order: canonical memory inside the space, a length inside the space, its bytes written (R29, R44). -/
abbrev SlotOk (cap : Nat) (sl : Slot) : Prop :=
  Memory.wf sl.data = true ∧ (∀ c ∈ sl.data, c.1 < cap) ∧ sl.length ≤ cap ∧ Listed sl.data sl.length

/-- RX holds `rx_slot.guard` in this phase (R130, R153, R156). -/
def RxPhase.holdsSlot : RxPhase → Bool
  | .sleep => false
  | .start => false
  | _ => true

/-- RX holds `ring[k][i].guard` in this phase (R154, R159). -/
def RxPhase.holdsRing (ph : RxPhase) (k : Nat) (i : RingIdx) : Bool :=
  ph == .copy k i || ph == .advance k i || ph == .release k i

/-- TX(k) holds `ring[k][i].guard` in this phase (R182, R184, R185). -/
def TxPhase.holdsRing (ph : TxPhase) (i : RingIdx) : Bool :=
  match ph with
  | .send h _ _ => h == i
  | _ => false

/-- CTRL holds the guard of slot `g` in this phase (R214). -/
def CtrlPhase.holdsSlot (ph : CtrlPhase) (g : SlotRef) : Bool :=
  match ph with
  | .dumpRel g' _ => g' == g
  | _ => false

/-- `rx_slot.guard` is held by exactly the agent whose phase says so, and is Free when none does. -/
def rxGuardOk (s : State) : Bool :=
  match s.rx.slot.guard with
  | .free => !s.rx.phase.holdsSlot && !s.ctrl.phase.holdsSlot .rx
  | .held .rx => s.rx.phase.holdsSlot && !s.ctrl.phase.holdsSlot .rx
  | .held .ctrl => !s.rx.phase.holdsSlot && s.ctrl.phase.holdsSlot .rx
  | .held (.tx _) => false

/-- `ring[k][i].guard` is held by exactly the agent whose phase says so, and is Free when none does. -/
def ringGuardOk (s : State) (k : Nat) (p : Port) (i : RingIdx) : Bool :=
  match (p.ring.get i).guard with
  | .free => !s.rx.phase.holdsRing k i && !p.phase.holdsRing i && !s.ctrl.phase.holdsSlot (.ring k i)
  | .held .rx => s.rx.phase.holdsRing k i && !p.phase.holdsRing i && !s.ctrl.phase.holdsSlot (.ring k i)
  | .held (.tx j) => j == k && !s.rx.phase.holdsRing k i && p.phase.holdsRing i && !s.ctrl.phase.holdsSlot (.ring k i)
  | .held .ctrl => !s.rx.phase.holdsRing k i && !p.phase.holdsRing i && s.ctrl.phase.holdsSlot (.ring k i)

/-- The telegram of a fan-out: `rx_n` is the receiver slot's length, at least 2 (R153, R182). -/
def telegramOk (s : State) : Bool := s.rx.n == s.rx.slot.length && 2 ≤ s.rx.n

/-- The arguments of RX's phase are in range (R40), and a slot being published holds the telegram's length (R157). -/
def rxPhaseOk (s : State) : Bool :=
  match s.rx.phase with
  | .sleep => true
  | .start => true
  | .wait => true
  | .offer k => 1 ≤ k && k ≤ s.cfg.n + 1 && telegramOk s
  | .copy k _ => portInRange s.cfg k && telegramOk s
  | .advance k i => portInRange s.cfg k && telegramOk s && (s.slot? (.ring k i)).map (·.length) == some s.rx.n
  | .release k i => portInRange s.cfg k && telegramOk s && (s.slot? (.ring k i)).map (·.length) == some s.rx.n

/-- The arguments of TX(k)'s phase (R40, R182, R193): `0 <= i <= len`, len the slot's length and not 0. -/
def txPhaseOk (c : Config) (p : Port) : Bool :=
  match p.phase with
  | .sleep => true
  | .sample => true
  | .sampleH _ => c.sampleGranularity == .perField
  | .sampleL _ _ => c.sampleGranularity == .perField
  | .acquire h => (p.ring.get h).length != 0
  | .send h i len => i ≤ len && len != 0 && (p.ring.get h).length == len

/-- The arguments of CTRL's phase (R40, R214, R215). -/
def ctrlPhaseOk (s : State) : Bool :=
  match s.ctrl.phase with
  | .idle => true
  | .dump g => slotInRange s.cfg g
  | .dumpRel g _ => slotInRange s.cfg g
  | .stats j lens => j ≤ 3 * s.cfg.n && lens.length == j
  | .statsEnd lens => lens.length == 3 * s.cfg.n + 1

/-- Port k in good order. A ring slot's length is never 1 (R182: every telegram RX copies has length at least 2). -/
abbrev InvPort (s : State) (k : Nat) (p : Port) : Prop :=
  (∀ i : RingIdx, SlotOk s.cfg.bufSize (p.ring.get i) ∧ (p.ring.get i).length ≠ 1 ∧ ringGuardOk s k p i = true) ∧
  txPhaseOk s.cfg p = true ∧
  (s.blockStatus = .running → p.flowLevel = flowOf s.cfg p.flowIn) ∧
  (s.blockStatus = .halted → p.phase = .sleep)

/-- The reader in good order: `rd_done` says Complete (R26, R131); the reader is Idle exactly outside RxWait; the lock
and the request line are held exactly in RxWait (R128, R129); a frame begins with `'/'` (R122). -/
abbrev InvReader (s : State) : Prop :=
  s.reader.idx ≤ s.cfg.bufSize ∧
  Listed s.rx.slot.data s.reader.idx ∧
  (s.reader.done = true ↔ s.reader.state = .complete) ∧
  (s.reader.state = .idle ↔ s.rx.phase ≠ .wait) ∧
  s.reader.lock = (if s.rx.phase = .wait then .held .rx else .free) ∧
  s.reader.reqOut = (if s.rx.phase = .wait ∧ s.cfg.requestLinePresent = true then .high else .low) ∧
  (s.reader.state ≠ .idle → s.reader.state ≠ .synchronizing →
    1 ≤ s.reader.idx ∧ Memory.lookup s.rx.slot.data 0 = some slash)

/-- The invariant of the block. -/
abbrev BlockInv (s : State) : Prop :=
  s.cfg.valid ∧
  s.ports.length = s.cfg.n ∧
  (s.blockStatus = .halted ↔ s.cfg.initOutcome = .fail) ∧
  (s.blockStatus = .halted → s.rx.phase = .sleep ∧ s.ctrl.phase = .idle) ∧
  InvReader s ∧
  SlotOk s.cfg.bufSize s.rx.slot ∧
  rxGuardOk s = true ∧
  rxPhaseOk s = true ∧
  ctrlPhaseOk s = true ∧
  ∀ k < s.cfg.n + 1, ∀ p ∈ s.port? k, InvPort s k p

/-! ### The ledger of a port's telegrams (R285) -/

/-- 1 for a slot that holds a telegram, 0 for an empty one (R29). -/
def Slot.occupied (sl : Slot) : Nat := if sl.length = 0 then 0 else 1

/-- The number of a ring's slots that hold a telegram. -/
def Ring.nonEmpty (r : Ring) : Nat := r.s0.occupied + r.s1.occupied + r.s2.occupied

/-- Whether RX has copied a telegram into port k's ring and not yet counted it. -/
def uncounted (s : State) (k : Nat) : Nat :=
  match s.rx.phase with
  | .advance j _ => if j = k then 1 else 0
  | _ => 0

/-- Telegrams ended and telegrams still in the ring are no more than telegrams delivered, counting without wrap. -/
abbrev LedgerOk (s : State) (k : Nat) (p : Port) : Prop :=
  p.written.toNat + p.aborted.toNat + p.ring.nonEmpty ≤ p.copied.toNat + uncounted s k

/-! ### Fan-out (R160, R161) -/

/-- The port takes this telegram: it is enabled and its next slot is Free (R154). -/
def accepts (p : Port) : Bool := p.enabled && (p.ring.get (nextIdx p.head)).guard == .free

end Sys2Proof.Machine
end

