-- ==== Sys2Proof/Certificates/Slice0/Obligations.lean ====
section
/-! DEFINITION. The statements for the provers. -/

open Sys2Proof Sys2Proof.Machine

/-! ### Encoding -/

/-- Decoding an encoded well-formed instruction gives it back, every operand at every value its row admits (R80, R81,
R90 to R93; the words of the rows without a code are the model's choice, log 5). -/
def Obligations.DecodeOfEncodeIsTheInstruction : Prop :=
  ∀ (c : Config) (i : Instr), i.wellFormed c = true → decode c (encode i) = .ok i

/-- The decoder answers only instructions whose operands are in range (R81, R89, R91). -/
def Obligations.DecoderAnswersOnlyWellFormed : Prop :=
  ∀ (c : Config) (w : List Byte) (i : Instr), decode c w = .ok i → i.wellFormed c = true

/-- Words written out byte by byte (N = 2). The first five are the spec's encodings: the three BYTE rows with a match value
and two bytes of BYTE_OTHER (R81). The rest are the model's words: R80 gives these rows no code, and that their words are
the ASCII lines `TICK_TX 1`, `FLOW 2 High`, `CMD enable 1` and `CMD dump 2 3` of R93's notation is log 5. -/
def Obligations.WrittenWordsDecode : Prop :=
  decode Config.default [0x2F] = .ok .byteStart ∧
  decode Config.default [0x21] = .ok .byteEnd ∧
  decode Config.default [0x0A] = .ok .byteLf ∧
  decode Config.default [0x0D] = .ok (.byteOther 0x0D) ∧
  decode Config.default [0xFF] = .ok (.byteOther 0xFF) ∧
  decode Config.default [0x54, 0x49, 0x43, 0x4B, 0x5F, 0x54, 0x58, 0x20, 0x31] = .ok (.tickTx 1) ∧
  decode Config.default [0x46, 0x4C, 0x4F, 0x57, 0x20, 0x32, 0x20, 0x48, 0x69, 0x67, 0x68] = .ok (.flowEdge 2 .high) ∧
  decode Config.default [0x43, 0x4D, 0x44, 0x20, 0x65, 0x6E, 0x61, 0x62, 0x6C, 0x65, 0x20, 0x31] = .ok (.cmdEnable 1) ∧
  decode Config.default [0x43, 0x4D, 0x44, 0x20, 0x64, 0x75, 0x6D, 0x70, 0x20, 0x32, 0x20, 0x33] =
    .ok (.cmdMalformed [0x64, 0x75, 0x6D, 0x70, 0x20, 0x32, 0x20, 0x33])

/-- The command grammar, form by form: each row is read from exactly the lines of its form, and every other line is
CMD_MALFORMED (R90, R91, R92(a), R211). What the tokens of a line with a leading or trailing space are is the model's
choice (log 9). -/
def Obligations.CommandLinesAreReadByTheGrammar : Prop :=
  ∀ (n : Nat) (line : List Byte),
    (∀ p, parseCommand n line = .cmdEnable p ↔
      ∃ a, tokens line = [asciiOf "enable", a] ∧ numeral a = some p ∧ p ≤ n) ∧
    (∀ p, parseCommand n line = .cmdDisable p ↔
      ∃ a, tokens line = [asciiOf "disable", a] ∧ numeral a = some p ∧ p ≤ n) ∧
    (∀ p ms, parseCommand n line = .cmdInterval p ms ↔
      ∃ a b, tokens line = [asciiOf "interval", a, b] ∧ numeral a = some p ∧ p ≤ n ∧ numeral b = some ms.toNat) ∧
    (parseCommand n line = .cmdDump .rx ↔ ∃ a, tokens line = [asciiOf "dump", a] ∧ numeral a = some 0) ∧
    (∀ k i, parseCommand n line = .cmdDump (.ring k i) ↔
      ∃ a b, tokens line = [asciiOf "dump", a, b] ∧ numeral a = some k ∧ 1 ≤ k ∧ k ≤ n ∧ numeral b = some i.val) ∧
    (parseCommand n line = .cmdStats ↔ tokens line = [asciiOf "stats"]) ∧
    (parseCommand n line = .cmdMalformed line ∨ (∃ p, parseCommand n line = .cmdEnable p) ∨
      (∃ p, parseCommand n line = .cmdDisable p) ∨ (∃ p ms, parseCommand n line = .cmdInterval p ms) ∨
      (∃ g, parseCommand n line = .cmdDump g) ∨ parseCommand n line = .cmdStats)

/-- A numeral is one or more decimal digits and leading zeros are allowed (R91); tokens are separated by one or more
spaces (R90). Where nothing follows the spaces, the last clause says that a trailing space starts no token, which R90 does
not say: that is the model's choice (log 9). -/
def Obligations.NumeralsAndTokens : Prop :=
  (∀ z v, numeral (List.replicate z 0x30 ++ numeralOf v) = some v) ∧
  numeral [] = none ∧
  (∀ t b, b ∈ t → (b.toNat < 0x30 ∨ 0x39 < b.toNat) → numeral t = none) ∧
  (∀ t z rest, t ≠ [] → space ∉ t → tokens (t ++ List.replicate (z + 1) space ++ rest) = t :: tokens rest)

/-! ### Checksum -/

/-- R101: the table form gives the same result as the bitwise form for every input, and entry i of the table is the inner
loop started from i. -/
def Obligations.TableFormEqualsBitwiseForm : Prop :=
  (∀ m, crc16Table m = crc16 m) ∧ crcTable.length = 256 ∧
  ∀ i < 256, crcTable[i]? = some (crcShift8 (BitVec.ofNat 16 i))

/-- R105: Parse4's value, its None, and that it inverts Hex4. -/
def Obligations.Parse4InvertsHex4 : Prop :=
  (∀ hc v, parse4 hc (hex4 v) = some v) ∧
  (∀ hc c0 c1 c2 c3 d0 d1 d2 d3, hexval hc c0 = some d0 → hexval hc c1 = some d1 → hexval hc c2 = some d2 →
    hexval hc c3 = some d3 →
    parse4 hc [c0, c1, c2, c3] = some (BitVec.ofNat 16 (d0 <<< 12 ||| d1 <<< 8 ||| d2 <<< 4 ||| d3))) ∧
  (∀ hc c0 c1 c2 c3, (hexval hc c0 = none ∨ hexval hc c1 = none ∨ hexval hc c2 = none ∨ hexval hc c3 = none) →
    parse4 hc [c0, c1, c2, c3] = none)

/-- R100's corner cases: a leading run of 0x00 bytes leaves the CRC at 0, and the CRC of nothing is 0. -/
def Obligations.CrcIgnoresLeadingZeroBytes : Prop :=
  crc16 [] = 0 ∧ ∀ z m, crc16 (List.replicate z 0x00 ++ m) = crc16 m

/-- R106, R107: at most one LF and then at most one CR are stripped after the end marker. Before CR LF, and before CR alone,
the tail is the whole field, even one that itself ends in CR or LF; before LF alone it is the field that does not end in CR;
without a line break it is the field that ends in neither. -/
def Obligations.TailIsTheChecksumField : Prop :=
  ∀ front field : List Byte,
    tail (front ++ [bang] ++ field ++ [carriageReturn, lineFeed]) front.length = field ∧
    tail (front ++ [bang] ++ field ++ [carriageReturn]) front.length = field ∧
    (field.getLast? ≠ some carriageReturn → tail (front ++ [bang] ++ field ++ [lineFeed]) front.length = field) ∧
    (field.getLast? ≠ some carriageReturn → field.getLast? ≠ some lineFeed →
      tail (front ++ [bang] ++ field) front.length = field)

/-- R108: `Verify`. The overflow test comes first; otherwise the stored frame is accepted exactly when its first `'!'` is
followed by an empty field under Optional, or by four hex digits equal to the CRC up to that `'!'`; every other frame is
ChecksumError. -/
def Obligations.VerifyFollowsItsRule : Prop :=
  (∀ s : State, s.cfg.overflowPolicy = .frameTooLarge → s.reader.overflow = true →
    verify s = .ok .frameTooLargeError) ∧
  (∀ (s : State) (b : List Byte), (s.cfg.overflowPolicy ≠ .frameTooLarge ∨ s.reader.overflow = false) →
    s.frame s.reader.idx = .ok b →
    (∀ n, verify s = .ok (.ok n) ↔ n = s.reader.idx ∧ ∃ p, b[p]? = some 0x21 ∧ (∀ q < p, b[q]? ≠ some 0x21) ∧
      ((tail b p = [] ∧ s.cfg.checksumPolicy = .optional) ∨
        ((tail b p).length = 4 ∧ parse4 s.cfg.hexCase (tail b p) = some (crc16 (b.take (p + 1)))))) ∧
    ((∃ n, verify s = .ok (.ok n)) ∨ verify s = .ok .checksumError))

/-! ### Framer -/

/-- R121: a byte that arrives while no read is outstanding changes nothing. -/
def Obligations.BytesOutsideAReadChangeNothing : Prop :=
  ∀ (s : State) (b : Byte), (s.reader.state = .idle ∨ s.reader.state = .complete) → exec (decodeByte b) s = .next s

/-- R122: in Synchronizing the start marker is stored at offset 0 and opens the frame; every other byte changes
nothing. -/
def Obligations.StartMarkerOpensTheFrame : Prop :=
  ∀ s : State, s.blockStatus = .running → s.reader.state = .synchronizing → 1 ≤ s.cfg.bufSize →
    (∃ t m, exec .byteStart s = .next t ∧
      t = { s with
        reader := { s.reader with state := .awaitingTerminator, idx := 1 }
        rx := { s.rx with slot := { s.rx.slot with data := m } } } ∧
      t.memRead .rx 0 = .ok 0x2F ∧
      ∀ g off, (g, off) ≠ (SlotRef.rx, 0) → t.memRead g off = s.memRead g off) ∧
    ∀ b : Byte, b ≠ 0x2F → exec (decodeByte b) s = .next s

/-- R123, R124: with room, a byte of a frame is stored at `rd_idx`; `'!'` ends the payload, LF after it completes the
frame. -/
def Obligations.BytesOfAFrameAreStored : Prop :=
  ∀ (s : State) (b : Byte), s.blockStatus = .running →
    (s.reader.state = .awaitingTerminator ∨ s.reader.state = .awaitingChecksumLine) → s.reader.idx < s.cfg.bufSize →
    ∃ t m, exec (decodeByte b) s = .next t ∧
      t = { s with
        reader :=
          if s.reader.state = .awaitingTerminator then
            { s.reader with
              idx := s.reader.idx + 1
              state := if b = 0x21 then .awaitingChecksumLine else .awaitingTerminator }
          else
            { s.reader with
              idx := s.reader.idx + 1
              state := if b = 0x0A then .complete else .awaitingChecksumLine
              done := if b = 0x0A then true else s.reader.done }
        rx := { s.rx with slot := { s.rx.slot with data := m } } } ∧
      t.memRead .rx s.reader.idx = .ok b ∧
      ∀ g off, (g, off) ≠ (SlotRef.rx, s.reader.idx) → t.memRead g off = s.memRead g off

/-- R125: without room no byte is stored, `rd_overflow` is set, and what else happens follows `OVERFLOW_POLICY`. -/
def Obligations.BytesWithoutRoom : Prop :=
  ∀ (s : State) (b : Byte), s.blockStatus = .running →
    (s.reader.state = .awaitingTerminator ∨ s.reader.state = .awaitingChecksumLine) → s.reader.idx = s.cfg.bufSize →
    (s.cfg.overflowPolicy = .dropAndHold →
      exec (decodeByte b) s = .next { s with reader := { s.reader with overflow := true } }) ∧
    (s.cfg.overflowPolicy = .dropAndTransition →
      exec (decodeByte b) s = .next { s with
        reader :=
          if s.reader.state = .awaitingTerminator ∧ b = 0x21 then
            { s.reader with overflow := true, state := .awaitingChecksumLine }
          else if s.reader.state = .awaitingChecksumLine ∧ b = 0x0A then
            { s.reader with overflow := true, state := .complete, done := true }
          else { s.reader with overflow := true } }) ∧
    (s.cfg.overflowPolicy = .frameTooLarge →
      exec (decodeByte b) s =
        .next { s with reader := { s.reader with overflow := true, state := .complete, done := true } })

/-- R136(b), R280: under DropAndHold no run of bytes completes a read once the space is full. -/
def Obligations.FullBufferNeverCompletesUnderHold : Prop :=
  ∀ (bs : List Byte) (s : State), s.blockStatus = .running → s.cfg.overflowPolicy = .dropAndHold →
    (s.reader.state = .awaitingTerminator ∨ s.reader.state = .awaitingChecksumLine) → s.reader.idx = s.cfg.bufSize →
    ∃ t, feed bs s = .next t ∧
      t = { s with reader := { s.reader with overflow := if bs = [] then s.reader.overflow else true } }

/-- The source's round trip (95_test_vectors.md S8; R82, R102, R104, R122 to R124, R108): junk without `'/'`, then a
telegram framed with its CRC, fed byte by byte into an armed reader with room, is stored whole and verified, under every
policy. -/
def Obligations.FedTelegramIsReadWhole : Prop :=
  ∀ (s : State) (junk x : List Byte), s.blockStatus = .running → s.reader.state = .synchronizing →
    s.reader.overflow = false → slash ∉ junk → bang ∉ x → x.length + 8 ≤ s.cfg.bufSize →
    ∃ t, feed (junk ++ frameOf x) s = .next t ∧ t.reader.state = .complete ∧ t.reader.done = true ∧
      t.reader.idx = x.length + 8 ∧ t.frame (x.length + 8) = .ok (frameOf x) ∧
      verify t = .ok (.ok (x.length + 8))

/-! ### The read operation -/

/-- R130: READ_ARM. -/
def Obligations.ReadArmArmsTheFramer : Prop :=
  ∀ s : State, s.blockStatus = .running → s.rx.phase = .start → s.rx.enabled = true → s.reader.lock = .free →
    s.rx.slot.guard = .free →
    exec .readArm s = .next { s with
      reader := { s.reader with
        lock := .held .rx, idx := 0, overflow := false, done := false, state := .synchronizing
        reqOut := if s.cfg.requestLinePresent then .high else s.reader.reqOut }
      rx := { s.rx with slot := { s.rx.slot with guard := .held .rx }, phase := .wait } }

/-- R131, R133, R153: READ_COMPLETE of a frame that verifies. -/
def Obligations.SuccessfulReadIsAccounted : Prop :=
  ∀ (s : State) (n : Nat), s.blockStatus = .running → s.rx.phase = .wait → s.reader.done = true →
    verify s = .ok (.ok n) →
    exec .readComplete s = .next { s with
      reader := { s.reader with
        state := .idle, done := false, lock := .free
        reqOut := if s.cfg.requestLinePresent then .low else s.reader.reqOut }
      rx := { s.rx with
        cntRead := s.rx.cntRead + 1, slot := { s.rx.slot with length := n }, n := n, phase := .offer 1 } }

/-- R131, R133, R153: READ_COMPLETE of a frame that fails moves exactly one counter, empties and frees the receiver slot,
and skips the fan-out. -/
def Obligations.FailedReadIsAccounted : Prop :=
  ∀ (s : State) (res : ReadResult), s.blockStatus = .running → s.rx.phase = .wait → s.reader.done = true →
    s.rx.slot.guard = .held .rx → verify s = .ok res → (∀ n, res ≠ .ok n) →
    exec .readComplete s = .next { s with
      reader := { s.reader with
        state := .idle, done := false, lock := .free
        reqOut := if s.cfg.requestLinePresent then .low else s.reader.reqOut }
      rx := { s.rx with
        cntFailedChecksum := if res = .checksumError then s.rx.cntFailedChecksum + 1 else s.rx.cntFailedChecksum
        cntFailedOther := if res = .frameTooLargeError then s.rx.cntFailedOther + 1 else s.rx.cntFailedOther
        slot := { s.rx.slot with guard := .free, length := 0 }, phase := .sleep } }

/-- R132, R133, R153: TIMEOUT. -/
def Obligations.TimeoutEndsTheRead : Prop :=
  ∀ s : State, s.blockStatus = .running → s.rx.phase = .wait → s.reader.done = false → s.rx.slot.guard = .held .rx →
    exec .timeout s = .next { s with
      reader := { s.reader with
        state := .idle, done := false, lock := .free
        reqOut := if s.cfg.requestLinePresent then .low else s.reader.reqOut }
      rx := { s.rx with
        cntFailedTimeout := s.rx.cntFailedTimeout + 1
        slot := { s.rx.slot with guard := .free, length := 0 }, phase := .sleep } }

/-! ### The receiver's iteration and fan-out -/

/-- R150, R151: TICK_RX and RX_SKIP change RX's phase and nothing else. -/
def Obligations.ReceiverWakesAndSkips : Prop :=
  ∀ s : State, s.blockStatus = .running →
    (s.rx.phase = .sleep → exec .tickRx s = .next { s with rx := { s.rx with phase := .start } }) ∧
    (s.rx.phase = .start → s.rx.enabled = false → exec .rxSkip s = .next { s with rx := { s.rx with phase := .sleep } })

/-- R155, R156: RX_OFFER_SKIP moves to the next port; RX_DONE frees the receiver slot, whose length stays. -/
def Obligations.FanoutSkipsAndEnds : Prop :=
  ∀ s : State, s.blockStatus = .running →
    (∀ k p, s.port? k = some p → s.rx.phase = .offer k → p.enabled = false →
      exec (.rxOfferSkip k) s = .next { s with rx := { s.rx with phase := .offer (k + 1) } }) ∧
    (s.rx.phase = .offer (s.cfg.n + 1) → s.rx.slot.guard = .held .rx →
      exec .rxDone s =
        .next { s with rx := { s.rx with slot := { s.rx.slot with guard := .free }, phase := .sleep } })

/-- R154: RX_OFFER_TRY targets the slot one past the head, takes its guard if it is Free, and otherwise goes on to the
next port; it never waits. -/
def Obligations.OfferTriesTheNextSlot : Prop :=
  ∀ (s : State) (k : Nat) (p : Port), s.blockStatus = .running → s.port? k = some p → s.rx.phase = .offer k →
    p.enabled = true →
    ∀ i : RingIdx, i.val = (p.head.val + 1) % 3 →
    ((p.ring.get i).guard = .free →
      ∃ t, exec (.rxOfferTry k) s = .next t ∧
        t = { s with rx := { s.rx with phase := .copy k i }, ports := t.ports } ∧
        PortsBut s t k { p with ring := p.ring.set i { p.ring.get i with guard := .held .rx } } ∧ SameBytes s t) ∧
    ((p.ring.get i).guard ≠ .free →
      exec (.rxOfferTry k) s = .next { s with rx := { s.rx with phase := .offer (k + 1) } })

/-- R157: RX_COPY writes the telegram's bytes and its length into the slot RX holds, and no other byte. -/
def Obligations.CopyWritesTheTelegram : Prop :=
  ∀ (s : State) (k : Nat) (i : RingIdx) (p : Port), s.blockStatus = .running → s.port? k = some p →
    s.rx.phase = .copy k i → (p.ring.get i).guard = .held .rx → s.rx.n ≤ s.cfg.bufSize →
    Listed s.rx.slot.data s.rx.n →
    ∃ t m, exec (.rxCopy k i) s = .next t ∧
      t = { s with rx := { s.rx with phase := .advance k i }, ports := t.ports } ∧
      PortsBut s t k { p with ring := p.ring.set i { p.ring.get i with data := m, length := s.rx.n } } ∧
      (∀ j < s.rx.n, t.memRead (.ring k i) j = s.memRead .rx j) ∧
      ∀ g off, (g = .ring k i → s.rx.n ≤ off) → t.memRead g off = s.memRead g off

/-- R158, R159: RX_ADVANCE publishes the head and counts the delivery; RX_RELEASE frees the slot. -/
def Obligations.DeliveryIsPublishedAndReleased : Prop :=
  ∀ (s : State) (k : Nat) (i : RingIdx) (p : Port), s.blockStatus = .running → s.port? k = some p →
    (s.rx.phase = .advance k i →
      ∃ t, exec (.rxAdvance k i) s = .next t ∧
        t = { s with rx := { s.rx with phase := .release k i }, ports := t.ports } ∧
        PortsBut s t k { p with head := i, copied := p.copied + 1 } ∧ SameBytes s t) ∧
    (s.rx.phase = .release k i → (p.ring.get i).guard = .held .rx →
      ∃ t, exec (.rxRelease k i) s = .next t ∧
        t = { s with rx := { s.rx with phase := .offer (k + 1) }, ports := t.ports } ∧
        PortsBut s t k { p with ring := p.ring.set i { p.ring.get i with guard := .free } } ∧ SameBytes s t)

/-- R160, R161: from a successful read, RX alone finishes the fan-out in exactly N + 3m + 1 steps, m being the number of
ports that are enabled with their next slot free; each of those gets the telegram, one more `copied` and a new head, and
every other port is unchanged. The agenda that gives RX its turns is the model's (log 3). -/
def Obligations.FanoutTakesExactlyItsSteps : Prop :=
  ∀ s : State, BlockInv s → s.blockStatus = .running → s.rx.phase = .offer 1 →
    s.agenda = turns .rx (s.cfg.n + 3 * s.ports.countP accepts + 1) →
    (∀ j < s.cfg.n + 3 * s.ports.countP accepts + 1, ∃ u, run j s = .next u ∧ u.rx.phase ≠ .sleep) ∧
    ∃ t, run (s.cfg.n + 3 * s.ports.countP accepts + 1) s = .next t ∧
      t = { s with
        rx := { s.rx with slot := { s.rx.slot with guard := .free }, phase := .sleep }
        ports := t.ports, agenda := [] } ∧
      t.ports.length = s.ports.length ∧
      ∀ k p, s.port? k = some p → ∃ q, t.port? k = some q ∧
        (accepts p = false → q = p) ∧
        (accepts p = true →
          q = { p with
            head := nextIdx p.head, copied := p.copied + 1
            ring := p.ring.set (nextIdx p.head) ⟨.free, (q.ring.get (nextIdx p.head)).data, s.rx.n⟩ } ∧
          ∀ j < s.rx.n, t.memRead (.ring k (nextIdx p.head)) j = s.memRead .rx j)

/-! ### The sender -/

/-- R180, R181: TICK_TX wakes TX(k); under Atomic, TX_SAMPLE goes to TxAcquire(head) exactly when the port is enabled, the
stored level is Asserted and the head slot is not empty, and else back to sleep. -/
def Obligations.SenderWakesAndSamples : Prop :=
  ∀ (s : State) (k : Nat) (p : Port), s.blockStatus = .running → s.port? k = some p →
    (p.phase = .sleep → ∃ t, exec (.tickTx k) s = .next t ∧ OnlyPort s t k { p with phase := .sample }) ∧
    (p.phase = .sample → s.cfg.sampleGranularity = .atomic →
      ∃ t, exec (.txSample k) s = .next t ∧ OnlyPort s t k
        { p with
          phase :=
            if p.enabled = true ∧ p.flowLevel = .asserted ∧ (p.ring.get p.head).length ≠ 0 then .acquire p.head
            else .sleep })

/-- R193: the sample field by field, under PerField. -/
def Obligations.SenderSamplesFieldByField : Prop :=
  ∀ (s : State) (k : Nat) (p : Port), s.blockStatus = .running → s.port? k = some p →
    (p.phase = .sample → s.cfg.sampleGranularity = .perField →
      ∃ t, exec (.txSampleFlow k) s = .next t ∧ OnlyPort s t k { p with phase := .sampleH p.flowLevel }) ∧
    (∀ f, p.phase = .sampleH f →
      ∃ t, exec (.txSampleHead k f) s = .next t ∧ OnlyPort s t k { p with phase := .sampleL f p.head }) ∧
    (∀ f h, p.phase = .sampleL f h →
      ∃ t, exec (.txSampleLen k f h) s = .next t ∧ OnlyPort s t k
        { p with
          phase :=
            if p.enabled = true ∧ f = .asserted ∧ (p.ring.get h).length ≠ 0 then .acquire h else .sleep })

/-- R182: TX_ACQUIRE takes the guard and reads the length again; an empty slot is left Free and TX(k) sleeps. -/
def Obligations.AcquireReadsTheLengthAgain : Prop :=
  ∀ (s : State) (k : Nat) (h : RingIdx) (p : Port), s.blockStatus = .running → s.port? k = some p →
    p.phase = .acquire h → (p.ring.get h).guard = .free →
    ∃ t, exec (.txAcquire k h) s = .next t ∧ SameBytes s t ∧
      ((p.ring.get h).length ≠ 0 → OnlyPort s t k
        { p with
          ring := p.ring.set h { p.ring.get h with guard := .held (.tx k) }
          phase := .send h 0 (p.ring.get h).length }) ∧
      ((p.ring.get h).length = 0 → OnlyPort s t k { p with phase := .sleep })

/-- R183: TX_BYTE appends byte i of the slot to the outbound link. -/
def Obligations.ByteIsSent : Prop :=
  ∀ (s : State) (k : Nat) (h : RingIdx) (i len : Nat) (p : Port) (b : Byte), s.blockStatus = .running →
    s.port? k = some p → p.phase = .send h i len → i < len → p.flowLevel = .asserted →
    s.memRead (.ring k h) i = .ok b →
    ∃ t, exec (.txByte k h i len) s = .next t ∧ SameBytes s t ∧
      OnlyPort s t k { p with out := p.out ++ [b], phase := .send h (i + 1) len }

/-- R184, R185, R188: TX_ABORT and TX_DONE count the end of the transmission, empty the slot and free it; nothing is sent
again. -/
def Obligations.TransmissionEndsConsumeTheTelegram : Prop :=
  ∀ (s : State) (k : Nat) (h : RingIdx) (i len : Nat) (p : Port), s.blockStatus = .running → s.port? k = some p →
    p.phase = .send h i len → (p.ring.get h).guard = .held (.tx k) →
    (i < len → p.flowLevel = .deasserted →
      ∃ t, exec (.txAbort k h i len) s = .next t ∧ SameBytes s t ∧ OnlyPort s t k
        { p with
          aborted := p.aborted + 1
          ring := p.ring.set h { p.ring.get h with guard := .free, length := 0 }, phase := .sleep }) ∧
    (i = len →
      ∃ t, exec (.txDone k h len) s = .next t ∧ SameBytes s t ∧ OnlyPort s t k
        { p with
          written := p.written + 1
          ring := p.ring.set h { p.ring.get h with guard := .free, length := 0 }, phase := .sleep })

/-- R186: in TxSend exactly one of TX_BYTE, TX_ABORT and TX_DONE is enabled. -/
def Obligations.TransmitLoopHasOneStep : Prop :=
  ∀ (s : State) (k : Nat) (h : RingIdx) (i len : Nat) (p : Port), s.blockStatus = .running → s.port? k = some p →
    p.phase = .send h i len → i ≤ len → (p.ring.get h).guard = .held (.tx k) → len ≤ s.cfg.bufSize →
    Listed (p.ring.get h).data len →
    ((∃ t, exec (.txDone k h len) s = .next t) ↔ i = len) ∧
    ((∃ t, exec (.txByte k h i len) s = .next t) ↔ i < len ∧ p.flowLevel = .asserted) ∧
    ((∃ t, exec (.txAbort k h i len) s = .next t) ↔ i < len ∧ p.flowLevel = .deasserted)

/-- R183 to R185, R292: with the level asserted and only TX(k) taking turns, len + 1 steps send the whole telegram and
count it written. The agenda that gives TX(k) its turns is the model's (log 3). -/
def Obligations.WholeTelegramIsSent : Prop :=
  ∀ (s : State) (k : Nat) (h : RingIdx) (len : Nat) (p : Port) (bytes : List Byte), s.blockStatus = .running →
    s.port? k = some p → p.phase = .send h 0 len → p.flowLevel = .asserted → (p.ring.get h).guard = .held (.tx k) →
    readRange s.cfg.bufSize (p.ring.get h).data len = .ok bytes → s.agenda = turns (.tx k) (len + 1) →
    ∃ t, run (len + 1) s = .next t ∧ t = { s with ports := t.ports, agenda := [] } ∧ PortsBut s t k
      { p with
        out := p.out ++ bytes, written := p.written + 1
        ring := p.ring.set h { p.ring.get h with guard := .free, length := 0 }, phase := .sleep }

/-- R190: FLOW_EDGE stores the pin's level and its meaning, and counts a request exactly on a transition from Deasserted
to Asserted. The pin is the environment's (R36); that the model records it is log 8. -/
def Obligations.FlowEdgeStoresTheLevel : Prop :=
  ∀ (s : State) (k : Nat) (v : Level) (p : Port), s.blockStatus = .running → s.port? k = some p →
    ∃ t, exec (.flowEdge k v) s = .next t ∧ OnlyPort s t k
      { p with
        flowIn := v
        flowLevel := if v = s.cfg.flowActiveLevel then .asserted else .deasserted
        requested :=
          if p.flowLevel = .deasserted ∧ v = s.cfg.flowActiveLevel then p.requested + 1 else p.requested }

/-! ### Control -/

/-- R212, R213: `enable`, `disable` and `interval` write one field of the port they name and answer `Resp(0, None)`. -/
def Obligations.ControlWritesOneField : Prop :=
  ∀ (s : State) (ms : Millis), s.blockStatus = .running → s.ctrl.phase = .idle →
    exec (.cmdEnable 0) s = .next { s with
      rx := { s.rx with enabled := true }, ctrl := ⟨.idle, s.ctrl.resp ++ [⟨0, .none⟩]⟩ } ∧
    exec (.cmdDisable 0) s = .next { s with
      rx := { s.rx with enabled := false }, ctrl := ⟨.idle, s.ctrl.resp ++ [⟨0, .none⟩]⟩ } ∧
    exec (.cmdInterval 0 ms) s = .next { s with
      rx := { s.rx with interval := ms }, ctrl := ⟨.idle, s.ctrl.resp ++ [⟨0, .none⟩]⟩ } ∧
    ∀ k p, s.port? k = some p →
      (∃ t, exec (.cmdEnable k) s = .next t ∧
        t = { s with ports := t.ports, ctrl := ⟨.idle, s.ctrl.resp ++ [⟨0, .none⟩]⟩ } ∧
        PortsBut s t k { p with enabled := true }) ∧
      (∃ t, exec (.cmdDisable k) s = .next t ∧
        t = { s with ports := t.ports, ctrl := ⟨.idle, s.ctrl.resp ++ [⟨0, .none⟩]⟩ } ∧
        PortsBut s t k { p with enabled := false }) ∧
      (∃ t, exec (.cmdInterval k ms) s = .next t ∧
        t = { s with ports := t.ports, ctrl := ⟨.idle, s.ctrl.resp ++ [⟨0, .none⟩]⟩ } ∧
        PortsBut s t k { p with interval := ms })

/-- R211: a malformed line gets `Resp(1, Usage)`, and nothing else changes. -/
def Obligations.MalformedCommandChangesNothing : Prop :=
  ∀ (s : State) (line : List Byte), s.blockStatus = .running → s.ctrl.phase = .idle →
    parseCommand s.cfg.n line = .cmdMalformed line →
    exec (.cmdMalformed line) s = .next { s with ctrl := ⟨.idle, s.ctrl.resp ++ [⟨1, .usage⟩]⟩ }

/-- R214: the three steps of `dump`: the slot is remembered; its guard is taken and its bytes 0..length-1 are read; the
guard is freed and the bytes are answered. Nothing changes but that guard, CTRL's phase and `ctrl_resp`. -/
def Obligations.DumpTakesItsThreeSteps : Prop :=
  ∀ (s : State) (g : SlotRef) (sl : Slot), s.blockStatus = .running → s.slot? g = some sl →
    (s.ctrl.phase = .idle → exec (.cmdDump g) s = .next { s with ctrl := ⟨.dump g, s.ctrl.resp⟩ }) ∧
    (s.ctrl.phase = .dump g → sl.guard = .free → sl.length ≤ s.cfg.bufSize → Listed sl.data sl.length →
      ∃ t snap, exec (.ctrlDumpAcq g) s = .next t ∧
        t = { s with rx := t.rx, ports := t.ports, ctrl := ⟨.dumpRel g snap, s.ctrl.resp⟩ } ∧
        SlotsBut s t g { sl with guard := .held .ctrl } ∧
        snap.length = sl.length ∧ ∀ (j : Nat) (hj : j < snap.length), s.memRead g j = .ok snap[j]) ∧
    (∀ snap, s.ctrl.phase = .dumpRel g snap → sl.guard = .held .ctrl →
      ∃ t, exec (.ctrlDumpRel g snap) s = .next t ∧
        t = { s with rx := t.rx, ports := t.ports, ctrl := ⟨.idle, s.ctrl.resp ++ [⟨0, .dump snap⟩]⟩ } ∧
        SlotsBut s t g { sl with guard := .free })

/-- R215: the steps of `stats`: slot j is `rx_slot` for j = 0 and `ring[k][i]` for j = 3(k-1) + i + 1; each step reads one
length under a guard that is Free before and after; the answer is built from the lengths and the fields read then. -/
def Obligations.StatsReadsSlotBySlot : Prop :=
  ∀ s : State, s.blockStatus = .running →
    (s.ctrl.phase = .idle → exec .cmdStats s = .next { s with ctrl := ⟨.stats 0 [], s.ctrl.resp⟩ }) ∧
    (∀ lens, s.ctrl.phase = .stats 0 lens → s.rx.slot.guard = .free → 1 ≤ s.cfg.n →
      exec (.ctrlStatsSlot 0 lens) s =
        .next { s with ctrl := ⟨.stats 1 (lens ++ [s.rx.slot.length]), s.ctrl.resp⟩ }) ∧
    (∀ k p (i : RingIdx) lens, s.port? k = some p → (p.ring.get i).guard = .free →
      s.ctrl.phase = .stats (3 * (k - 1) + i.val + 1) lens →
      exec (.ctrlStatsSlot (3 * (k - 1) + i.val + 1) lens) s = .next { s with
        ctrl :=
          ⟨if 3 * (k - 1) + i.val + 1 < 3 * s.cfg.n then
              .stats (3 * (k - 1) + i.val + 2) (lens ++ [(p.ring.get i).length])
            else .statsEnd (lens ++ [(p.ring.get i).length]),
            s.ctrl.resp⟩ }) ∧
    (∀ len0 lens, s.ctrl.phase = .statsEnd (len0 :: lens) → lens.length = 3 * s.ports.length →
      ∃ txs, exec (.ctrlStatsEnd (len0 :: lens)) s = .next { s with
          ctrl := ⟨.idle, s.ctrl.resp ++ [⟨0, .stats
            ⟨s.rx.enabled, s.rx.interval, len0, s.rx.cntRead, s.rx.cntFailedTimeout, s.rx.cntFailedChecksum,
              s.rx.cntFailedOther⟩ txs⟩]⟩ } ∧
        txs.length = s.ports.length ∧
        ∀ k p, s.port? k = some p → txs[k - 1]? = some
          ⟨p.enabled, p.interval, (lens.drop (3 * (k - 1))).take 3, p.copied, p.requested, p.aborted, p.written⟩)

/-- R215, R292: with every guard Free and only CTRL taking turns, `stats` is over after exactly 3N + 3 steps (CTRL is not back
in CtrlIdle before), answers every length and counter as it stands, and changes nothing but `ctrl_resp`. The agenda and the
word of the command on it are the model's (log 3, log 5). -/
def Obligations.StatsAnswersInItsSteps : Prop :=
  ∀ s : State, s.blockStatus = .running → s.ports.length = s.cfg.n → 1 ≤ s.cfg.n → s.ctrl.phase = .idle →
    s.rx.slot.guard = .free → (∀ k p, s.port? k = some p → ∀ i, (p.ring.get i).guard = .free) →
    s.agenda = .word (encode .cmdStats) :: turns .ctrl (3 * s.cfg.n + 2) →
    (∀ j, 1 ≤ j → j < 3 * s.cfg.n + 3 → ∃ u, run j s = .next u ∧ u.ctrl.phase ≠ .idle) ∧
    run (3 * s.cfg.n + 3) s = .next { s with
      agenda := []
      ctrl := ⟨.idle, s.ctrl.resp ++ [⟨0, .stats
        ⟨s.rx.enabled, s.rx.interval, s.rx.slot.length, s.rx.cntRead, s.rx.cntFailedTimeout, s.rx.cntFailedChecksum,
          s.rx.cntFailedOther⟩
        (s.ports.map fun p => ⟨p.enabled, p.interval, [p.ring.s0.length, p.ring.s1.length, p.ring.s2.length], p.copied,
          p.requested, p.aborted, p.written⟩)⟩]⟩ }

/-- R217, R218: whatever row of the host or of CTRL is taken, only `enabled`, the interval and guards change outside
CTRL: no counter, no slot's data or length, no head, no reader register, no level and no outbound byte. -/
def Obligations.HostReachesOnlyControlFields : Prop :=
  ∀ (i : Instr) (s t : State), isHostRow i = true → exec i s = .next t →
    t = { s with rx := t.rx, ports := t.ports, ctrl := t.ctrl } ∧
    t.rx = { s.rx with
      enabled := t.rx.enabled, interval := t.rx.interval
      slot := { s.rx.slot with guard := t.rx.slot.guard } } ∧
    t.ports.length = s.ports.length ∧
    ∀ k p, s.port? k = some p → ∃ q, t.port? k = some q ∧
      q = { p with enabled := q.enabled, interval := q.interval, ring := q.ring } ∧
      ∀ j, q.ring.get j = { p.ring.get j with guard := (q.ring.get j).guard }

/-! ### The whole machine -/

/-- A step runs the decoded instruction: when the word at the front of the agenda decodes to i, step is `exec i` on the
state whose agenda is one item shorter (the agenda is the model's, log 3, log 4). -/
def Obligations.StepRunsTheDecodedWord : Prop :=
  (∀ (s : State) (w : List Byte) (rest : List Item) (i : Instr), s.agenda = .word w :: rest → decode s.cfg w = .ok i →
    step s = exec i { s with agenda := rest }) ∧
  (∀ (s : State) (nbits v : Nat) (i : Instr), s.cfg = Config.default → decodeTableWord nbits v = some i →
    step (s.withFetchWord nbits v) = exec i s)

/-- An agent given its turn takes the step its phase register selects (R89), and only loses its turn when it has none,
which is no fault (R13); an empty agenda changes nothing (log 3). -/
def Obligations.StepRunsTheSelectedStep : Prop :=
  (∀ (s : State) (a : Agent) (rest : List Item) (i : Instr), s.agenda = .agent a :: rest → selected a s = some i →
    step s = exec i { s with agenda := rest }) ∧
  (∀ (s : State) (a : Agent) (rest : List Item), s.agenda = .agent a :: rest → selected a s = none →
    step s = .next { s with agenda := rest }) ∧
  (∀ s : State, s.agenda = [] → step s = .next s)

/-- R270, R271, R272: the fields right after reset, for every configuration and every level of the pins. -/
def Obligations.ResetLeavesTheseFields : Prop :=
  ∀ (c : Config) (pins : List Level),
    (State.resetOf c pins).blockStatus = (if c.initOutcome = .fail then .halted else .running) ∧
    (State.resetOf c pins).reader = ⟨.idle, 0, false, .free, false, .low⟩ ∧
    (State.resetOf c pins).rx.enabled = c.initRxEnabled ∧
    (State.resetOf c pins).rx.interval = c.initRxInterval ∧
    (State.resetOf c pins).rx.slot.guard = .free ∧ (State.resetOf c pins).rx.slot.length = 0 ∧
    (State.resetOf c pins).rx.cntRead = 0 ∧ (State.resetOf c pins).rx.cntFailedTimeout = 0 ∧
    (State.resetOf c pins).rx.cntFailedChecksum = 0 ∧ (State.resetOf c pins).rx.cntFailedOther = 0 ∧
    (State.resetOf c pins).rx.phase = .sleep ∧
    (State.resetOf c pins).ctrl = ⟨.idle, []⟩ ∧
    (State.resetOf c pins).ports.length = c.n ∧
    ∀ k p, (State.resetOf c pins).port? k = some p →
      p.enabled = c.initTxEnabled ∧ p.interval = c.initTxInterval ∧
      (∀ i, (p.ring.get i).guard = .free ∧ (p.ring.get i).length = 0) ∧ p.head = 0 ∧
      p.flowIn = pins.getD (k - 1) .low ∧
      p.flowLevel = (if p.flowIn = c.flowActiveLevel then .asserted else .deasserted) ∧
      p.copied = 0 ∧ p.requested = 0 ∧ p.aborted = 0 ∧ p.written = 0 ∧ p.out = [] ∧ p.phase = .sleep

/-- The invariant holds right after reset, for every valid configuration and every level of the pins. -/
def Obligations.ResetMeetsTheInvariant : Prop :=
  ∀ (c : Config) (pins : List Level), c.valid → BlockInv (State.resetOf c pins)

/-- Every step keeps the invariant: the memories canonical and inside their spaces, every length and index in range and
its bytes written, every guard held by exactly the agent whose phase says so, the lock, the completion flag and the
request line tied to RxWait, every phase's arguments in range, the stored level equal to the pin's (R23, R26, R29, R40,
R44, R63, R66, R128, R129, R192). -/
def Obligations.StepKeepsTheInvariant : Prop :=
  ∀ s t : State, BlockInv s → step s = .next t → BlockInv t

/-- R44, R63, R13: no step from a state of the invariant reads an unwritten byte, leaves a buffer space, or releases a
guard its agent does not hold. -/
def Obligations.NoStepFaults : Prop :=
  ∀ (s : State) (f : Fault), BlockInv s → step s ≠ .fault f

/-- R8, R71, R253, R275: no row changes the parameters or the block status. That the parameters stand in State is log 1. The
last clause is about the model's own agenda, which no rule of the spec speaks of (log 3): no row changes it. -/
def Obligations.ParametersAndStatusNeverChange : Prop :=
  ∀ (i : Instr) (s t : State), exec i s = .next t → t.cfg = s.cfg ∧ t.blockStatus = s.blockStatus ∧ t.agenda = s.agenda

/-- R21, R272: in Halted a BYTE has no effect, a FLOW_EDGE has none on the block (the pin is the environment's, log 8),
and no other row takes a step. The spec says only that no such step is enabled: that the model answers it with the refusal
`halted` is log 11. -/
def Obligations.HaltedBlockTakesNoStep : Prop :=
  ∀ (i : Instr) (s : State), s.blockStatus = .halted →
    (isByteRow i = true → exec i s = .next s) ∧
    (∀ k v p, i = .flowEdge k v → s.port? k = some p →
      ∃ t, exec i s = .next t ∧ OnlyPort s t k { p with flowIn := v }) ∧
    (isByteRow i = false → (∀ k v, i ≠ .flowEdge k v) → exec i s = .refused .halted)

/-- R89: an internal step that can be taken is the one its agent's phase register selects; so at most one step of an agent
is enabled in any state that has the N ports. -/
def Obligations.EnabledStepIsTheSelectedOne : Prop :=
  ∀ (i : Instr) (a : Agent) (s t : State), s.ports.length = s.cfg.n → agentOf i = some a → exec i s = .next t →
    selected a s = some i

/-- R89: in a state of the invariant the step a phase register selects can be taken. -/
def Obligations.SelectedStepCompletes : Prop :=
  ∀ (s : State) (a : Agent) (i : Instr), BlockInv s → selected a s = some i → ∃ t, exec i s = .next t

/-- R262: the block cannot deadlock: whoever holds a guard has an enabled step, or is RX waiting for its read, which
TIMEOUT ends. -/
def Obligations.GuardHoldersCanMove : Prop :=
  ∀ (s : State) (a : Agent) (g : SlotRef), BlockInv s → s.blockStatus = .running → s.holds a g = true →
    (∃ i t, selected a s = some i ∧ exec i s = .next t) ∨ (a = .rx ∧ ∃ t, exec .timeout s = .next t)

/-- R245, R85 to R88, R132, R210: in a state of the invariant every byte and every flow edge is taken; the deadline, the
ticks and a command line are taken exactly under the conditions of the table. -/
def Obligations.EventsAreEnabledAsListed : Prop :=
  ∀ s : State, BlockInv s →
    (∀ b, ∃ t, exec (decodeByte b) s = .next t) ∧
    (∀ k v, portInRange s.cfg k = true → ∃ t, exec (.flowEdge k v) s = .next t) ∧
    ((∃ t, exec .timeout s = .next t) ↔ s.blockStatus = .running ∧ s.rx.phase = .wait ∧ s.reader.done = false) ∧
    ((∃ t, exec .tickRx s = .next t) ↔ s.blockStatus = .running ∧ s.rx.phase = .sleep) ∧
    (∀ k p, s.port? k = some p →
      ((∃ t, exec (.tickTx k) s = .next t) ↔ s.blockStatus = .running ∧ p.phase = .sleep)) ∧
    ∀ line, (∃ t, exec (parseCommand s.cfg.n line) s = .next t) ↔ s.blockStatus = .running ∧ s.ctrl.phase = .idle

/-- R13, R130, R182, R214, R215: an `Acquire` is taken only while its guard is Free, and an agent that waits for a held guard
has no step, which is no fault. That such an agent, given its turn, only loses it and nothing but the agenda changes is the
model's choice (log 3). -/
def Obligations.AcquireWaitsForAFreeGuard : Prop :=
  ∀ (s t : State),
    (exec .readArm s = .next t → s.guardFree .rx = true ∧ s.reader.lock = .free) ∧
    (∀ k h, exec (.txAcquire k h) s = .next t → s.guardFree (.ring k h) = true) ∧
    (∀ g, exec (.ctrlDumpAcq g) s = .next t → s.guardFree g = true) ∧
    (∀ j lens, exec (.ctrlStatsSlot j lens) s = .next t → s.guardFree (statsSlot j) = true) ∧
    ∀ rest,
      (s.agenda = .agent .rx :: rest → s.rx.phase = .start → s.rx.enabled = true → s.guardFree .rx = false →
        step s = .next { s with agenda := rest }) ∧
      (∀ k h p, s.agenda = .agent (.tx k) :: rest → s.port? k = some p → p.phase = .acquire h →
        s.guardFree (.ring k h) = false → step s = .next { s with agenda := rest }) ∧
      (∀ g, s.agenda = .agent .ctrl :: rest → s.ctrl.phase = .dump g → s.guardFree g = false →
        step s = .next { s with agenda := rest }) ∧
      ∀ j lens, s.agenda = .agent .ctrl :: rest → s.ctrl.phase = .stats j lens → s.guardFree (statsSlot j) = false →
        step s = .next { s with agenda := rest }

/-- R66(a): a ring slot's data or length changes only in RX_COPY, which holds its guard as RX, or in TX_ABORT or TX_DONE,
which hold it as TX(k). -/
def Obligations.RingSlotsChangeOnlyUnderTheirGuard : Prop :=
  ∀ (i : Instr) (s t : State) (k : Nat) (h : RingIdx) (a b : Slot), exec i s = .next t →
    s.slot? (.ring k h) = some a → t.slot? (.ring k h) = some b → (b.data ≠ a.data ∨ b.length ≠ a.length) →
    (i = .rxCopy k h ∧ a.guard = .held .rx) ∨
    (((∃ j len, i = .txAbort k h j len) ∨ ∃ len, i = .txDone k h len) ∧ b.data = a.data ∧ a.guard = .held (.tx k))

/-- R66(b): in a state of the invariant the receiver slot's data changes only in a BYTE row while RX holds its guard and
`rd_lock`, and its length only in READ_COMPLETE or TIMEOUT while RX holds its guard. -/
def Obligations.ReceiverSlotChangesOnlyInARead : Prop :=
  ∀ (i : Instr) (s t : State), BlockInv s → exec i s = .next t →
    (t.rx.slot.data ≠ s.rx.slot.data →
      isByteRow i = true ∧ s.rx.slot.guard = .held .rx ∧ s.reader.lock = .held .rx) ∧
    (t.rx.slot.length ≠ s.rx.slot.length →
      (i = .readComplete ∨ i = .timeout) ∧ s.rx.slot.guard = .held .rx)

/-- R28, R30 to R32, R34, R35, R37: each counter, the head, the level, the outbound link and each `enabled` flag and interval,
of the receiver port and of every sender port, differs only in the rows that write it. The recorded pin is log 8. -/
def Obligations.FieldsHaveOneWriter : Prop :=
  ∀ (i : Instr) (s t : State), exec i s = .next t →
    (t.rx.cntFailedTimeout ≠ s.rx.cntFailedTimeout → i = .timeout) ∧
    ((t.rx.cntRead ≠ s.rx.cntRead ∨ t.rx.cntFailedChecksum ≠ s.rx.cntFailedChecksum ∨
      t.rx.cntFailedOther ≠ s.rx.cntFailedOther) → i = .readComplete) ∧
    (t.rx.enabled ≠ s.rx.enabled → i = .cmdEnable 0 ∨ i = .cmdDisable 0) ∧
    (t.rx.interval ≠ s.rx.interval → ∃ ms, i = .cmdInterval 0 ms) ∧
    ∀ k p q, s.port? k = some p → t.port? k = some q →
      ((q.copied ≠ p.copied ∨ q.head ≠ p.head) → ∃ h, i = .rxAdvance k h) ∧
      ((q.requested ≠ p.requested ∨ q.flowLevel ≠ p.flowLevel ∨ q.flowIn ≠ p.flowIn) → ∃ v, i = .flowEdge k v) ∧
      (q.aborted ≠ p.aborted → ∃ h j len, i = .txAbort k h j len) ∧
      (q.written ≠ p.written → ∃ h len, i = .txDone k h len) ∧
      (q.out ≠ p.out → ∃ h j len, i = .txByte k h j len) ∧
      (q.enabled ≠ p.enabled → i = .cmdEnable k ∨ i = .cmdDisable k) ∧
      (q.interval ≠ p.interval → ∃ ms, i = .cmdInterval k ms)

/-- R60, R66: every byte of every buffer space reads as before, but for the byte a BYTE row stores at `byteOffset` of RX,
and the first `rx_n` bytes of the slot RX_COPY writes. -/
def Obligations.BytesChangeOnlyWhereStored : Prop :=
  ∀ (i : Instr) (s t : State) (g : SlotRef) (off : Nat), exec i s = .next t → t.memRead g off ≠ s.memRead g off →
    (isByteRow i = true ∧ g = .rx ∧ off = byteOffset s) ∨
    (∃ k h, i = .rxCopy k h ∧ g = .ring k h ∧ off < s.rx.n)

/-- R285: per port, telegrams written and aborted are never more than telegrams copied, counting without wrap: the ledger
holds at reset, every step that does not wrap `copied` keeps it, and it gives the bound. -/
def Obligations.EndedTelegramsNeverExceedDelivered : Prop :=
  (∀ (c : Config) (pins : List Level) (k : Nat) (p : Port), (State.resetOf c pins).port? k = some p →
    LedgerOk (State.resetOf c pins) k p) ∧
  (∀ (s t : State) (k : Nat) (p q : Port), BlockInv s → s.port? k = some p → LedgerOk s k p → p.copied ≠ 0xFFFFFFFF →
    step s = .next t → t.port? k = some q → LedgerOk t k q) ∧
  (∀ (s : State) (k : Nat) (p : Port), BlockInv s → s.port? k = some p → LedgerOk s k p →
    p.written.toNat + p.aborted.toNat ≤ p.copied.toNat)
end

