-- ==== Sys2Proof/Laws/State.lean ====
section
/-! SUPPORT. What each update of State does to each field, and what the ports, slots and rings read after a write. -/

namespace Sys2Proof.Machine

/-! ### setReader -/
@[simp] theorem setReader_cfg (s : State) (r : Reader) : (s.setReader r).cfg = s.cfg := rfl
@[simp] theorem setReader_blockStatus (s : State) (r : Reader) : (s.setReader r).blockStatus = s.blockStatus := rfl
@[simp] theorem setReader_reader (s : State) (r : Reader) : (s.setReader r).reader = r := rfl
@[simp] theorem setReader_rx (s : State) (r : Reader) : (s.setReader r).rx = s.rx := rfl
@[simp] theorem setReader_ports (s : State) (r : Reader) : (s.setReader r).ports = s.ports := rfl
@[simp] theorem setReader_ctrl (s : State) (r : Reader) : (s.setReader r).ctrl = s.ctrl := rfl
@[simp] theorem setReader_agenda (s : State) (r : Reader) : (s.setReader r).agenda = s.agenda := rfl

/-! ### setRx -/
@[simp] theorem setRx_cfg (s : State) (r : Receiver) : (s.setRx r).cfg = s.cfg := rfl
@[simp] theorem setRx_blockStatus (s : State) (r : Receiver) : (s.setRx r).blockStatus = s.blockStatus := rfl
@[simp] theorem setRx_reader (s : State) (r : Receiver) : (s.setRx r).reader = s.reader := rfl
@[simp] theorem setRx_rx (s : State) (r : Receiver) : (s.setRx r).rx = r := rfl
@[simp] theorem setRx_ports (s : State) (r : Receiver) : (s.setRx r).ports = s.ports := rfl
@[simp] theorem setRx_ctrl (s : State) (r : Receiver) : (s.setRx r).ctrl = s.ctrl := rfl
@[simp] theorem setRx_agenda (s : State) (r : Receiver) : (s.setRx r).agenda = s.agenda := rfl

/-! ### setRxPhase -/
@[simp] theorem setRxPhase_cfg (s : State) (p : RxPhase) : (s.setRxPhase p).cfg = s.cfg := rfl
@[simp] theorem setRxPhase_blockStatus (s : State) (p : RxPhase) : (s.setRxPhase p).blockStatus = s.blockStatus := rfl
@[simp] theorem setRxPhase_reader (s : State) (p : RxPhase) : (s.setRxPhase p).reader = s.reader := rfl
@[simp] theorem setRxPhase_rx (s : State) (p : RxPhase) : (s.setRxPhase p).rx = { s.rx with phase := p } := rfl
@[simp] theorem setRxPhase_ports (s : State) (p : RxPhase) : (s.setRxPhase p).ports = s.ports := rfl
@[simp] theorem setRxPhase_ctrl (s : State) (p : RxPhase) : (s.setRxPhase p).ctrl = s.ctrl := rfl
@[simp] theorem setRxPhase_agenda (s : State) (p : RxPhase) : (s.setRxPhase p).agenda = s.agenda := rfl

/-! ### setCtrl -/
@[simp] theorem setCtrl_cfg (s : State) (c : Ctrl) : (s.setCtrl c).cfg = s.cfg := rfl
@[simp] theorem setCtrl_blockStatus (s : State) (c : Ctrl) : (s.setCtrl c).blockStatus = s.blockStatus := rfl
@[simp] theorem setCtrl_reader (s : State) (c : Ctrl) : (s.setCtrl c).reader = s.reader := rfl
@[simp] theorem setCtrl_rx (s : State) (c : Ctrl) : (s.setCtrl c).rx = s.rx := rfl
@[simp] theorem setCtrl_ports (s : State) (c : Ctrl) : (s.setCtrl c).ports = s.ports := rfl
@[simp] theorem setCtrl_ctrl (s : State) (c : Ctrl) : (s.setCtrl c).ctrl = c := rfl
@[simp] theorem setCtrl_agenda (s : State) (c : Ctrl) : (s.setCtrl c).agenda = s.agenda := rfl

/-! ### setCtrlPhase and respond -/
@[simp] theorem setCtrlPhase_cfg (s : State) (p : CtrlPhase) : (s.setCtrlPhase p).cfg = s.cfg := rfl
@[simp] theorem setCtrlPhase_blockStatus (s : State) (p : CtrlPhase) : (s.setCtrlPhase p).blockStatus = s.blockStatus := rfl
@[simp] theorem setCtrlPhase_reader (s : State) (p : CtrlPhase) : (s.setCtrlPhase p).reader = s.reader := rfl
@[simp] theorem setCtrlPhase_rx (s : State) (p : CtrlPhase) : (s.setCtrlPhase p).rx = s.rx := rfl
@[simp] theorem setCtrlPhase_ports (s : State) (p : CtrlPhase) : (s.setCtrlPhase p).ports = s.ports := rfl
@[simp] theorem setCtrlPhase_ctrl (s : State) (p : CtrlPhase) : (s.setCtrlPhase p).ctrl = { s.ctrl with phase := p } := rfl
@[simp] theorem setCtrlPhase_agenda (s : State) (p : CtrlPhase) : (s.setCtrlPhase p).agenda = s.agenda := rfl
@[simp] theorem respond_cfg (s : State) (r : Resp) : (s.respond r).cfg = s.cfg := rfl
@[simp] theorem respond_blockStatus (s : State) (r : Resp) : (s.respond r).blockStatus = s.blockStatus := rfl
@[simp] theorem respond_reader (s : State) (r : Resp) : (s.respond r).reader = s.reader := rfl
@[simp] theorem respond_rx (s : State) (r : Resp) : (s.respond r).rx = s.rx := rfl
@[simp] theorem respond_ports (s : State) (r : Resp) : (s.respond r).ports = s.ports := rfl
@[simp] theorem respond_ctrl (s : State) (r : Resp) : (s.respond r).ctrl = { s.ctrl with resp := s.ctrl.resp ++ [r] } := rfl
@[simp] theorem respond_agenda (s : State) (r : Resp) : (s.respond r).agenda = s.agenda := rfl

/-! ### setAgenda -/
@[simp] theorem setAgenda_cfg (s : State) (a : List Item) : (s.setAgenda a).cfg = s.cfg := rfl
@[simp] theorem setAgenda_blockStatus (s : State) (a : List Item) : (s.setAgenda a).blockStatus = s.blockStatus := rfl
@[simp] theorem setAgenda_reader (s : State) (a : List Item) : (s.setAgenda a).reader = s.reader := rfl
@[simp] theorem setAgenda_rx (s : State) (a : List Item) : (s.setAgenda a).rx = s.rx := rfl
@[simp] theorem setAgenda_ports (s : State) (a : List Item) : (s.setAgenda a).ports = s.ports := rfl
@[simp] theorem setAgenda_ctrl (s : State) (a : List Item) : (s.setAgenda a).ctrl = s.ctrl := rfl
@[simp] theorem setAgenda_agenda (s : State) (a : List Item) : (s.setAgenda a).agenda = a := rfl

/-! ### setPort -/
@[simp] theorem setPort_cfg (s : State) (k : Nat) (p : Port) : (s.setPort k p).cfg = s.cfg := by cases k <;> rfl
@[simp] theorem setPort_blockStatus (s : State) (k : Nat) (p : Port) : (s.setPort k p).blockStatus = s.blockStatus := by
  cases k <;> rfl
@[simp] theorem setPort_reader (s : State) (k : Nat) (p : Port) : (s.setPort k p).reader = s.reader := by cases k <;> rfl
@[simp] theorem setPort_rx (s : State) (k : Nat) (p : Port) : (s.setPort k p).rx = s.rx := by cases k <;> rfl
@[simp] theorem setPort_ctrl (s : State) (k : Nat) (p : Port) : (s.setPort k p).ctrl = s.ctrl := by cases k <;> rfl
@[simp] theorem setPort_agenda (s : State) (k : Nat) (p : Port) : (s.setPort k p).agenda = s.agenda := by cases k <;> rfl
@[simp] theorem setPort_ports_length (s : State) (k : Nat) (p : Port) : (s.setPort k p).ports.length = s.ports.length := by
  cases k <;> simp [State.setPort]

/-! ### port? after each update -/
@[simp] theorem port?_setReader (s : State) (r : Reader) (k : Nat) : (s.setReader r).port? k = s.port? k := by
  cases k <;> rfl
@[simp] theorem port?_setRx (s : State) (r : Receiver) (k : Nat) : (s.setRx r).port? k = s.port? k := by cases k <;> rfl
@[simp] theorem port?_setRxPhase (s : State) (p : RxPhase) (k : Nat) : (s.setRxPhase p).port? k = s.port? k := by
  cases k <;> rfl
@[simp] theorem port?_setCtrl (s : State) (c : Ctrl) (k : Nat) : (s.setCtrl c).port? k = s.port? k := by cases k <;> rfl
@[simp] theorem port?_setCtrlPhase (s : State) (p : CtrlPhase) (k : Nat) : (s.setCtrlPhase p).port? k = s.port? k := by
  cases k <;> rfl
@[simp] theorem port?_respond (s : State) (r : Resp) (k : Nat) : (s.respond r).port? k = s.port? k := by cases k <;> rfl
@[simp] theorem port?_setAgenda (s : State) (a : List Item) (k : Nat) : (s.setAgenda a).port? k = s.port? k := by
  cases k <;> rfl

/-- A port that exists is a sender port 1..N of the list. -/
theorem port?_some_bounds {s : State} {k : Nat} {p : Port} (h : s.port? k = some p) : 1 ≤ k ∧ k ≤ s.ports.length := by
  cases k with
  | zero => simp [State.port?] at h
  | succ k =>
    simp only [State.port?] at h
    have := (List.getElem?_eq_some_iff.mp h).1
    omega

/-- Every sender port 1..N of the list exists. -/
theorem port?_exists {s : State} {k : Nat} (h1 : 1 ≤ k) (h2 : k ≤ s.ports.length) : ∃ p, s.port? k = some p := by
  cases k with
  | zero => omega
  | succ k => exact ⟨s.ports[k], List.getElem?_eq_getElem (by omega)⟩

/-- The written port reads as written. -/
theorem port?_setPort_self {s : State} {k : Nat} {p : Port} (q : Port) (h : s.port? k = some p) :
    (s.setPort k q).port? k = some q := by
  have hb := port?_some_bounds h
  cases k with
  | zero => omega
  | succ k => simp only [State.port?, State.setPort]; rw [List.getElem?_set_self (by omega)]

/-- Every other port reads as before. -/
theorem port?_setPort_ne {s : State} {k j : Nat} (q : Port) (h : j ≠ k) : (s.setPort k q).port? j = s.port? j := by
  cases k with
  | zero => rfl
  | succ k =>
    cases j with
    | zero => rfl
    | succ j => simp only [State.port?, State.setPort]; rw [List.getElem?_set_ne (by omega)]

/-- Writing a port twice is writing it once. -/
theorem setPort_setPort (s : State) (k : Nat) (p q : Port) : (s.setPort k p).setPort k q = s.setPort k q := by
  cases k with
  | zero => rfl
  | succ k => simp [State.setPort]

/-! ### Rings -/
@[simp] theorem ring_get_set_self (r : Ring) (i : RingIdx) (sl : Slot) : (r.set i sl).get i = sl := by
  match i with
  | 0 => rfl
  | 1 => rfl
  | 2 => rfl

theorem ring_get_set_ne (r : Ring) {i j : RingIdx} (sl : Slot) (h : j ≠ i) : (r.set i sl).get j = r.get j := by
  match i, j with
  | 0, 0 => exact absurd rfl h
  | 0, 1 => rfl
  | 0, 2 => rfl
  | 1, 0 => rfl
  | 1, 1 => exact absurd rfl h
  | 1, 2 => rfl
  | 2, 0 => rfl
  | 2, 1 => rfl
  | 2, 2 => exact absurd rfl h

@[simp] theorem ring_set_set (r : Ring) (i : RingIdx) (a b : Slot) : (r.set i a).set i b = r.set i b := by
  match i with
  | 0 => rfl
  | 1 => rfl
  | 2 => rfl

/-! ### Slots -/
@[simp] theorem slot?_rx (s : State) : s.slot? .rx = some s.rx.slot := rfl

theorem slot?_ring {s : State} {k : Nat} {p : Port} (i : RingIdx) (h : s.port? k = some p) :
    s.slot? (.ring k i) = some (p.ring.get i) := by simp [State.slot?, h]

theorem setSlot_ring {s : State} {k : Nat} {p : Port} (i : RingIdx) (sl : Slot) (h : s.port? k = some p) :
    s.setSlot (.ring k i) sl = s.setPort k { p with ring := p.ring.set i sl } := by simp [State.setSlot, h]

/-- A slot of a ring exists exactly when its port does. -/
theorem slot?_ring_eq_some {s : State} {k : Nat} {i : RingIdx} {sl : Slot} :
    s.slot? (.ring k i) = some sl ↔ ∃ p, s.port? k = some p ∧ p.ring.get i = sl := by
  simp [State.slot?]

@[simp] theorem slot?_setReader (s : State) (r : Reader) (g : SlotRef) : (s.setReader r).slot? g = s.slot? g := by
  cases g <;> simp [State.slot?]

@[simp] theorem slot?_setCtrl (s : State) (c : Ctrl) (g : SlotRef) : (s.setCtrl c).slot? g = s.slot? g := by
  cases g <;> simp [State.slot?]

@[simp] theorem slot?_setCtrlPhase (s : State) (p : CtrlPhase) (g : SlotRef) : (s.setCtrlPhase p).slot? g = s.slot? g := by
  cases g <;> simp [State.slot?]

@[simp] theorem slot?_respond (s : State) (r : Resp) (g : SlotRef) : (s.respond r).slot? g = s.slot? g := by
  cases g <;> simp [State.slot?]

@[simp] theorem slot?_setRxPhase (s : State) (p : RxPhase) (g : SlotRef) : (s.setRxPhase p).slot? g = s.slot? g := by
  cases g <;> simp [State.slot?]

@[simp] theorem slot?_setAgenda (s : State) (a : List Item) (g : SlotRef) : (s.setAgenda a).slot? g = s.slot? g := by
  cases g <;> simp [State.slot?]

/-! ### setSlot -/
@[simp] theorem setSlot_cfg (s : State) (g : SlotRef) (sl : Slot) : (s.setSlot g sl).cfg = s.cfg := by
  unfold State.setSlot
  split
  · rfl
  · split <;> simp

@[simp] theorem setSlot_blockStatus (s : State) (g : SlotRef) (sl : Slot) :
    (s.setSlot g sl).blockStatus = s.blockStatus := by
  unfold State.setSlot
  split
  · rfl
  · split <;> simp

@[simp] theorem setSlot_reader (s : State) (g : SlotRef) (sl : Slot) : (s.setSlot g sl).reader = s.reader := by
  unfold State.setSlot
  split
  · rfl
  · split <;> simp

@[simp] theorem setSlot_ctrl (s : State) (g : SlotRef) (sl : Slot) : (s.setSlot g sl).ctrl = s.ctrl := by
  unfold State.setSlot
  split
  · rfl
  · split <;> simp

@[simp] theorem setSlot_rx_enabled (s : State) (g : SlotRef) (sl : Slot) : (s.setSlot g sl).rx.enabled = s.rx.enabled := by
  unfold State.setSlot
  split
  · rfl
  · split <;> simp

@[simp] theorem setSlot_rx_interval (s : State) (g : SlotRef) (sl : Slot) :
    (s.setSlot g sl).rx.interval = s.rx.interval := by
  unfold State.setSlot
  split
  · rfl
  · split <;> simp

@[simp] theorem setSlot_agenda (s : State) (g : SlotRef) (sl : Slot) : (s.setSlot g sl).agenda = s.agenda := by
  unfold State.setSlot
  split
  · rfl
  · split <;> simp

@[simp] theorem setSlot_ports_length (s : State) (g : SlotRef) (sl : Slot) :
    (s.setSlot g sl).ports.length = s.ports.length := by
  unfold State.setSlot
  split
  · rfl
  · split <;> simp

/-- The written slot reads as written. -/
theorem slot?_setSlot_self {s : State} {g : SlotRef} {old : Slot} (new : Slot) (h : s.slot? g = some old) :
    (s.setSlot g new).slot? g = some new := by
  cases g with
  | rx => rfl
  | ring k i =>
    obtain ⟨p, hp, -⟩ := slot?_ring_eq_some.mp h
    rw [setSlot_ring i new hp, slot?_ring i (port?_setPort_self _ hp)]
    simp

/-- Every other slot reads as before. -/
theorem slot?_setSlot_ne {s : State} {g g' : SlotRef} (new : Slot) (h : g' ≠ g) :
    (s.setSlot g new).slot? g' = s.slot? g' := by
  cases g with
  | rx =>
    cases g' with
    | rx => exact absurd rfl h
    | ring k i => simp [State.setSlot, State.slot?]
  | ring k i =>
    cases hp : s.port? k with
    | none => simp [State.setSlot, hp]
    | some p =>
      rw [setSlot_ring i new hp]
      cases g' with
      | rx => simp [State.slot?]
      | ring k' i' =>
        by_cases hk : k' = k
        · subst hk
          have hi : i' ≠ i := fun hi => h (by rw [hi])
          rw [slot?_ring i' (port?_setPort_self _ hp), slot?_ring i' hp]
          simp [ring_get_set_ne _ _ hi]
        · simp [State.slot?, port?_setPort_ne _ hk]

/-- The next ring index is another one (R154). -/
theorem nextIdx_ne (i : RingIdx) : nextIdx i ≠ i := by
  match i with
  | 0 => decide
  | 1 => decide
  | 2 => decide

end Sys2Proof.Machine
end

