-- ==== Sys2Proof/Laws/Memory.lean ====
section
/-! SUPPORT. Read after write, the canonical form and the bounds of a buffer space, and what a range read or a range copy
answers. -/

namespace Sys2Proof.Machine

/-- Read after write at the same offset. -/
theorem lookup_insert_self (m : Memory) (a : Nat) (v : Byte) : Memory.lookup (Memory.insert m a v) a = some v := by
  induction m with
  | nil => simp [Memory.insert, Memory.lookup]
  | cons c m ih =>
    simp only [Memory.insert]
    split
    · simp [Memory.lookup]
    · split
      · simp [Memory.lookup]
      · rename_i h
        simp [Memory.lookup, Ne.symm h, ih]

/-- A write leaves every other offset alone. -/
theorem lookup_insert_ne (m : Memory) {a b : Nat} (v : Byte) (h : b ≠ a) :
    Memory.lookup (Memory.insert m a v) b = Memory.lookup m b := by
  induction m with
  | nil => simp [Memory.insert, Memory.lookup, Ne.symm h]
  | cons c m ih =>
    simp only [Memory.insert]
    split
    · simp [Memory.lookup, Ne.symm h]
    · split
      · rename_i h2
        simp [Memory.lookup, Ne.symm h, h2 ▸ Ne.symm h]
      · simp [Memory.lookup, ih]

/-- A weaker lower bound. -/
theorem wfFrom_mono {m : Memory} {lo lo' : Nat} (h : lo ≤ lo') (hw : Memory.wfFrom lo' m = true) :
    Memory.wfFrom lo m = true := by
  cases m with
  | nil => rfl
  | cons c m =>
    simp only [Memory.wfFrom, Bool.and_eq_true, decide_eq_true_eq] at hw ⊢
    exact ⟨by omega, hw.2⟩

theorem wfFrom_insert {m : Memory} {lo a : Nat} (v : Byte) (h : lo ≤ a) (hw : Memory.wfFrom lo m = true) :
    Memory.wfFrom lo (Memory.insert m a v) = true := by
  induction m generalizing lo with
  | nil => simp [Memory.insert, Memory.wfFrom, h]
  | cons c m ih =>
    simp only [Memory.wfFrom, Bool.and_eq_true, decide_eq_true_eq] at hw
    simp only [Memory.insert]
    split
    · rename_i hac
      simp only [Memory.wfFrom, Bool.and_eq_true, decide_eq_true_eq]
      exact ⟨h, by omega, hw.2⟩
    · split
      · rename_i heq
        simp only [Memory.wfFrom, Bool.and_eq_true, decide_eq_true_eq]
        exact ⟨h, heq ▸ hw.2⟩
      · simp only [Memory.wfFrom, Bool.and_eq_true, decide_eq_true_eq]
        exact ⟨hw.1, ih (by omega) hw.2⟩

/-- A write keeps the canonical form. -/
theorem wf_insert {m : Memory} (a : Nat) (v : Byte) (hw : Memory.wf m = true) : Memory.wf (Memory.insert m a v) = true :=
  wfFrom_insert v (Nat.zero_le a) hw

/-- A write inside the space keeps the listed offsets inside it. -/
theorem bounded_insert {m : Memory} {cap a : Nat} (v : Byte) (ha : a < cap) (hb : ∀ c ∈ m, c.1 < cap) :
    ∀ c ∈ Memory.insert m a v, c.1 < cap := by
  induction m with
  | nil => simpa [Memory.insert] using ha
  | cons d m ih =>
    have hm : ∀ c ∈ m, c.1 < cap := fun c hc => hb c (List.mem_cons_of_mem _ hc)
    have hd : d.1 < cap := hb d List.mem_cons_self
    intro c hc
    simp only [Memory.insert] at hc
    split at hc
    · rcases List.mem_cons.mp hc with rfl | hc
      · exact ha
      · exact hb c hc
    · split at hc
      · rcases List.mem_cons.mp hc with rfl | hc
        · exact ha
        · exact hm c hc
      · rcases List.mem_cons.mp hc with rfl | hc
        · exact hd
        · exact ih hm c hc

/-- A write keeps every written offset written. -/
theorem listed_insert {m : Memory} {len : Nat} (a : Nat) (v : Byte) (h : Listed m len) : Listed (Memory.insert m a v) len := by
  intro i hi
  by_cases hia : i = a
  · subst hia; simp [lookup_insert_self]
  · rw [lookup_insert_ne m v hia]; exact h i hi

/-- A write just past the written offsets extends them. -/
theorem listed_insert_succ {m : Memory} {len : Nat} (v : Byte) (h : Listed m len) :
    Listed (Memory.insert m len v) (len + 1) := by
  intro i hi
  by_cases hia : i = len
  · subst hia; simp [lookup_insert_self]
  · rw [lookup_insert_ne m v hia]; exact h i (by omega)

theorem listed_mono {m : Memory} {a b : Nat} (hab : a ≤ b) (h : Listed m b) : Listed m a := fun i hi => h i (by omega)

/-- Two canonical memories that read the same are the same list. -/
theorem eq_of_lookup_eq {lo lo' : Nat} {m m' : Memory} (hw : Memory.wfFrom lo m = true) (hw' : Memory.wfFrom lo' m' = true)
    (h : ∀ a, Memory.lookup m a = Memory.lookup m' a) : m = m' := by
  have below : ∀ {lo : Nat} {m : Memory} {a : Nat}, Memory.wfFrom lo m = true → a < lo → Memory.lookup m a = none := by
    intro lo m
    induction m generalizing lo with
    | nil => intros; rfl
    | cons c m ih =>
      intro a hw ha
      simp only [Memory.wfFrom, Bool.and_eq_true, decide_eq_true_eq] at hw
      have hne : c.1 ≠ a := by omega
      simp only [Memory.lookup, hne, if_false]
      exact ih hw.2 (by omega)
  induction m generalizing lo lo' m' with
  | nil =>
    cases m' with
    | nil => rfl
    | cons c m' => have := h c.1; simp [Memory.lookup] at this
  | cons c m ih =>
    cases m' with
    | nil => have := h c.1; simp [Memory.lookup] at this
    | cons d m' =>
      simp only [Memory.wfFrom, Bool.and_eq_true, decide_eq_true_eq] at hw hw'
      have hcd : c.1 = d.1 := by
        have hc := h c.1
        have hd := h d.1
        simp only [Memory.lookup, if_true] at hc hd
        rcases Nat.lt_trichotomy c.1 d.1 with hlt | heq | hgt
        · rw [if_neg (by omega), below hw'.2 (by omega)] at hc; simp at hc
        · exact heq
        · rw [if_neg (by omega), below hw.2 (by omega)] at hd; simp at hd
      have hv : c.2 = d.2 := by
        have hc := h c.1
        simpa [Memory.lookup, hcd] using hc
      have hrest : m = m' := by
        refine ih hw.2 hw'.2 fun a => ?_
        by_cases ha : a = c.1
        · rw [below hw.2 (by omega), below hw'.2 (by omega)]
        · have := h a
          simpa [Memory.lookup, Ne.symm ha, hcd ▸ Ne.symm ha] using this
      rw [hrest, show c = d from Prod.ext hcd hv]

/-- MemRead answers exactly a byte that lies in the space and has been written. -/
theorem memRead_eq_ok {cap : Nat} {m : Memory} {off : Nat} {b : Byte} :
    memRead cap m off = .ok b ↔ off < cap ∧ Memory.lookup m off = some b := by
  unfold memRead
  split
  · cases h : Memory.lookup m off <;> simp_all
  · simp_all

/-- MemWrite answers exactly inside the space. -/
theorem memWrite_eq_ok {cap : Nat} {m m' : Memory} {off : Nat} {v : Byte} :
    memWrite cap m off v = .ok m' ↔ off < cap ∧ m' = Memory.insert m off v := by
  unfold memWrite
  split <;> simp_all [eq_comm]

/-- A range read answers exactly the written bytes in order. -/
theorem readRange_eq_ok {cap : Nat} {m : Memory} {len : Nat} {bs : List Byte} :
    readRange cap m len = .ok bs ↔
      bs.length = len ∧ ∀ i < len, i < cap ∧ Memory.lookup m i = bs[i]? := by
  induction len generalizing bs with
  | zero =>
    simp only [readRange, Except.ok.injEq]
    exact ⟨fun h => by subst h; simp, fun h => (List.length_eq_zero_iff.mp h.1).symm⟩
  | succ len ih =>
    simp only [readRange]
    constructor
    · intro h
      cases hf : readRange cap m len with
      | error e => rw [hf] at h; simp [bind, Except.bind] at h
      | ok front =>
        cases hb : memRead cap m len with
        | error e => rw [hf, hb] at h; simp [bind, Except.bind] at h
        | ok b =>
          rw [hf, hb] at h
          simp only [bind, Except.bind, pure, Except.pure, Except.ok.injEq] at h
          subst h
          obtain ⟨hl, hi⟩ := ih.mp hf
          obtain ⟨hc, hb⟩ := memRead_eq_ok.mp hb
          refine ⟨by simp [hl], fun i hlt => ?_⟩
          by_cases hil : i = len
          · subst hil
            refine ⟨hc, ?_⟩
            rw [hb, List.getElem?_append_right (by omega)]
            simp [hl]
          · have := hi i (by omega)
            rw [List.getElem?_append_left (by omega)]
            exact this
    · rintro ⟨hl, hi⟩
      have hne : bs ≠ [] := by intro h; subst h; simp at hl
      have hsplit := List.dropLast_append_getLast hne
      have hlast : bs[len]? = some (bs.getLast hne) := by
        rw [List.getLast_eq_getElem, List.getElem?_eq_getElem (by omega)]; simp [hl]
      have hf : readRange cap m len = .ok bs.dropLast := by
        refine ih.mpr ⟨by simp [hl], fun i hlt => ?_⟩
        have := hi i (by omega)
        rw [List.getElem?_dropLast, if_pos (by omega)]
        exact this
      have hb : memRead cap m len = .ok (bs.getLast hne) :=
        memRead_eq_ok.mpr ⟨(hi len (by omega)).1, by rw [(hi len (by omega)).2, hlast]⟩
      rw [hf, hb]
      simp [bind, Except.bind, pure, Except.pure, hsplit]

/-- A range read of written bytes inside the space answers. -/
theorem readRange_answers {cap : Nat} {m : Memory} {len : Nat} (hc : len ≤ cap) (h : Listed m len) :
    ∃ bs, readRange cap m len = .ok bs := by
  induction len with
  | zero => exact ⟨[], rfl⟩
  | succ len ih =>
    obtain ⟨bs, hbs⟩ := ih (by omega) (listed_mono (by omega) h)
    obtain ⟨b, hb⟩ := Option.isSome_iff_exists.mp (h len (by omega))
    refine ⟨bs ++ [b], ?_⟩
    have hr : memRead cap m len = .ok b := memRead_eq_ok.mpr ⟨by omega, hb⟩
    simp only [readRange, hbs, hr]
    rfl

/-- What a range copy answers: the first `len` bytes are the source's, every other offset is the target's. -/
theorem copyRange_spec {cap : Nat} {src dst m : Memory} {len : Nat} (h : copyRange cap src dst len = .ok m) :
    (∀ i < len, i < cap ∧ Memory.lookup m i = Memory.lookup src i ∧ (Memory.lookup src i).isSome = true) ∧
      (∀ i, len ≤ i → Memory.lookup m i = Memory.lookup dst i) ∧
      (Memory.wf dst = true → Memory.wf m = true) ∧
      ((∀ c ∈ dst, c.1 < cap) → ∀ c ∈ m, c.1 < cap) ∧
      (∀ n, Listed dst n → Listed m n) := by
  induction len generalizing m with
  | zero =>
    simp only [copyRange, Except.ok.injEq] at h
    subst h
    exact ⟨by intro i hi; omega, fun _ _ => rfl, id, id, fun _ h => h⟩
  | succ len ih =>
    simp only [copyRange] at h
    cases hf : copyRange cap src dst len with
    | error e => rw [hf] at h; simp [bind, Except.bind] at h
    | ok m1 =>
      cases hb : memRead cap src len with
      | error e => rw [hf, hb] at h; simp [bind, Except.bind] at h
      | ok b =>
        rw [hf, hb] at h
        simp only [bind, Except.bind] at h
        obtain ⟨hlt, rfl⟩ := memWrite_eq_ok.mp h
        obtain ⟨-, hlk⟩ := memRead_eq_ok.mp hb
        obtain ⟨h1, h2, h3, h4, h5⟩ := ih hf
        refine ⟨fun i hi => ?_, fun i hi => ?_, fun hw => wf_insert _ _ (h3 hw), fun hbd => bounded_insert _ hlt (h4 hbd),
          fun n hn => listed_insert _ _ (h5 n hn)⟩
        · by_cases hil : i = len
          · subst hil
            rw [lookup_insert_self, hlk]
            exact ⟨hlt, rfl, rfl⟩
          · rw [lookup_insert_ne _ _ hil]
            exact h1 i (by omega)
        · rw [lookup_insert_ne _ _ (by omega)]
          exact h2 i (by omega)

/-- A range copy of written bytes inside the space answers. -/
theorem copyRange_answers {cap : Nat} {src dst : Memory} {len : Nat} (hc : len ≤ cap) (h : Listed src len) :
    ∃ m, copyRange cap src dst len = .ok m := by
  induction len with
  | zero => exact ⟨dst, rfl⟩
  | succ len ih =>
    obtain ⟨m, hm⟩ := ih (by omega) (listed_mono (by omega) h)
    obtain ⟨b, hb⟩ := Option.isSome_iff_exists.mp (h len (by omega))
    refine ⟨Memory.insert m len b, ?_⟩
    have hr : memRead cap src len = .ok b := memRead_eq_ok.mpr ⟨by omega, hb⟩
    have hw : memWrite cap m len b = .ok (Memory.insert m len b) := memWrite_eq_ok.mpr ⟨by omega, rfl⟩
    simp only [copyRange, hm, hr, bind, Except.bind]
    exact hw

/-- A bound on the offsets bounds what is listed. -/
theorem lookup_none_of_bounded {m : Memory} {cap a : Nat} (hb : ∀ c ∈ m, c.1 < cap) (ha : cap ≤ a) :
    Memory.lookup m a = none := by
  induction m with
  | nil => rfl
  | cons c m ih =>
    have := hb c List.mem_cons_self
    simp only [Memory.lookup]
    rw [if_neg (by omega)]
    exact ih fun d hd => hb d (List.mem_cons_of_mem _ hd)

end Sys2Proof.Machine
end

