-- ==== Sys2Proof/Laws/Ops.lean ====
section
/-! SUPPORT. What each shared operation can do, said once: the forms in which a row answers, guards, buffer access on
State, the ends of a read and of a transmission. -/

namespace Sys2Proof.Machine

/-! ### One slot, one phase -/

@[simp] theorem setTxPhase_eq (s : State) (k : Nat) (p : Port) (ph : TxPhase) :
    setTxPhase s k p ph = s.setPort k { p with phase := ph } := rfl

/-- Replacing a slot that exists changes nothing else of the receiver port and the sender ports. -/
theorem setSlot_slotsBut {s : State} {g : SlotRef} {old : Slot} (new : Slot) (h : s.slot? g = some old) :
    SlotsBut s (s.setSlot g new) g new := by
  cases g with
  | rx => exact ⟨rfl, rfl⟩
  | ring k i =>
    obtain ⟨p, hk, -⟩ := slot?_ring_eq_some.mp h
    rw [setSlot_ring i new hk]
    exact ⟨setPort_rx .., p, hk, setPort_ports_length .., port?_setPort_self _ hk, fun j hj => port?_setPort_ne _ hj⟩

/-- `SlotsBut` speaks of the receiver port and the sender ports only. -/
theorem slotsBut_congr {s t u : State} {g : SlotRef} {sl : Slot} (h : SlotsBut s t g sl) (hr : u.rx = t.rx)
    (hp : u.ports = t.ports) : SlotsBut s u g sl := by
  have hk : ∀ k, u.port? k = t.port? k := fun k => by cases k <;> simp [State.port?, hp]
  cases g with
  | rx => exact ⟨hp.trans h.1, hr.trans h.2⟩
  | ring k i =>
    obtain ⟨h1, p, h2, h3, h4, h5⟩ := h
    exact ⟨hr.trans h1, p, h2, by rw [hp, h3], by rw [hk, h4], fun j hj => by rw [hk, h5 j hj]⟩

/-! ### Answers -/

@[simp] theorem answer_eq_next {e : Except Fault State} {t : State} : answer e = .next t ↔ e = .ok t := by
  cases e <;> simp [answer]

@[simp] theorem answer_eq_fault {e : Except Fault State} {f : Fault} : answer e = .fault f ↔ e = .error f := by
  cases e <;> simp [answer]

@[simp] theorem answer_ne_refused {e : Except Fault State} {r : Refusal} : answer e ≠ .refused r := by
  cases e <;> simp [answer]

/-- A row with an enabling condition takes a step exactly when the block runs and the condition holds. -/
theorem whenEnabled_eq_next {s t : State} {en : Bool} {body : Except Fault State} :
    whenEnabled s en body = .next t ↔ s.blockStatus = .running ∧ en = true ∧ body = .ok t := by
  unfold whenEnabled
  cases hs : s.blockStatus <;> cases en <;> simp

theorem whenEnabled_eq_fault {s : State} {en : Bool} {body : Except Fault State} {f : Fault} :
    whenEnabled s en body = .fault f ↔ s.blockStatus = .running ∧ en = true ∧ body = .error f := by
  unfold whenEnabled
  cases hs : s.blockStatus <;> cases en <;> simp

/-- The same for a row of a sender port: the port must exist. -/
theorem whenPortEnabled_eq_next {s t : State} {k : Nat} {en : Port → Bool} {body : Port → Except Fault State} :
    whenPortEnabled s k en body = .next t ↔
      ∃ p, s.port? k = some p ∧ s.blockStatus = .running ∧ en p = true ∧ body p = .ok t := by
  unfold whenPortEnabled
  cases hp : s.port? k with
  | none => cases hs : s.blockStatus <;> simp
  | some p => simp [whenEnabled_eq_next]

theorem whenPortEnabled_eq_fault {s : State} {k : Nat} {en : Port → Bool} {body : Port → Except Fault State} {f : Fault} :
    whenPortEnabled s k en body = .fault f ↔
      ∃ p, s.port? k = some p ∧ s.blockStatus = .running ∧ en p = true ∧ body p = .error f := by
  unfold whenPortEnabled
  cases hp : s.port? k with
  | none => cases hs : s.blockStatus <;> simp
  | some p => simp [whenEnabled_eq_fault]

/-- Peeling a computation that may fault. -/
theorem bind_eq_ok {α β : Type} {x : Except Fault α} {f : α → Except Fault β} {b : β} :
    (x >>= f) = .ok b ↔ ∃ a, x = .ok a ∧ f a = .ok b := by
  cases x <;> simp [bind, Except.bind]

theorem bind_eq_error {α β : Type} {x : Except Fault α} {f : α → Except Fault β} {e : Fault} :
    (x >>= f) = .error e ↔ x = .error e ∨ ∃ a, x = .ok a ∧ f a = .error e := by
  cases x <;> simp [bind, Except.bind]

/-! ### Guards -/

/-- TryAcquire succeeds exactly on a Free guard, and then only takes it (R13, R69). -/
theorem tryAcquire_eq_some {s t : State} {a : Agent} {g : SlotRef} :
    s.tryAcquire a g = some t ↔
      ∃ sl, s.slot? g = some sl ∧ sl.guard = .free ∧ t = s.setSlot g { sl with guard := .held a } := by
  unfold State.tryAcquire
  cases h : s.slot? g with
  | none => simp
  | some sl => by_cases hg : sl.guard = .free <;> simp [hg, eq_comm (b := t)]

theorem tryAcquire_eq_none {s : State} {a : Agent} {g : SlotRef} :
    s.tryAcquire a g = none ↔ ∀ sl, s.slot? g = some sl → sl.guard ≠ .free := by
  unfold State.tryAcquire
  cases h : s.slot? g with
  | none => simp
  | some sl => by_cases hg : sl.guard = .free <;> simp [hg]

/-- Release answers exactly for the holder, and then only frees the guard (R13). -/
theorem release_eq_ok {s t : State} {a : Agent} {g : SlotRef} :
    s.release a g = .ok t ↔
      ∃ sl, s.slot? g = some sl ∧ sl.guard = .held a ∧ t = s.setSlot g { sl with guard := .free } := by
  unfold State.release
  cases h : s.slot? g with
  | none => simp
  | some sl => by_cases hg : sl.guard = .held a <;> simp [hg, eq_comm (b := t)]

theorem guardFree_eq_true {s : State} {g : SlotRef} :
    s.guardFree g = true ↔ ∃ sl, s.slot? g = some sl ∧ sl.guard = .free := by
  unfold State.guardFree
  cases h : s.slot? g <;> simp

theorem holds_eq_true {s : State} {a : Agent} {g : SlotRef} :
    s.holds a g = true ↔ ∃ sl, s.slot? g = some sl ∧ sl.guard = .held a := by
  unfold State.holds
  cases h : s.slot? g <;> simp

/-! ### MemRead and MemWrite on State -/

/-- MemRead depends only on the capacity and the slot. -/
theorem state_memRead_congr {s t : State} {g : SlotRef} (hc : t.cfg = s.cfg) (hg : t.slot? g = s.slot? g) (off : Nat) :
    t.memRead g off = s.memRead g off := by
  unfold State.memRead
  rw [hc, hg]

/-- MemRead depends on the slot only through its data. -/
theorem state_memRead_congr_data {s t : State} {g : SlotRef} {a b : Slot} (hc : t.cfg = s.cfg) (hs : s.slot? g = some a)
    (ht : t.slot? g = some b) (hd : b.data = a.data) (off : Nat) : t.memRead g off = s.memRead g off := by
  unfold State.memRead
  rw [hc, hs, ht]
  simp [hd]

/-- MemWrite answers exactly inside an existing space, and then only inserts the byte. -/
theorem state_memWrite_eq_ok {s t : State} {g : SlotRef} {off : Nat} {v : Byte} :
    s.memWrite g off v = .ok t ↔
      ∃ sl, s.slot? g = some sl ∧ off < s.cfg.bufSize ∧
        t = s.setSlot g { sl with data := Memory.insert sl.data off v } := by
  unfold State.memWrite
  cases h : s.slot? g with
  | none => simp
  | some sl =>
    simp only [bind_eq_ok, memWrite_eq_ok]
    constructor
    · rintro ⟨m, ⟨hlt, rfl⟩, ht⟩
      exact ⟨sl, rfl, hlt, by simpa [pure, Except.pure, eq_comm] using ht⟩
    · rintro ⟨sl', hsl, hlt, rfl⟩
      cases hsl
      exact ⟨_, ⟨hlt, rfl⟩, rfl⟩

/-- MemRead of the receiver's space answers exactly a written byte inside it. -/
theorem state_memRead_eq_ok {s : State} {g : SlotRef} {off : Nat} {b : Byte} :
    s.memRead g off = .ok b ↔ ∃ sl, s.slot? g = some sl ∧ off < s.cfg.bufSize ∧ Memory.lookup sl.data off = some b := by
  unfold State.memRead
  cases h : s.slot? g with
  | none => simp
  | some sl => simp [memRead_eq_ok]

/-! ### The ends of a read and of a transmission -/

theorem readFinish_eq (s : State) :
    readFinish s = { s with reader := { s.reader with
      reqOut := if s.cfg.requestLinePresent then .low else s.reader.reqOut
      state := .idle, done := false, lock := .free } } := by
  unfold readFinish Reader.driveReqOut State.setReader
  split <;> rfl

@[simp] theorem readFinish_rx (s : State) : (readFinish s).rx = s.rx := rfl
@[simp] theorem readFinish_cfg (s : State) : (readFinish s).cfg = s.cfg := rfl
@[simp] theorem readFinish_ports (s : State) : (readFinish s).ports = s.ports := rfl
@[simp] theorem readFinish_ctrl (s : State) : (readFinish s).ctrl = s.ctrl := rfl
@[simp] theorem readFinish_blockStatus (s : State) : (readFinish s).blockStatus = s.blockStatus := rfl
@[simp] theorem readFinish_agenda (s : State) : (readFinish s).agenda = s.agenda := rfl
@[simp] theorem readFinish_port? (s : State) (k : Nat) : (readFinish s).port? k = s.port? k := by cases k <;> rfl

/-- RxAccount of a success answers always. -/
theorem rxAccount_ok (s : State) (n : Nat) :
    rxAccount (.ok n) s = .ok { s with rx := { s.rx with
      cntRead := s.rx.cntRead + 1, slot := { s.rx.slot with length := n }, n := n, phase := .offer 1 } } := rfl

/-- RxAccount of a failure answers exactly while RX holds its slot's guard. -/
theorem rxAccount_failed {s t : State} {res : ReadResult} (hres : ∀ n, res ≠ .ok n) :
    rxAccount res s = .ok t ↔ s.rx.slot.guard = .held .rx ∧
      t = { s with rx := { countResult res s.rx with
        slot := { (countResult res s.rx).slot with guard := .free, length := 0 }, phase := .sleep } } := by
  cases res with
  | ok n => exact absurd rfl (hres n)
  | _ => simp [rxAccount, countResult, bind_eq_ok, release_eq_ok, State.setRx, State.setSlot, State.setRxPhase, pure,
      Except.pure, eq_comm (b := t)]

/-- The end of a transmission answers exactly while TX(k) holds the slot's guard; it empties and frees the slot. -/
theorem endTransmission_eq_ok {s t : State} {k : Nat} {h : RingIdx} {p q : Port} (hq : s.port? k = some q) :
    endTransmission s k h p = .ok t ↔ (p.ring.get h).guard = .held (.tx k) ∧
      t = s.setPort k { p with ring := p.ring.set h { p.ring.get h with guard := .free, length := 0 }, phase := .sleep } := by
  unfold endTransmission
  rw [release_eq_ok]
  have hp := port?_setPort_self
    { p with ring := p.ring.set h { p.ring.get h with length := 0 }, phase := .sleep } hq
  constructor
  · rintro ⟨sl, hsl, hg, rfl⟩
    rw [slot?_ring h hp] at hsl
    simp only [ring_get_set_self, Option.some.injEq] at hsl
    subst hsl
    exact ⟨hg, by rw [setSlot_ring h _ hp, setPort_setPort]; simp⟩
  · rintro ⟨hg, rfl⟩
    refine ⟨_, slot?_ring h hp, by simpa using hg, ?_⟩
    rw [setSlot_ring h _ hp, setPort_setPort]; simp

/-! ### Step -/

/-- An instruction on the agenda is run by `exec` on the state with the rest of the agenda. -/
theorem step_run {s : State} {i : Instr} {rest : List Item} (h : fetch s = .run i rest) :
    step s = exec i (s.setAgenda rest) := by
  simp [step, h]

/-- What a step that answers next did. -/
theorem step_cases {s t : State} (h : step s = .next t) :
    t = s ∨ (∃ rest, t = s.setAgenda rest) ∨ ∃ i rest, fetch s = .run i rest ∧ exec i (s.setAgenda rest) = .next t := by
  unfold step at h
  split at h
  · exact .inl (by simpa using h.symm)
  · exact .inr (.inl ⟨_, by simpa using h.symm⟩)
  · exact .inr (.inr ⟨_, _, by assumption, h⟩)
  · cases h

/-- A step faults only in an instruction. -/
theorem step_fault_cases {s : State} {f : Fault} (h : step s = .fault f) :
    ∃ i rest, fetch s = .run i rest ∧ exec i (s.setAgenda rest) = .fault f := by
  unfold step at h
  split at h
  · cases h
  · cases h
  · exact ⟨_, _, by assumption, h⟩
  · cases h

end Sys2Proof.Machine
end

