-- ==== Sys2Proof/Laws/Effect.lean ====
section
/-! SUPPORT. What a row can do to the state, said once: `Effect s i t` lists every form in which row i answers the next
state t from s, and `exec_effect` says that there is no other. A property of every row is proved by cases on it. -/

namespace Sys2Proof.Machine

/-- A byte appended to the frame answers exactly when there is room (R123, R124). -/
theorem appendByte_eq_ok {s t : State} {b : Byte} :
    appendByte b s = .ok t ↔ s.reader.idx < s.cfg.bufSize ∧
      t = { s with
        reader := { s.reader with idx := s.reader.idx + 1 }
        rx := { s.rx with slot := { s.rx.slot with data := Memory.insert s.rx.slot.data s.reader.idx b } } } := by
  unfold appendByte
  simp only [bind_eq_ok, state_memWrite_eq_ok, slot?_rx]
  constructor
  · rintro ⟨u, ⟨sl, hsl, hlt, rfl⟩, ht⟩
    cases hsl
    cases ht
    exact ⟨hlt, rfl⟩
  · rintro ⟨hlt, rfl⟩
    exact ⟨_, ⟨_, rfl, hlt, rfl⟩, rfl⟩

/-- The forms in which a row answers a next state. -/
inductive Effect (s : State) : Instr → State → Prop where
  | byteIgnored (i : Instr) (hi : isByteRow i = true) : Effect s i s
  | byteNoRoom (i : Instr) (r : Reader) (hi : isByteRow i = true) : Effect s i (s.setReader r)
  | byteStored (i : Instr) (r : Reader) (b : Byte) (hi : isByteRow i = true) (hr : s.blockStatus = .running)
      (hs : s.reader.state = .synchronizing ∨ s.reader.state = .awaitingTerminator ∨
        s.reader.state = .awaitingChecksumLine)
      (hlt : byteOffset s < s.cfg.bufSize) :
      Effect s i { s with
        reader := r
        rx := { s.rx with slot := { s.rx.slot with data := Memory.insert s.rx.slot.data (byteOffset s) b } } }
  | timeout (hw : s.rx.phase = .wait) (hg : s.rx.slot.guard = .held .rx) :
      Effect s .timeout { readFinish s with
        rx := { s.rx with
          cntFailedTimeout := s.rx.cntFailedTimeout + 1
          slot := { s.rx.slot with guard := .free, length := 0 }, phase := .sleep } }
  | readOk (n : Nat) (hw : s.rx.phase = .wait) (hv : verify s = .ok (.ok n)) :
      Effect s .readComplete { readFinish s with
        rx := { s.rx with
          cntRead := s.rx.cntRead + 1, slot := { s.rx.slot with length := n }, n := n, phase := .offer 1 } }
  | readFailed (res : ReadResult) (hw : s.rx.phase = .wait) (hg : s.rx.slot.guard = .held .rx) (hv : verify s = .ok res)
      (hres : res = .checksumError ∨ res = .frameTooLargeError) :
      Effect s .readComplete { readFinish s with
        rx := { countResult res s.rx with slot := { s.rx.slot with guard := .free, length := 0 }, phase := .sleep } }
  | tickRx (hp : s.rx.phase = .sleep) : Effect s .tickRx (s.setRxPhase .start)
  | rxSkip (hp : s.rx.phase = .start) : Effect s .rxSkip (s.setRxPhase .sleep)
  | readArm (r : Reader) (hp : s.rx.phase = .start) :
      Effect s .readArm ((s.setReader r).setRx { s.rx with slot := { s.rx.slot with guard := .held .rx }, phase := .wait })
  | offerSkip (k : Nat) (p : Port) (hk : s.port? k = some p) (hp : s.rx.phase = .offer k) :
      Effect s (.rxOfferSkip k) (s.setRxPhase (.offer (k + 1)))
  | offerBusy (k : Nat) (p : Port) (hk : s.port? k = some p) (hp : s.rx.phase = .offer k)
      (hg : (p.ring.get (nextIdx p.head)).guard ≠ .free) : Effect s (.rxOfferTry k) (s.setRxPhase (.offer (k + 1)))
  | offerTaken (k : Nat) (p : Port) (hk : s.port? k = some p) (hp : s.rx.phase = .offer k)
      (hg : (p.ring.get (nextIdx p.head)).guard = .free) :
      Effect s (.rxOfferTry k)
        ((s.setPort k
          { p with ring := p.ring.set (nextIdx p.head) { p.ring.get (nextIdx p.head) with guard := .held .rx } }).setRxPhase
          (.copy k (nextIdx p.head)))
  | copy (k : Nat) (i : RingIdx) (p : Port) (m : Memory) (hk : s.port? k = some p) (hp : s.rx.phase = .copy k i)
      (hg : (p.ring.get i).guard = .held .rx)
      (hm : copyRange s.cfg.bufSize s.rx.slot.data (p.ring.get i).data s.rx.n = .ok m) :
      Effect s (.rxCopy k i)
        ((s.setPort k { p with ring := p.ring.set i { p.ring.get i with data := m, length := s.rx.n } }).setRxPhase
          (.advance k i))
  | advance (k : Nat) (i : RingIdx) (p : Port) (hk : s.port? k = some p) (hp : s.rx.phase = .advance k i) :
      Effect s (.rxAdvance k i)
        ((s.setPort k { p with head := i, copied := p.copied + 1 }).setRxPhase (.release k i))
  | release (k : Nat) (i : RingIdx) (p : Port) (hk : s.port? k = some p) (hp : s.rx.phase = .release k i)
      (hg : (p.ring.get i).guard = .held .rx) :
      Effect s (.rxRelease k i)
        ((s.setPort k { p with ring := p.ring.set i { p.ring.get i with guard := .free } }).setRxPhase (.offer (k + 1)))
  | rxDone (hp : s.rx.phase = .offer (s.cfg.n + 1)) (hg : s.rx.slot.guard = .held .rx) :
      Effect s .rxDone (s.setRx { s.rx with slot := { s.rx.slot with guard := .free }, phase := .sleep })
  | tickTx (k : Nat) (p : Port) (hk : s.port? k = some p) (hp : p.phase = .sleep) :
      Effect s (.tickTx k) (setTxPhase s k p .sample)
  | txSample (k : Nat) (p : Port) (hk : s.port? k = some p) (hp : p.phase = .sample) :
      Effect s (.txSample k) (setTxPhase s k p (sampleDecision p p.flowLevel p.head))
  | txSampleFlow (k : Nat) (p : Port) (hk : s.port? k = some p) (hp : p.phase = .sample)
      (hc : s.cfg.sampleGranularity = .perField) : Effect s (.txSampleFlow k) (setTxPhase s k p (.sampleH p.flowLevel))
  | txSampleHead (k : Nat) (f : FlowLevel) (p : Port) (hk : s.port? k = some p) (hp : p.phase = .sampleH f) :
      Effect s (.txSampleHead k f) (setTxPhase s k p (.sampleL f p.head))
  | txSampleLen (k : Nat) (f : FlowLevel) (h : RingIdx) (p : Port) (hk : s.port? k = some p)
      (hp : p.phase = .sampleL f h) : Effect s (.txSampleLen k f h) (setTxPhase s k p (sampleDecision p f h))
  | acquireEmpty (k : Nat) (h : RingIdx) (p : Port) (hk : s.port? k = some p) (hp : p.phase = .acquire h)
      (hg : (p.ring.get h).guard = .free) (hl : (p.ring.get h).length = 0) :
      Effect s (.txAcquire k h) (setTxPhase s k p .sleep)
  | acquire (k : Nat) (h : RingIdx) (p : Port) (hk : s.port? k = some p) (hp : p.phase = .acquire h)
      (hg : (p.ring.get h).guard = .free) (hl : (p.ring.get h).length ≠ 0) :
      Effect s (.txAcquire k h) (s.setPort k
        { p with
          ring := p.ring.set h { p.ring.get h with guard := .held (.tx k) }
          phase := .send h 0 (p.ring.get h).length })
  | txByte (k : Nat) (h : RingIdx) (i len : Nat) (p : Port) (b : Byte) (hk : s.port? k = some p)
      (hp : p.phase = .send h i len) (hi : i < len) (hb : s.memRead (.ring k h) i = .ok b) :
      Effect s (.txByte k h i len) (s.setPort k { p with out := p.out ++ [b], phase := .send h (i + 1) len })
  | txAbort (k : Nat) (h : RingIdx) (i len : Nat) (p : Port) (hk : s.port? k = some p) (hp : p.phase = .send h i len)
      (hi : i < len) (hg : (p.ring.get h).guard = .held (.tx k)) :
      Effect s (.txAbort k h i len) (s.setPort k
        { p with
          aborted := p.aborted + 1
          ring := p.ring.set h { p.ring.get h with guard := .free, length := 0 }, phase := .sleep })
  | txDone (k : Nat) (h : RingIdx) (len : Nat) (p : Port) (hk : s.port? k = some p) (hp : p.phase = .send h len len)
      (hg : (p.ring.get h).guard = .held (.tx k)) :
      Effect s (.txDone k h len) (s.setPort k
        { p with
          written := p.written + 1
          ring := p.ring.set h { p.ring.get h with guard := .free, length := 0 }, phase := .sleep })
  | flowEdge (k : Nat) (v : Level) (p : Port) (hk : s.port? k = some p) (hr : s.blockStatus = .running) :
      Effect s (.flowEdge k v) (s.setPort k (edgeHandler s.cfg v { p with flowIn := v }))
  | flowEdgeHalted (k : Nat) (v : Level) (p : Port) (hk : s.port? k = some p) (hr : s.blockStatus = .halted) :
      Effect s (.flowEdge k v) (s.setPort k { p with flowIn := v })
  | dumpAcq (g : SlotRef) (sl : Slot) (snap : List Byte) (hg : s.slot? g = some sl) (hf : sl.guard = .free)
      (hp : s.ctrl.phase = .dump g) (hs : snapshot s.cfg.bufSize sl = .ok snap) :
      Effect s (.ctrlDumpAcq g)
        ((s.setSlot g { sl with guard := .held .ctrl }).setCtrl { s.ctrl with phase := .dumpRel g snap })
  | dumpRel (g : SlotRef) (sl : Slot) (snap : List Byte) (hg : s.slot? g = some sl) (hf : sl.guard = .held .ctrl)
      (hp : s.ctrl.phase = .dumpRel g snap) :
      Effect s (.ctrlDumpRel g snap)
        ((s.setSlot g { sl with guard := .free }).setCtrl ⟨.idle, s.ctrl.resp ++ [⟨0, .dump snap⟩]⟩)
  | ctrlOnly (i : Instr) (c : Ctrl) (hi : isHostRow i = true) : Effect s i (s.setCtrl c)
  | rxEnabled (i : Instr) (v : Bool) (c : Ctrl) (hi : i = .cmdEnable 0 ∨ i = .cmdDisable 0) :
      Effect s i ((s.setRx { s.rx with enabled := v }).setCtrl c)
  | rxInterval (ms : Millis) (c : Ctrl) : Effect s (.cmdInterval 0 ms) ((s.setRx { s.rx with interval := ms }).setCtrl c)
  | portEnabled (i : Instr) (k : Nat) (p : Port) (v : Bool) (c : Ctrl) (hk : s.port? k = some p)
      (hi : i = .cmdEnable k ∨ i = .cmdDisable k) : Effect s i ((s.setPort k { p with enabled := v }).setCtrl c)
  | portInterval (k : Nat) (p : Port) (ms : Millis) (c : Ctrl) (hk : s.port? k = some p) :
      Effect s (.cmdInterval k ms) ((s.setPort k { p with interval := ms }).setCtrl c)

/-- Verify answers a length or one of two errors. -/
theorem verify_results {s : State} {res : ReadResult} (h : verify s = .ok res) :
    (∃ n, res = .ok n) ∨ res = .checksumError ∨ res = .frameTooLargeError := by
  unfold verify at h
  split at h
  · cases h
    simp
  · obtain ⟨b, -, h⟩ := bind_eq_ok.mp h
    simp only [pure, Except.pure, Except.ok.injEq, verifyFrame] at h
    subst h
    repeat' split
    all_goals simp

/-- The four BYTE rows. -/
theorem receiveByte_effect {s t : State} {i : Instr} {b : Byte} (hi : isByteRow i = true)
    (e : receiveByte b s = .next t) : Effect s i t := by
  unfold receiveByte at e
  split at e
  · cases e
    exact .byteIgnored i hi
  rename_i hb
  have hr : s.blockStatus = .running := by cases hx : s.blockStatus <;> simp_all
  split at e
  · cases e
    exact .byteIgnored i hi
  · cases e
    exact .byteIgnored i hi
  · rename_i hst
    rw [answer_eq_next] at e
    unfold byteSynchronizing at e
    split at e
    · obtain ⟨u, hu, e⟩ := bind_eq_ok.mp e
      obtain ⟨hlt, rfl⟩ := appendByte_eq_ok.mp hu
      cases e
      have := Effect.byteStored (s := s) i { s.reader with idx := 1, state := .awaitingTerminator } b hi hr (.inl hst)
        (by simpa [byteOffset, hst] using hlt)
      simp only [byteOffset, hst, if_true] at this
      exact this
    · cases e
      exact .byteIgnored i hi
  all_goals
    rename_i hst
    rw [answer_eq_next] at e
    first | unfold byteAwaitingTerminator at e | unfold byteAwaitingChecksumLine at e
    split at e
    · rename_i hlt
      obtain ⟨u, hu, e⟩ := bind_eq_ok.mp e
      obtain ⟨hlt, rfl⟩ := appendByte_eq_ok.mp hu
      cases e
      have := fun r => Effect.byteStored (s := s) i r b hi hr (by simp [hst]) (by simpa [byteOffset, hst] using hlt)
      simp only [byteOffset, hst] at this
      split <;> exact this _
    · cases e
      exact .byteNoRoom i _ hi

/-- Whatever a row answers is one of the listed effects. -/
theorem exec_effect {s t : State} {i : Instr} (e : exec i s = .next t) : Effect s i t := by
  cases i with
  | byteStart => exact receiveByte_effect rfl e
  | byteEnd => exact receiveByte_effect rfl e
  | byteLf => exact receiveByte_effect rfl e
  | byteOther b => exact receiveByte_effect rfl e
  | timeout =>
    obtain ⟨-, hen, hb⟩ := whenEnabled_eq_next.mp e
    simp only [Bool.and_eq_true, beq_iff_eq] at hen
    obtain ⟨hg, rfl⟩ := (rxAccount_failed (by simp)).mp hb
    exact .timeout hen.1 hg
  | tickRx =>
    obtain ⟨-, hen, hb⟩ := whenEnabled_eq_next.mp e
    cases hb
    exact .tickRx (by simpa using hen)
  | tickTx k =>
    obtain ⟨p, hk, -, hen, hb⟩ := whenPortEnabled_eq_next.mp e
    cases hb
    exact .tickTx k p hk (by simpa using hen)
  | flowEdge k v =>
    simp only [exec, execFlowEdge] at e
    split at e
    · cases e
    · rename_i p hk
      split at e
      · rename_i hh
        cases e
        exact .flowEdgeHalted k v p hk hh
      · rename_i hh
        cases e
        exact .flowEdge k v p hk (by cases hx : s.blockStatus <;> simp_all)
  | rxSkip =>
    obtain ⟨-, hen, hb⟩ := whenEnabled_eq_next.mp e
    simp only [Bool.and_eq_true, beq_iff_eq] at hen
    cases hb
    exact .rxSkip hen.1
  | readArm =>
    obtain ⟨-, hen, hb⟩ := whenEnabled_eq_next.mp e
    simp only [Bool.and_eq_true, beq_iff_eq] at hen
    cases hb
    exact .readArm _ hen.1.1.1
  | readComplete =>
    obtain ⟨-, hen, hb⟩ := whenEnabled_eq_next.mp e
    simp only [Bool.and_eq_true, beq_iff_eq] at hen
    obtain ⟨res, hv, hb⟩ := bind_eq_ok.mp hb
    rcases verify_results hv with ⟨n, rfl⟩ | hres
    · rw [rxAccount_ok] at hb
      cases hb
      exact .readOk n hen.1 hv
    · obtain ⟨hg, rfl⟩ := (rxAccount_failed (by rcases hres with rfl | rfl <;> simp)).mp hb
      have h := Effect.readFailed (s := s) res hen.1 hg hv hres
      rcases hres with rfl | rfl <;> exact h
  | rxOfferSkip k =>
    obtain ⟨p, hk, -, hen, hb⟩ := whenPortEnabled_eq_next.mp e
    simp only [Bool.and_eq_true, beq_iff_eq] at hen
    cases hb
    exact .offerSkip k p hk hen.1
  | rxOfferTry k =>
    obtain ⟨p, hk, -, hen, hb⟩ := whenPortEnabled_eq_next.mp e
    simp only [Bool.and_eq_true, beq_iff_eq] at hen
    split at hb
    · rename_i u hu
      obtain ⟨sl, hsl, hf, rfl⟩ := tryAcquire_eq_some.mp hu
      cases hb
      rw [slot?_ring _ hk] at hsl
      cases hsl
      rw [setSlot_ring _ _ hk]
      exact .offerTaken k p hk hen.1 hf
    · rename_i hu
      cases hb
      exact .offerBusy k p hk hen.1 (tryAcquire_eq_none.mp hu _ (slot?_ring _ hk))
  | rxCopy k i =>
    obtain ⟨p, hk, -, hen, hb⟩ := whenPortEnabled_eq_next.mp e
    simp only [Bool.and_eq_true, beq_iff_eq] at hen
    obtain ⟨m, hm, hb⟩ := bind_eq_ok.mp hb
    cases hb
    rw [setSlot_ring _ _ hk]
    exact .copy k i p m hk hen.1 hen.2 hm
  | rxAdvance k i =>
    obtain ⟨p, hk, -, hen, hb⟩ := whenPortEnabled_eq_next.mp e
    cases hb
    exact .advance k i p hk (by simpa using hen)
  | rxRelease k i =>
    obtain ⟨p, hk, -, hen, hb⟩ := whenPortEnabled_eq_next.mp e
    obtain ⟨u, hu, hb⟩ := bind_eq_ok.mp hb
    obtain ⟨sl, hsl, hg, rfl⟩ := release_eq_ok.mp hu
    cases hb
    rw [slot?_ring _ hk] at hsl
    cases hsl
    rw [setSlot_ring _ _ hk]
    exact .release k i p hk (by simpa using hen) hg
  | rxDone =>
    obtain ⟨-, hen, hb⟩ := whenEnabled_eq_next.mp e
    obtain ⟨u, hu, hb⟩ := bind_eq_ok.mp hb
    obtain ⟨sl, hsl, hg, rfl⟩ := release_eq_ok.mp hu
    cases hb
    cases hsl
    exact .rxDone (by simpa using hen) hg
  | txSample k =>
    obtain ⟨p, hk, -, hen, hb⟩ := whenPortEnabled_eq_next.mp e
    simp only [Bool.and_eq_true, beq_iff_eq] at hen
    cases hb
    exact .txSample k p hk hen.1
  | txSampleFlow k =>
    obtain ⟨p, hk, -, hen, hb⟩ := whenPortEnabled_eq_next.mp e
    simp only [Bool.and_eq_true, beq_iff_eq] at hen
    cases hb
    exact .txSampleFlow k p hk hen.1 hen.2
  | txSampleHead k f =>
    obtain ⟨p, hk, -, hen, hb⟩ := whenPortEnabled_eq_next.mp e
    cases hb
    exact .txSampleHead k f p hk (by simpa using hen)
  | txSampleLen k f h =>
    obtain ⟨p, hk, -, hen, hb⟩ := whenPortEnabled_eq_next.mp e
    cases hb
    exact .txSampleLen k f h p hk (by simpa using hen)
  | txAcquire k h =>
    obtain ⟨p, hk, -, hen, hb⟩ := whenPortEnabled_eq_next.mp e
    simp only [Bool.and_eq_true, beq_iff_eq] at hen
    split at hb
    · rename_i hl
      cases hb
      exact .acquireEmpty k h p hk hen.1 hen.2 hl
    · rename_i hl
      cases hb
      exact .acquire k h p hk hen.1 hen.2 hl
  | txByte k h i len =>
    obtain ⟨p, hk, -, hen, hb⟩ := whenPortEnabled_eq_next.mp e
    simp only [Bool.and_eq_true, beq_iff_eq, decide_eq_true_eq] at hen
    obtain ⟨b, hbb, hb⟩ := bind_eq_ok.mp hb
    cases hb
    exact .txByte k h i len p b hk hen.1.1 hen.1.2 hbb
  | txAbort k h i len =>
    obtain ⟨p, hk, -, hen, hb⟩ := whenPortEnabled_eq_next.mp e
    simp only [Bool.and_eq_true, beq_iff_eq, decide_eq_true_eq] at hen
    obtain ⟨hg, rfl⟩ := (endTransmission_eq_ok hk).mp hb
    exact .txAbort k h i len p hk hen.1.1 hen.1.2 hg
  | txDone k h len =>
    obtain ⟨p, hk, -, hen, hb⟩ := whenPortEnabled_eq_next.mp e
    obtain ⟨hg, rfl⟩ := (endTransmission_eq_ok hk).mp hb
    exact .txDone k h len p hk (by simpa using hen) hg
  | ctrlDumpAcq g =>
    simp only [exec, execCtrlDumpAcq] at e
    split at e
    · split at e <;> cases e
    · rename_i sl hsl
      obtain ⟨-, hen, hb⟩ := whenEnabled_eq_next.mp e
      simp only [Bool.and_eq_true, beq_iff_eq] at hen
      obtain ⟨snap, hs, hb⟩ := bind_eq_ok.mp hb
      cases hb
      have h := Effect.dumpAcq g sl snap hsl hen.2 hen.1 hs
      simpa [State.setCtrlPhase] using h
  | ctrlDumpRel g snap =>
    obtain ⟨-, hen, hb⟩ := whenEnabled_eq_next.mp e
    obtain ⟨u, hu, hb⟩ := bind_eq_ok.mp hb
    obtain ⟨sl, hsl, hg, rfl⟩ := release_eq_ok.mp hu
    cases hb
    have h := Effect.dumpRel g sl snap hsl hg (by simpa using hen)
    simpa [State.setCtrlPhase, State.respond, State.setCtrl] using h
  | ctrlStatsSlot j lens =>
    simp only [exec, execCtrlStatsSlot] at e
    split at e
    · split at e <;> cases e
    · obtain ⟨-, -, hb⟩ := whenEnabled_eq_next.mp e
      cases hb
      exact .ctrlOnly _ _ rfl
  | ctrlStatsEnd lens =>
    obtain ⟨-, -, hb⟩ := whenEnabled_eq_next.mp e
    cases hb
    exact .ctrlOnly _ _ rfl
  | cmdEnable port =>
    cases port with
    | zero =>
      obtain ⟨-, -, hb⟩ := whenEnabled_eq_next.mp e
      cases hb
      exact .rxEnabled _ _ _ (by simp)
    | succ k =>
      obtain ⟨p, hk, -, -, hb⟩ := whenPortEnabled_eq_next.mp e
      cases hb
      exact .portEnabled _ _ p _ _ hk (by simp)
  | cmdDisable port =>
    cases port with
    | zero =>
      obtain ⟨-, -, hb⟩ := whenEnabled_eq_next.mp e
      cases hb
      exact .rxEnabled _ _ _ (by simp)
    | succ k =>
      obtain ⟨p, hk, -, -, hb⟩ := whenPortEnabled_eq_next.mp e
      cases hb
      exact .portEnabled _ _ p _ _ hk (by simp)
  | cmdInterval port ms =>
    cases port with
    | zero =>
      obtain ⟨-, -, hb⟩ := whenEnabled_eq_next.mp e
      cases hb
      exact .rxInterval _ _
    | succ k =>
      obtain ⟨p, hk, -, -, hb⟩ := whenPortEnabled_eq_next.mp e
      cases hb
      exact .portInterval _ p _ _ hk
  | cmdDump g =>
    cases g with
    | rx =>
      obtain ⟨-, -, hb⟩ := whenEnabled_eq_next.mp e
      cases hb
      exact .ctrlOnly _ _ rfl
    | ring k i =>
      obtain ⟨p, -, -, -, hb⟩ := whenPortEnabled_eq_next.mp e
      cases hb
      exact .ctrlOnly _ _ rfl
  | cmdStats =>
    obtain ⟨-, -, hb⟩ := whenEnabled_eq_next.mp e
    cases hb
    exact .ctrlOnly _ _ rfl
  | cmdMalformed line =>
    obtain ⟨-, -, hb⟩ := whenEnabled_eq_next.mp e
    cases hb
    exact .ctrlOnly _ _ rfl

end Sys2Proof.Machine
end

