-- ==== Sys2Proof/Tests/Slice0.lean ====
section
/-! SUPPORT. Tests: what WellFormed refuses, words written out from the encodings, one step of each row, and for each
statement with hypotheses a state and operands that meet them. Expected results come from the spec: the vector or rule
each test names (95_test_vectors.md C, H, V, F, O, T, K). -/

namespace Sys2Proof.Tests
open Sys2Proof Sys2Proof.Machine

/-! ### Small states -/

/-- The bytes of a text at offsets from 0. -/
def memOf (t : String) : Memory := (asciiOf t).zipIdx.map fun x => (x.2, x.1)

/-- The length of a text in bytes. -/
def len (t : String) : Nat := (asciiOf t).length

/-- A slot that holds a text. -/
def slotOf (g : Guard) (t : String) : Slot := ⟨g, memOf t, len t⟩

/-- The reset state under a configuration. -/
def at' (c : Config) : State := State.resetOf c []

/-- N = 2, and slots of four bytes. -/
def small (o : OverflowPolicy) : Config := { Config.default with bufSize := 4, overflowPolicy := o }

/-- `CHECKSUM_POLICY = Optional`. -/
def lax : Config := { Config.default with checksumPolicy := .optional }

/-- `SAMPLE_GRANULARITY = Atomic`. -/
def atomic : Config := { Config.default with sampleGranularity := .atomic }

/-- `INIT_OUTCOME = Fail`. -/
def failing : Config := { Config.default with initOutcome := .fail }

/-- A read in progress that has stored a text. -/
def reading (c : Config) (st : RdState) (t : String) : State :=
  { at' c with
    reader := ⟨st, len t, false, .held .rx, st == .complete, .high⟩
    rx := { (at' c).rx with slot := ⟨.held .rx, memOf t, 0⟩, phase := .wait } }

/-- A fan-out in progress of a telegram. -/
def offering (ph : RxPhase) (t : String) : State :=
  { State.reset with rx := { State.reset.rx with slot := slotOf (.held .rx) t, n := len t, phase := ph } }

/-- Port 1 at reset with its level asserted. -/
def ready : Port := Port.reset Config.default .high

/-- Port 1 replaced. -/
def port1 (c : Config) (p : Port) : State := (at' c).setPort 1 p

/-- Slot 0 of port 1 holds `/X!` under a guard, and TX(1) is in a phase. -/
def sending (g : Guard) (ph : TxPhase) (f : FlowLevel) : Port :=
  { ready with ring := { ready.ring with s0 := slotOf g "/X!" }, flowLevel := f, phase := ph }

/-- CTRL in a phase, `rx_slot` holding `/X!`. -/
def controlling (g : Guard) (ph : CtrlPhase) : State :=
  { State.reset with rx := { State.reset.rx with slot := slotOf g "/X!" }, ctrl := ⟨ph, []⟩ }

/-- The row completes, and its next state satisfies `q`. -/
def gives (i : Instr) (s : State) (q : State → Bool) : Bool :=
  match exec i s with
  | .next t => q t
  | _ => false

/-- A step of the machine answers a next state, which satisfies `q`. -/
def steps (s : State) (q : State → Bool) : Bool :=
  match step s with
  | .next t => q t
  | _ => false

/-- The row is refused. -/
def refuses (i : Instr) (s : State) (r : Refusal) : Bool :=
  match exec i s with
  | .refused r' => r' == r
  | _ => false

/-- Port k satisfies `q`. -/
def portIs (k : Nat) (q : Port → Bool) (s : State) : Bool :=
  match s.port? k with
  | some p => q p
  | none => false

/-- A word decodes to an instruction (N = 2). -/
def reads (w : List Byte) (i : Instr) : Bool :=
  match decode Config.default w with
  | .ok j => j == i
  | .error _ => false

/-- A word is rejected with a reason (N = 2). -/
def rejects (w : List Byte) (e : DecodeError) : Bool :=
  match decode Config.default w with
  | .ok _ => false
  | .error e' => e' == e

/-! ### WellFormed refuses -/

theorem test_illformed_bytes :
    [Instr.byteOther 0x2F, .byteOther 0x21, .byteOther 0x0A].all (fun i => !i.wellFormed Config.default) := by decide

theorem test_illformed_ports :
    [Instr.tickTx 0, .tickTx 3, .flowEdge 0 .high, .flowEdge 3 .low, .rxOfferSkip 0, .rxOfferTry 3, .rxCopy 3 0,
      .rxAdvance 0 1, .rxRelease 3 2, .txSample 0, .txSampleFlow 3, .txSampleHead 3 .asserted,
      .txSampleLen 0 .asserted 0, .txAcquire 3 0].all (fun i => !i.wellFormed Config.default) := by decide

theorem test_illformed_sends :
    [Instr.txByte 3 0 0 1, .txByte 1 0 5 5, .txByte 1 0 0 17, .txAbort 0 0 0 1, .txAbort 1 0 5 5, .txAbort 1 0 0 17,
      .txDone 3 0 1, .txDone 1 0 0, .txDone 1 0 17].all (fun i => !i.wellFormed Config.default) := by decide

theorem test_illformed_control :
    [Instr.ctrlDumpAcq (.ring 3 0), .ctrlDumpRel (.ring 0 0) [], .ctrlStatsSlot 7 [0, 0, 0, 0, 0, 0, 0],
      .ctrlStatsSlot 1 [], .ctrlStatsEnd [0], .cmdEnable 3, .cmdDisable 3, .cmdInterval 3 0, .cmdDump (.ring 0 0),
      .cmdDump (.ring 3 0), .cmdMalformed (asciiOf "stats")].all (fun i => !i.wellFormed Config.default) := by decide

/-! ### Words -/

/-- R81: the match values of the table, bit by bit, and two bytes of the complement. -/
theorem test_decode_bytes :
    reads [0b00101111] .byteStart ∧ reads [0b00100001] .byteEnd ∧ reads [0b00001010] .byteLf ∧
    reads [0b00001101] (.byteOther 0x0D) ∧ reads [0b10101111] (.byteOther 0xAF) := by decide

/-- R93's words for the events. -/
theorem test_decode_events :
    reads (asciiOf "TIMEOUT") .timeout ∧ reads (asciiOf "TICK_RX") .tickRx ∧ reads (asciiOf "TICK_TX 2") (.tickTx 2) ∧
    reads (asciiOf "FLOW 1 High") (.flowEdge 1 .high) ∧ reads (asciiOf "FLOW 2 Low") (.flowEdge 2 .low) := by decide

theorem test_decode_receiver :
    reads (asciiOf "RX_SKIP") .rxSkip ∧ reads (asciiOf "READ_ARM") .readArm ∧
    reads (asciiOf "READ_COMPLETE") .readComplete ∧ reads (asciiOf "RX_OFFER_SKIP 1") (.rxOfferSkip 1) ∧
    reads (asciiOf "RX_OFFER_TRY 2") (.rxOfferTry 2) ∧ reads (asciiOf "RX_COPY 2 1") (.rxCopy 2 1) ∧
    reads (asciiOf "RX_ADVANCE 1 2") (.rxAdvance 1 2) ∧ reads (asciiOf "RX_RELEASE 1 0") (.rxRelease 1 0) ∧
    reads (asciiOf "RX_DONE") .rxDone := by decide

theorem test_decode_sender :
    reads (asciiOf "TX_SAMPLE 1") (.txSample 1) ∧ reads (asciiOf "TX_SAMPLE_FLOW 2") (.txSampleFlow 2) ∧
    reads (asciiOf "TX_SAMPLE_HEAD 1 Asserted") (.txSampleHead 1 .asserted) ∧
    reads (asciiOf "TX_SAMPLE_LEN 1 Deasserted 2") (.txSampleLen 1 .deasserted 2) ∧
    reads (asciiOf "TX_ACQUIRE 2 1") (.txAcquire 2 1) ∧ reads (asciiOf "TX_BYTE 1 2 3 10") (.txByte 1 2 3 10) ∧
    reads (asciiOf "TX_ABORT 2 0 0 16") (.txAbort 2 0 0 16) ∧ reads (asciiOf "TX_DONE 1 0 5") (.txDone 1 0 5) := by
  decide

theorem test_decode_control_steps :
    reads (asciiOf "CTRL_DUMP_ACQ 0") (.ctrlDumpAcq .rx) ∧ reads (asciiOf "CTRL_DUMP_ACQ 2 1") (.ctrlDumpAcq (.ring 2 1)) ∧
    reads (asciiOf "CTRL_DUMP_REL 1 2 47 255") (.ctrlDumpRel (.ring 1 2) [0x2F, 0xFF]) ∧
    reads (asciiOf "CTRL_STATS_SLOT 2 10 0") (.ctrlStatsSlot 2 [10, 0]) ∧
    reads (asciiOf "CTRL_STATS_END 1 2 3 4 5 6 7") (.ctrlStatsEnd [1, 2, 3, 4, 5, 6, 7]) := by decide

/-- K1 to K5, K8. -/
theorem test_decode_commands :
    reads (asciiOf "CMD enable 1") (.cmdEnable 1) ∧ reads (asciiOf "CMD disable  2") (.cmdDisable 2) ∧
    reads (asciiOf "CMD interval 1 4294967295") (.cmdInterval 1 0xFFFFFFFF) ∧
    reads (asciiOf "CMD dump 0") (.cmdDump .rx) ∧ reads (asciiOf "CMD dump 1 1") (.cmdDump (.ring 1 1)) ∧
    reads (asciiOf "CMD stats") .cmdStats ∧ reads (asciiOf "CMD ") (.cmdMalformed []) := by decide

/-- K6, K7: each is malformed. -/
theorem test_decode_malformed :
    ["interval 1 4294967296", "enable 3", "dump 2 3", "dump 0 0", "dump 1", "stats 1", "Dump 0", "enable", "enable -1",
      "enable 1x", ""].all (fun t => parseCommand 2 (asciiOf t) == .cmdMalformed (asciiOf t)) := by decide

theorem test_decode_rejects :
    rejects [] .empty ∧ rejects (asciiOf "TICK") .unknownName ∧ rejects (asciiOf "TICK_TX") .badOperands ∧
    rejects (asciiOf "RX_COPY 1 3") .badOperands ∧ rejects (asciiOf "TICK_TX 3") .outOfRange ∧
    rejects (asciiOf "TX_DONE 1 0 17") .outOfRange := by decide

/-- The host's word form: `FLOW 1 Low` as the bytes of one number, first byte lowest. -/
theorem test_tableWord :
    decodeTableWord 8 0x2F = some .byteStart ∧ decodeTableWord 8 0x0D = some (.byteOther 0x0D) ∧
    decodeTableWord 80 0x776F4C203120574F4C46 = some (.flowEdge 1 .low) := by decide

/-! ### Checksum (C, H, V vectors) -/

/-- C2 to C5, C8, C9, C16. -/
theorem test_crc :
    crc16 [0x00] = 0 ∧ crc16 [0x01] = 0xC0C1 ∧ crc16 [0x80] = 0xA001 ∧ crc16 [0xFF] = 0x4040 ∧
    crc16 (asciiOf "/!") = 0x28DC ∧ crc16 (asciiOf "/AB!") = 0x78A8 ∧ crc16 (asciiOf "123456789") = 0xBB3D := by decide +kernel

/-- C9, C11 in the table form. -/
theorem test_crc_table : crc16Table (asciiOf "/AB!") = 0x78A8 ∧ crc16Table (asciiOf "/a!") = 0x41D8 := by decide

/-- H1 to H7. -/
theorem test_hex :
    hex4 0x78A8 = asciiOf "78A8" ∧ hex4 0x00DC = asciiOf "00DC" ∧ hex4 0xFFFF = asciiOf "FFFF" ∧
    parse4 .anyCase (asciiOf "78a8") = some 0x78A8 ∧ parse4 .upperOnly (asciiOf "78a8") = none ∧
    ["78G8", " 78A", "+7A8", "0x78"].all (fun t => parse4 .anyCase (asciiOf t) == none) ∧
    [0x2F, 0x3A, 0x40, 0x47].all (fun c => hexval .anyCase c == none) := by decide

/-- V1, V2, V4, V6, V9, V12, V16, V17, V19 under Required, then V4 and V6 under Optional, V3 under UpperOnly. -/
theorem test_verify :
    verifyFrame Config.default (asciiOf "/AB!78A8\r\n") = .ok 10 ∧
    ["/AB!78A9\r\n", "/AB!\r\n", "/!\n", "/!\r\r\n", "/AB!A878\r\n", "/AB!78A8\r\r\n", "/A!B!\r\n", "/ABC"].all
      (fun t => verifyFrame Config.default (asciiOf t) == .checksumError) ∧
    verifyFrame lax (asciiOf "/AB!\r\n") = .ok 6 ∧ verifyFrame lax (asciiOf "/!\n") = .ok 3 ∧
    verifyFrame lax (asciiOf "/AB!78a8\r\n") = .ok 10 ∧
    verifyFrame { lax with hexCase := .upperOnly } (asciiOf "/AB!78a8\r\n") = .checksumError := by decide +kernel

/-! ### One step of each row -/

/-- F1, F4: ignored in Idle; opens a frame in Synchronizing. -/
theorem test_byteStart :
    gives .byteStart State.reset (· == State.reset) ∧
    gives .byteStart (reading Config.default .synchronizing "") (· == reading Config.default .awaitingTerminator "/") := by
  decide

/-- F4: the end marker leaves AwaitingTerminator; without room under DropAndHold it is dropped (F5). -/
theorem test_byteEnd :
    gives .byteEnd (reading Config.default .awaitingTerminator "/AB")
      (· == reading Config.default .awaitingChecksumLine "/AB!") ∧
    gives .byteEnd (reading (small .dropAndHold) .awaitingTerminator "/ABC")
      (fun t => t.reader.state == .awaitingTerminator && t.reader.idx == 4 && t.reader.overflow) := by decide

/-- F3: the LF completes; F12: an LF in the payload does not. -/
theorem test_byteLf :
    gives .byteLf (reading Config.default .awaitingChecksumLine "/AB!\r")
      (· == reading Config.default .complete "/AB!\r\n") ∧
    gives .byteLf (reading Config.default .awaitingTerminator "/A\r")
      (· == reading Config.default .awaitingTerminator "/A\r\n") := by decide

/-- F2: nothing stored in Synchronizing; P5: any byte without room completes under FrameTooLarge. -/
theorem test_byteOther :
    gives (.byteOther 0x6A) (reading Config.default .synchronizing "")
      (· == reading Config.default .synchronizing "") ∧
    gives (.byteOther 0x0D) (reading (small .frameTooLarge) .awaitingChecksumLine "/AB!")
      (fun t => t.reader.state == .complete && t.reader.done && t.reader.idx == 4) := by decide

/-- F2; not enabled once `rd_done` is set (R132). -/
theorem test_timeout :
    gives .timeout (reading Config.default .synchronizing "")
      (fun t => t.rx.cntFailedTimeout == 1 && t.rx.slot.guard == .free && t.rx.phase == .sleep &&
        t.reader == Reader.reset) ∧
    refuses .timeout (reading Config.default .complete "/!\n") .notEnabled := by decide

theorem test_tickRx :
    gives .tickRx State.reset (fun t => t.rx.phase == .start) ∧
    refuses .tickRx (offering (.offer 1) "/X!") .notEnabled := by decide

theorem test_tickTx :
    gives (.tickTx 2) State.reset (portIs 2 (·.phase == .sample)) ∧ refuses (.tickTx 3) State.reset .noSuchPort := by
  decide

/-- T8's first edge; T8's second: no transition. -/
theorem test_flowEdge :
    gives (.flowEdge 1 .high) State.reset (portIs 1 fun p => p.flowLevel == .asserted && p.requested == 1) ∧
    gives (.flowEdge 1 .high) (port1 Config.default ready)
      (portIs 1 fun p => p.flowLevel == .asserted && p.requested == 0) := by decide

/-- O4. -/
theorem test_rxSkip :
    gives .rxSkip { State.reset with rx := { State.reset.rx with enabled := false, phase := .start } }
      (fun t => t.rx.phase == .sleep) := by decide

/-- F13: the request line after the arm. -/
theorem test_readArm :
    gives .readArm { State.reset with rx := { State.reset.rx with phase := .start } }
      (· == reading Config.default .synchronizing "") := by decide

/-- F3; V2. -/
theorem test_readComplete :
    gives .readComplete (reading Config.default .complete "/AB!78A8\r\n")
      (fun t => t.rx.phase == .offer 1 && t.rx.slot.length == 10 && t.rx.cntRead == 1 && t.reader.reqOut == .low) ∧
    gives .readComplete (reading Config.default .complete "/AB!78A9\r\n")
      (fun t => t.rx.phase == .sleep && t.rx.slot.length == 0 && t.rx.cntFailedChecksum == 1) := by decide +kernel

/-- O3. -/
theorem test_rxOfferSkip :
    gives (.rxOfferSkip 1) ((offering (.offer 1) "/X!").setPort 1 { ready with enabled := false })
      (fun t => t.rx.phase == .offer 2) := by decide

/-- O1; O2: a slot held by CTRL. -/
theorem test_rxOfferTry :
    gives (.rxOfferTry 1) (offering (.offer 1) "/X!")
      (fun t => t.rx.phase == .copy 1 1 && t.holds .rx (.ring 1 1)) ∧
    gives (.rxOfferTry 1)
      ((offering (.offer 1) "/X!").setPort 1 { ready with ring := { ready.ring with s1 := slotOf (.held .ctrl) "" } })
      (fun t => t.rx.phase == .offer 2 && t.holds .ctrl (.ring 1 1)) := by decide

theorem test_rxCopy :
    gives (.rxCopy 1 1)
      ((offering (.copy 1 1) "/X!").setPort 1
        { ready with ring := { ready.ring with s1 := slotOf (.held .rx) "/OLD!" } })
      (portIs 1 fun p => p.ring.s1 == ⟨.held .rx, memOf "/X!D!", 3⟩) := by decide

/-- O6: `copied` wraps. -/
theorem test_rxAdvance :
    gives (.rxAdvance 1 2) ((offering (.advance 1 2) "/X!").setPort 1 { ready with copied := 0xFFFFFFFF })
      (portIs 1 fun p => p.copied == 0 && p.head == 2) := by decide

theorem test_rxRelease :
    gives (.rxRelease 1 2)
      ((offering (.release 1 2) "/X!").setPort 1
        { ready with ring := { ready.ring with s2 := slotOf (.held .rx) "/X!" } })
      (fun t => t.rx.phase == .offer 2 && t.guardFree (.ring 1 2)) := by decide

theorem test_rxDone :
    gives .rxDone (offering (.offer 3) "/X!")
      (fun t => t.rx.phase == .sleep && t.rx.slot.guard == .free && t.rx.slot.length == 3) := by decide

/-- T1 and T6 under Atomic. -/
theorem test_txSample :
    gives (.txSample 1) (port1 atomic (sending .free .sample .asserted)) (portIs 1 (·.phase == .acquire 0)) ∧
    gives (.txSample 1) (port1 atomic { sending .free .sample .asserted with enabled := false })
      (portIs 1 (·.phase == .sleep)) := by decide

/-- R193; not enabled under Atomic. -/
theorem test_txSampleFlow :
    gives (.txSampleFlow 1) (port1 Config.default (sending .free .sample .deasserted))
      (portIs 1 (·.phase == .sampleH .deasserted)) ∧
    refuses (.txSampleFlow 1) (port1 atomic (sending .free .sample .deasserted)) .notEnabled := by decide

theorem test_txSampleHead :
    gives (.txSampleHead 1 .asserted) (port1 Config.default { sending .free (.sampleH .asserted) .deasserted with head := 2 })
      (portIs 1 (·.phase == .sampleL .asserted 2)) := by decide

/-- P6: the level was sampled before it fell. -/
theorem test_txSampleLen :
    gives (.txSampleLen 1 .asserted 0) (port1 Config.default (sending .free (.sampleL .asserted 0) .deasserted))
      (portIs 1 (·.phase == .acquire 0)) ∧
    gives (.txSampleLen 1 .asserted 1) (port1 Config.default (sending .free (.sampleL .asserted 1) .asserted))
      (portIs 1 (·.phase == .sleep)) := by decide

/-- R182: a telegram; a slot emptied since the sample. -/
theorem test_txAcquire :
    gives (.txAcquire 1 0) (port1 Config.default (sending .free (.acquire 0) .asserted))
      (portIs 1 fun p => p.phase == .send 0 0 3 && p.ring.s0.guard == .held (.tx 1)) ∧
    gives (.txAcquire 1 1) (port1 Config.default (sending .free (.acquire 1) .asserted))
      (portIs 1 fun p => p.phase == .sleep && p.ring.s1.guard == .free) := by decide

theorem test_txByte :
    gives (.txByte 1 0 1 3) (port1 Config.default { sending (.held (.tx 1)) (.send 0 1 3) .asserted with out := [0x2F] })
      (portIs 1 fun p => p.out == asciiOf "/X" && p.phase == .send 0 2 3) := by decide

/-- T4: K = 0. -/
theorem test_txAbort :
    gives (.txAbort 1 0 0 3) (port1 Config.default (sending (.held (.tx 1)) (.send 0 0 3) .deasserted))
      (portIs 1 fun p => p.aborted == 1 && p.written == 0 && p.ring.s0 == ⟨.free, memOf "/X!", 0⟩ && p.out == [] &&
        p.phase == .sleep) := by decide

/-- T5: the level is not tested after the last byte. -/
theorem test_txDone :
    gives (.txDone 1 0 3) (port1 Config.default (sending (.held (.tx 1)) (.send 0 3 3) .deasserted))
      (portIs 1 fun p => p.written == 1 && p.aborted == 0 && p.ring.s0 == ⟨.free, memOf "/X!", 0⟩) := by decide

/-- K8's snapshot step; blocked while RX holds the guard (R214). -/
theorem test_ctrlDumpAcq :
    gives (.ctrlDumpAcq .rx) (controlling .free (.dump .rx))
      (fun t => t.ctrl.phase == .dumpRel .rx (asciiOf "/X!") && t.holds .ctrl .rx) ∧
    refuses (.ctrlDumpAcq .rx) (controlling (.held .rx) (.dump .rx)) .notEnabled := by decide

theorem test_ctrlDumpRel :
    gives (.ctrlDumpRel .rx (asciiOf "/X!")) (controlling (.held .ctrl) (.dumpRel .rx (asciiOf "/X!")))
      (fun t => t.guardFree .rx && t.ctrl == ⟨.idle, [⟨0, .dump (asciiOf "/X!")⟩]⟩) := by decide

/-- R215: the first slot, and the last of N = 2. -/
theorem test_ctrlStatsSlot :
    gives (.ctrlStatsSlot 0 []) (controlling .free (.stats 0 [])) (fun t => t.ctrl.phase == .stats 1 [3]) ∧
    gives (.ctrlStatsSlot 6 [3, 0, 0, 0, 0, 0]) (controlling .free (.stats 6 [3, 0, 0, 0, 0, 0]))
      (fun t => t.ctrl.phase == .statsEnd [3, 0, 0, 0, 0, 0, 0]) := by decide

/-- R215: `lens[3(k-1)+1 .. 3(k-1)+3]` are port k's. -/
theorem test_ctrlStatsEnd :
    gives (.ctrlStatsEnd [3, 10, 11, 12, 13, 14, 15]) (controlling .free (.statsEnd [3, 10, 11, 12, 13, 14, 15]))
      (fun t => t.ctrl.resp == [⟨0, .stats ⟨true, 0, 3, 0, 0, 0, 0⟩
        [⟨true, 0, [10, 11, 12], 0, 0, 0, 0⟩, ⟨true, 0, [13, 14, 15], 0, 0, 0, 0⟩]⟩]) := by decide

/-- K1. -/
theorem test_cmdEnable :
    gives (.cmdEnable 1) (port1 Config.default { ready with enabled := false })
      (fun t => portIs 1 (·.enabled) t && t.ctrl.resp == [⟨0, .none⟩]) := by decide

/-- K2, K3. -/
theorem test_cmdDisable :
    gives (.cmdDisable 0) State.reset (fun t => !t.rx.enabled && t.ctrl.resp == [⟨0, .none⟩]) ∧
    gives (.cmdDisable 2) State.reset (fun t => portIs 2 (!·.enabled) t && portIs 1 (·.enabled) t) := by decide

/-- K5; `interval 0`. -/
theorem test_cmdInterval :
    gives (.cmdInterval 1 0xFFFFFFFF) State.reset (portIs 1 (·.interval == 0xFFFFFFFF)) ∧
    gives (.cmdInterval 0 1000) State.reset (fun t => t.rx.interval == 1000 && portIs 1 (·.interval == 0) t) := by decide

/-- A command is accepted only in CtrlIdle (R210). -/
theorem test_cmdDump :
    gives (.cmdDump (.ring 2 1)) State.reset (fun t => t.ctrl == ⟨.dump (.ring 2 1), []⟩) ∧
    refuses (.cmdDump .rx) (controlling .free (.stats 0 [])) .notEnabled := by decide

theorem test_cmdStats : gives .cmdStats State.reset (fun t => t.ctrl == ⟨.stats 0 [], []⟩) := by decide

/-- K7. -/
theorem test_cmdMalformed :
    gives (.cmdMalformed (asciiOf "enable 3")) State.reset
      (· == { State.reset with ctrl := ⟨.idle, [⟨1, .usage⟩]⟩ }) := by decide

/-- R272: Halted. -/
theorem test_halted :
    (at' failing).blockStatus = .halted ∧ gives .byteStart (at' failing) (· == at' failing) ∧
    refuses .tickRx (at' failing) .halted ∧
    gives (.flowEdge 1 .high) (at' failing) (portIs 1 fun p => p.flowLevel == .deasserted && p.requested == 0) := by
  decide

/-- The host's question: the first step after reset runs the word. -/
theorem test_withFetchWord :
    steps (State.reset.withFetchWord 8 0x2F) (· == State.reset) ∧
    steps (State.reset.withFetchWord 56 0x58525F4B434954) (fun t => t.rx.phase == .start && t.agenda == []) := by
  decide

/-! ### Witnesses: the hypotheses of each statement are met -/

theorem witness_DecodeOfEncodeIsTheInstruction : (Instr.txAbort 2 2 15 16).wellFormed Config.default = true := by decide

theorem witness_DecoderAnswersOnlyWellFormed :
    ∃ w i, decode Config.default w = .ok i := ⟨asciiOf "TICK_TX 2", .tickTx 2, by rfl⟩

/-- One line of each form, the operands at the ends of their ranges. -/
theorem witness_CommandLinesAreReadByTheGrammar :
    parseCommand 2 (asciiOf "enable 0") = .cmdEnable 0 ∧ parseCommand 2 (asciiOf "disable 2") = .cmdDisable 2 ∧
    parseCommand 2 (asciiOf "interval 2 0") = .cmdInterval 2 0 ∧ parseCommand 2 (asciiOf "dump 00") = .cmdDump .rx ∧
    parseCommand 2 (asciiOf "dump 2 2") = .cmdDump (.ring 2 2) ∧ parseCommand 2 (asciiOf "stats") = .cmdStats ∧
    parseCommand 2 (asciiOf "enable 3") = .cmdMalformed (asciiOf "enable 3") := by decide

/-- The last part is the case in which nothing follows the spaces (log 9). -/
theorem witness_NumeralsAndTokens :
    (∃ t : List Byte, ∃ b ∈ t, b.toNat < 0x30) ∧ (∃ t : List Byte, ∃ b ∈ t, 0x39 < b.toNat) ∧
    (∃ t : List Byte, t ≠ [] ∧ space ∉ t) ∧
    tokens (asciiOf "stats  ") = [asciiOf "stats"] :=
  ⟨⟨[0x2F], 0x2F, by decide⟩, ⟨[0x3A], 0x3A, by decide⟩, ⟨[0x31], by decide⟩, by decide⟩

/-- H4 and H6. -/
theorem witness_Parse4InvertsHex4 :
    (hexval .anyCase 0x37 = some 7 ∧ hexval .anyCase 0x38 = some 8 ∧ hexval .anyCase 0x41 = some 10) ∧
    hexval .anyCase 0x47 = none := by decide

/-- A field for both hypotheses, the empty field too; V9 and V16 for the clauses without one. -/
theorem witness_TailIsTheChecksumField :
    (∀ f ∈ [asciiOf "78A8", []], f.getLast? ≠ some carriageReturn ∧ f.getLast? ≠ some lineFeed) ∧
    tail (asciiOf "/!\r\r\n") 1 = asciiOf "\r" ∧ tail (asciiOf "/AB!78A8\r\r\n") 3 = asciiOf "78A8\r" := by decide

/-- V21, then V1 and V4. -/
theorem witness_VerifyFollowsItsRule :
    (∃ s : State, s.cfg.overflowPolicy = .frameTooLarge ∧ s.reader.overflow = true) ∧
    (∃ (s : State) (b : List Byte), s.reader.overflow = false ∧ s.frame s.reader.idx = .ok b ∧ tail b 3 = asciiOf "78A8") ∧
    ∃ (s : State) (b : List Byte), s.reader.overflow = false ∧ s.frame s.reader.idx = .ok b ∧
      s.cfg.checksumPolicy = .optional ∧ tail b 3 = [] :=
  ⟨⟨{ at' (small .frameTooLarge) with reader := { Reader.reset with overflow := true } }, by decide⟩,
    ⟨reading Config.default .complete "/AB!78A8\r\n", asciiOf "/AB!78A8\r\n", by decide, by rfl, by decide⟩,
    ⟨reading lax .complete "/AB!\r\n", asciiOf "/AB!\r\n", by decide, by rfl, by decide, by decide⟩⟩

theorem witness_BytesOutsideAReadChangeNothing :
    State.reset.reader.state = .idle ∧ (reading Config.default .complete "/!\n").reader.state = .complete := by decide

theorem witness_StartMarkerOpensTheFrame : ∃ s : State,
    s.blockStatus = .running ∧ s.reader.state = .synchronizing ∧ s.cfg.bufSize = 1 :=
  ⟨reading { Config.default with bufSize := 1 } .synchronizing "", by decide⟩

/-- The last byte that has room, in both states. -/
theorem witness_BytesOfAFrameAreStored : ∃ s s' : State,
    (s.blockStatus = .running ∧ s.reader.state = .awaitingTerminator ∧ s.reader.idx + 1 = s.cfg.bufSize) ∧
    (s'.blockStatus = .running ∧ s'.reader.state = .awaitingChecksumLine ∧ s'.reader.idx + 1 = s'.cfg.bufSize) :=
  ⟨reading (small .dropAndHold) .awaitingTerminator "/AB", reading (small .dropAndHold) .awaitingChecksumLine "/A!",
    by decide⟩

/-- Both states, under each policy; also for FullBufferNeverCompletesUnderHold. -/
theorem witness_BytesWithoutRoom : ∀ o, ∃ s s' : State,
    (s.blockStatus = .running ∧ s.reader.state = .awaitingTerminator ∧ s.reader.idx = s.cfg.bufSize ∧
      s.cfg.overflowPolicy = o) ∧
    (s'.blockStatus = .running ∧ s'.reader.state = .awaitingChecksumLine ∧ s'.reader.idx = s'.cfg.bufSize ∧
      s'.cfg.overflowPolicy = o) :=
  fun o => ⟨reading (small o) .awaitingTerminator "/ABC", reading (small o) .awaitingChecksumLine "/AB!",
    ⟨rfl, rfl, rfl, rfl⟩, ⟨rfl, rfl, rfl, rfl⟩⟩

theorem witness_FedTelegramIsReadWhole : ∃ (s : State) (junk x : List Byte),
    s.blockStatus = .running ∧ s.reader.state = .synchronizing ∧ s.reader.overflow = false ∧ slash ∉ junk ∧ bang ∉ x ∧
    x.length + 8 = s.cfg.bufSize :=
  ⟨reading { Config.default with bufSize := 10 } .synchronizing "", asciiOf "xx", asciiOf "AB", by decide⟩

theorem witness_ReadArmArmsTheFramer : ∃ s : State,
    s.blockStatus = .running ∧ s.rx.phase = .start ∧ s.rx.enabled = true ∧ s.reader.lock = .free ∧
    s.rx.slot.guard = .free :=
  ⟨{ State.reset with rx := { State.reset.rx with phase := .start } }, by decide⟩

theorem witness_SuccessfulReadIsAccounted : ∃ (s : State) (n : Nat),
    s.blockStatus = .running ∧ s.rx.phase = .wait ∧ s.reader.done = true ∧ verify s = .ok (.ok n) :=
  ⟨reading lax .complete "/!\n", 3, by decide, by decide, by decide, by rfl⟩

/-- A failed checksum, and a frame too large. -/
theorem witness_FailedReadIsAccounted : ∃ (s s' : State),
    (s.blockStatus = .running ∧ s.rx.phase = .wait ∧ s.reader.done = true ∧ s.rx.slot.guard = .held .rx ∧
      verify s = .ok .checksumError) ∧
    (s'.blockStatus = .running ∧ s'.rx.phase = .wait ∧ s'.reader.done = true ∧ s'.rx.slot.guard = .held .rx ∧
      verify s' = .ok .frameTooLargeError) :=
  ⟨reading Config.default .complete "/!\n",
    (reading (small .frameTooLarge) .complete "/ABC").setReader ⟨.complete, 4, true, .held .rx, true, .high⟩,
    ⟨by decide, by decide, by decide, by decide, by rfl⟩, ⟨by decide, by decide, by decide, by decide, by rfl⟩⟩

theorem witness_TimeoutEndsTheRead : ∃ s : State,
    s.blockStatus = .running ∧ s.rx.phase = .wait ∧ s.reader.done = false ∧ s.rx.slot.guard = .held .rx :=
  ⟨reading Config.default .synchronizing "", by decide⟩

theorem witness_ReceiverWakesAndSkips :
    (∃ s : State, s.blockStatus = .running ∧ s.rx.phase = .sleep) ∧
    ∃ s : State, s.blockStatus = .running ∧ s.rx.phase = .start ∧ s.rx.enabled = false :=
  ⟨⟨State.reset, by decide⟩,
    ⟨{ State.reset with rx := { State.reset.rx with enabled := false, phase := .start } }, by decide⟩⟩

theorem witness_FanoutSkipsAndEnds :
    (∃ (s : State) (p : Port), s.blockStatus = .running ∧ s.port? 2 = some p ∧ s.rx.phase = .offer 2 ∧
      p.enabled = false) ∧
    ∃ s : State, s.blockStatus = .running ∧ s.rx.phase = .offer (s.cfg.n + 1) ∧ s.rx.slot.guard = .held .rx :=
  ⟨⟨(offering (.offer 2) "/X!").setPort 2 { ready with enabled := false }, { ready with enabled := false }, by decide⟩,
    ⟨offering (.offer 3) "/X!", by decide⟩⟩

/-- The slot one past the head wraps to 0; Free, and held. -/
theorem witness_OfferTriesTheNextSlot : ∃ (s s' : State) (p p' : Port),
    (s.blockStatus = .running ∧ s.port? 1 = some p ∧ s.rx.phase = .offer 1 ∧ p.enabled = true ∧
      (0 : RingIdx).val = (p.head.val + 1) % 3 ∧ (p.ring.get 0).guard = .free) ∧
    (s'.blockStatus = .running ∧ s'.port? 1 = some p' ∧ s'.rx.phase = .offer 1 ∧ p'.enabled = true ∧
      (0 : RingIdx).val = (p'.head.val + 1) % 3 ∧ (p'.ring.get 0).guard ≠ .free) :=
  let p := { ready with head := 2 }
  let p' := { sending (.held (.tx 1)) (.send 0 1 3) .asserted with head := 2 }
  ⟨(offering (.offer 1) "/X!").setPort 1 p, (offering (.offer 1) "/X!").setPort 1 p', p, p', by decide⟩

theorem witness_CopyWritesTheTelegram : ∃ (s : State) (p : Port),
    s.blockStatus = .running ∧ s.port? 1 = some p ∧ s.rx.phase = .copy 1 1 ∧ (p.ring.get 1).guard = .held .rx ∧
    s.rx.n ≤ s.cfg.bufSize ∧ 0 < s.rx.n ∧ Listed s.rx.slot.data s.rx.n :=
  let p := { ready with ring := { ready.ring with s1 := slotOf (.held .rx) "/OLD!" } }
  ⟨(offering (.copy 1 1) "/X!").setPort 1 p, p, by decide⟩

theorem witness_DeliveryIsPublishedAndReleased : ∃ (s s' : State) (p : Port),
    (s.blockStatus = .running ∧ s.port? 1 = some p ∧ s.rx.phase = .advance 1 1) ∧
    (s'.blockStatus = .running ∧ s'.port? 1 = some p ∧ s'.rx.phase = .release 1 1 ∧
      (p.ring.get 1).guard = .held .rx) :=
  let p := { ready with ring := { ready.ring with s1 := slotOf (.held .rx) "/X!" } }
  ⟨(offering (.advance 1 1) "/X!").setPort 1 p, (offering (.release 1 1) "/X!").setPort 1 p, p, by decide⟩

/-- A state of the invariant: a telegram in the receiver slot at the start of its fan-out, RX given 9 turns (O1). -/
def fanningOut : State := { offering (.offer 1) "/X!" with agenda := turns .rx 9 }

theorem fanningOut_inv : BlockInv fanningOut :=
  ⟨by decide, by decide, by decide, by decide, by decide, by decide, by decide, by decide, by decide, by decide⟩

/-- O1: N = 2, m = 2. -/
theorem witness_FanoutTakesExactlyItsSteps :
    BlockInv fanningOut ∧ fanningOut.blockStatus = .running ∧ fanningOut.rx.phase = .offer 1 ∧
    fanningOut.agenda = turns .rx (fanningOut.cfg.n + 3 * fanningOut.ports.countP accepts + 1) :=
  ⟨fanningOut_inv, by decide⟩

theorem witness_SenderWakesAndSamples : ∃ (s s' : State) (p p' : Port),
    (s.blockStatus = .running ∧ s.port? 2 = some p ∧ p.phase = .sleep) ∧
    (s'.blockStatus = .running ∧ s'.port? 1 = some p' ∧ p'.phase = .sample ∧ s'.cfg.sampleGranularity = .atomic ∧
      p'.enabled = true ∧ p'.flowLevel = .asserted ∧ (p'.ring.get p'.head).length ≠ 0) :=
  ⟨State.reset, port1 atomic (sending .free .sample .asserted), Port.reset Config.default .low,
    sending .free .sample .asserted, by decide⟩

theorem witness_SenderSamplesFieldByField : ∃ (s s' s'' : State) (p p' p'' : Port),
    (s.blockStatus = .running ∧ s.port? 1 = some p ∧ p.phase = .sample ∧ s.cfg.sampleGranularity = .perField) ∧
    (s'.blockStatus = .running ∧ s'.port? 1 = some p' ∧ p'.phase = .sampleH .asserted) ∧
    (s''.blockStatus = .running ∧ s''.port? 1 = some p'' ∧ p''.phase = .sampleL .asserted 0) :=
  let p ph := sending .free ph .asserted
  ⟨port1 Config.default (p .sample), port1 Config.default (p (.sampleH .asserted)),
    port1 Config.default (p (.sampleL .asserted 0)), p .sample, p (.sampleH .asserted), p (.sampleL .asserted 0),
    by decide⟩

/-- A slot with a telegram, and an empty one. -/
theorem witness_AcquireReadsTheLengthAgain : ∃ (s s' : State) (p p' : Port),
    (s.blockStatus = .running ∧ s.port? 1 = some p ∧ p.phase = .acquire 0 ∧ (p.ring.get 0).guard = .free ∧
      (p.ring.get 0).length ≠ 0) ∧
    (s'.blockStatus = .running ∧ s'.port? 1 = some p' ∧ p'.phase = .acquire 1 ∧ (p'.ring.get 1).guard = .free ∧
      (p'.ring.get 1).length = 0) :=
  let p h := sending .free (.acquire h) .asserted
  ⟨port1 Config.default (p 0), port1 Config.default (p 1), p 0, p 1, by decide⟩

theorem witness_ByteIsSent : ∃ (s : State) (p : Port) (b : Byte),
    s.blockStatus = .running ∧ s.port? 1 = some p ∧ p.phase = .send 0 2 3 ∧ p.flowLevel = .asserted ∧
    s.memRead (.ring 1 0) 2 = .ok b :=
  let p := sending (.held (.tx 1)) (.send 0 2 3) .asserted
  ⟨port1 Config.default p, p, 0x21, by decide, by decide, by decide, by decide, by rfl⟩

/-- TX_BYTE's, TX_ABORT's and TX_DONE's case; also for TransmitLoopHasOneStep. -/
theorem witness_TransmissionEndsConsumeTheTelegram : ∃ (s s' s'' : State) (p p' p'' : Port),
    (s.blockStatus = .running ∧ s.port? 1 = some p ∧ p.phase = .send 0 2 3 ∧ (p.ring.get 0).guard = .held (.tx 1) ∧
      p.flowLevel = .asserted ∧ 3 ≤ s.cfg.bufSize ∧ Listed (p.ring.get 0).data 3) ∧
    (s'.blockStatus = .running ∧ s'.port? 1 = some p' ∧ p'.phase = .send 0 0 3 ∧ (p'.ring.get 0).guard = .held (.tx 1) ∧
      p'.flowLevel = .deasserted ∧ 3 ≤ s'.cfg.bufSize ∧ Listed (p'.ring.get 0).data 3) ∧
    (s''.blockStatus = .running ∧ s''.port? 1 = some p'' ∧ p''.phase = .send 0 3 3 ∧
      (p''.ring.get 0).guard = .held (.tx 1) ∧ 3 ≤ s''.cfg.bufSize ∧ Listed (p''.ring.get 0).data 3) :=
  let p i f := sending (.held (.tx 1)) (.send 0 i 3) f
  ⟨port1 Config.default (p 2 .asserted), port1 Config.default (p 0 .deasserted), port1 Config.default (p 3 .deasserted),
    p 2 .asserted, p 0 .deasserted, p 3 .deasserted, by decide⟩

theorem witness_WholeTelegramIsSent : ∃ (s : State) (p : Port) (bytes : List Byte),
    s.blockStatus = .running ∧ s.port? 1 = some p ∧ p.phase = .send 0 0 3 ∧ p.flowLevel = .asserted ∧
    (p.ring.get 0).guard = .held (.tx 1) ∧ readRange s.cfg.bufSize (p.ring.get 0).data 3 = .ok bytes ∧
    s.agenda = turns (.tx 1) (3 + 1) :=
  let p := sending (.held (.tx 1)) (.send 0 0 3) .asserted
  ⟨{ port1 Config.default p with agenda := turns (.tx 1) 4 }, p, asciiOf "/X!", by decide, by decide, by decide,
    by decide, by decide, by rfl, by rfl⟩

/-- A transition to Asserted, and none. -/
theorem witness_FlowEdgeStoresTheLevel : ∃ (s s' : State) (p p' : Port),
    (s.blockStatus = .running ∧ s.port? 2 = some p ∧ p.flowLevel = .deasserted) ∧
    (s'.blockStatus = .running ∧ s'.port? 1 = some p' ∧ p'.flowLevel = .asserted) :=
  ⟨State.reset, port1 Config.default ready, Port.reset Config.default .low, ready, by decide⟩

theorem witness_ControlWritesOneField : ∃ (s : State) (p : Port),
    s.blockStatus = .running ∧ s.ctrl.phase = .idle ∧ s.port? 2 = some p :=
  ⟨State.reset, Port.reset Config.default .low, by decide⟩

/-- K7. -/
theorem witness_MalformedCommandChangesNothing : ∃ (s : State) (line : List Byte),
    s.blockStatus = .running ∧ s.ctrl.phase = .idle ∧ parseCommand s.cfg.n line = .cmdMalformed line :=
  ⟨State.reset, asciiOf "enable 3", by decide⟩

theorem witness_DumpTakesItsThreeSteps : ∃ (s s' s'' : State) (snap : List Byte),
    (s.blockStatus = .running ∧ s.ctrl.phase = .idle ∧ (s.slot? (.ring 2 2)).isSome = true) ∧
    (s'.blockStatus = .running ∧ s'.slot? .rx = some (slotOf .free "/X!") ∧ s'.ctrl.phase = .dump .rx ∧
      len "/X!" ≤ s'.cfg.bufSize ∧ Listed (memOf "/X!") (len "/X!")) ∧
    (s''.blockStatus = .running ∧ s''.slot? .rx = some (slotOf (.held .ctrl) "/X!") ∧
      s''.ctrl.phase = .dumpRel .rx snap) :=
  ⟨State.reset, controlling .free (.dump .rx), controlling (.held .ctrl) (.dumpRel .rx (asciiOf "/X!")), asciiOf "/X!",
    by decide⟩

/-- The accepting step, the first slot, the last slot, the end. -/
theorem witness_StatsReadsSlotBySlot : ∃ (s0 s1 s2 : State) (p : Port),
    (s0.blockStatus = .running ∧ s0.ctrl.phase = .stats 0 [] ∧ s0.rx.slot.guard = .free ∧ 1 ≤ s0.cfg.n) ∧
    (s1.blockStatus = .running ∧ s1.port? 2 = some p ∧ (p.ring.get 2).guard = .free ∧
      s1.ctrl.phase = .stats (3 * (2 - 1) + (2 : RingIdx).val + 1) [3, 0, 0, 0, 0, 0]) ∧
    (s2.blockStatus = .running ∧ s2.ctrl.phase = .statsEnd (3 :: [0, 0, 0, 0, 0, 0]) ∧
      [0, 0, 0, 0, 0, 0].length = 3 * s2.ports.length) :=
  ⟨controlling .free (.stats 0 []), controlling .free (.stats 6 [3, 0, 0, 0, 0, 0]),
    controlling .free (.statsEnd [3, 0, 0, 0, 0, 0, 0]), Port.reset Config.default .low, by decide⟩

theorem witness_StatsAnswersInItsSteps : ∃ s : State,
    s.blockStatus = .running ∧ s.ports.length = s.cfg.n ∧ 1 ≤ s.cfg.n ∧ s.ctrl.phase = .idle ∧
    s.rx.slot.guard = .free ∧ (∀ k p, s.port? k = some p → ∀ i, (p.ring.get i).guard = .free) ∧
    s.agenda = .word (encode .cmdStats) :: turns .ctrl (3 * s.cfg.n + 2) := by
  refine ⟨{ State.reset with agenda := .word (encode .cmdStats) :: turns .ctrl 8 }, by decide, by decide, by decide,
    by decide, by decide, fun k p h => ?_, by rfl⟩
  match k with
  | 0 => simp [State.port?] at h
  | 1 => obtain rfl := Option.some.inj h; decide
  | 2 => obtain rfl := Option.some.inj h; decide
  | k + 3 => exact absurd h (by simp [State.port?, State.reset, State.resetOf, State.resetFields, State.initialise,
      Port.resetAll, Config.default])

/-- A host row that completes. -/
theorem witness_HostReachesOnlyControlFields : isHostRow (.ctrlDumpAcq .rx) = true ∧
    gives (.ctrlDumpAcq .rx) (controlling .free (.dump .rx)) (fun _ => true) := by decide

theorem witness_StepRunsTheDecodedWord :
    (∃ (s : State) (w : List Byte) (rest : List Item) (i : Instr), s.agenda = .word w :: rest ∧
      decode s.cfg w = .ok i) ∧
    ∃ (s : State) (i : Instr), s.cfg = Config.default ∧ decodeTableWord 8 0x2F = some i :=
  ⟨⟨State.reset.pushWord (asciiOf "TICK_TX 1"), asciiOf "TICK_TX 1", [], .tickTx 1, by rfl, by rfl⟩,
    ⟨State.reset, .byteStart, by decide⟩⟩

theorem witness_StepRunsTheSelectedStep :
    (∃ (s : State) (i : Instr) (rest : List Item), s.agenda = .agent .rx :: rest ∧ selected .rx s = some i) ∧
    (∃ (s : State) (rest : List Item), s.agenda = .agent .ctrl :: rest ∧ selected .ctrl s = none) ∧
    ∃ s : State, s.agenda = [] :=
  ⟨⟨fanningOut, .rxOfferTry 1, turns .rx 8, by decide⟩, ⟨{ State.reset with agenda := [.agent .ctrl] }, [], by decide⟩,
    ⟨State.reset, by decide⟩⟩

/-- Port N has reset values to speak of. -/
theorem witness_ResetLeavesTheseFields : ((State.resetOf Config.default [.high]).port? 2).isSome = true := by decide

theorem witness_ResetMeetsTheInvariant : Config.default.valid ∧ failing.valid := by decide

/-- The invariant holds where a step is taken; also for NoStepFaults, SelectedStepCompletes, GuardHoldersCanMove and
EventsAreEnabledAsListed. -/
theorem witness_StepKeepsTheInvariant :
    BlockInv fanningOut ∧ steps fanningOut (fun t => t.rx.phase == .copy 1 1) = true ∧
    selected .rx fanningOut = some (.rxOfferTry 1) ∧ fanningOut.holds .rx .rx = true :=
  ⟨fanningOut_inv, by decide⟩

/-- RX waiting for its read holds the receiver slot's guard; a byte is stored there, a timeout empties the slot. -/
theorem witness_ReceiverSlotChangesOnlyInARead :
    BlockInv (reading Config.default .awaitingTerminator "/A") ∧
    gives .byteEnd (reading Config.default .awaitingTerminator "/A")
      (fun t => t.rx.slot.data != memOf "/A") = true :=
  ⟨⟨by decide, by decide, by decide, by decide, by decide, by decide, by decide, by decide, by decide, by decide⟩, by decide⟩

/-- Halted, for each clause. -/
theorem witness_HaltedBlockTakesNoStep :
    (at' failing).blockStatus = .halted ∧ isByteRow (.byteOther 0) = true ∧ ((at' failing).port? 2).isSome = true ∧
    isByteRow .tickRx = false := by decide

theorem witness_EnabledStepIsTheSelectedOne :
    fanningOut.ports.length = fanningOut.cfg.n ∧ agentOf (.rxOfferTry 1) = some .rx ∧
    gives (.rxOfferTry 1) fanningOut (fun _ => true) := by decide

/-- An Acquire that is taken, then each agent waiting for a held guard with its turn on the agenda. -/
theorem witness_AcquireWaitsForAFreeGuard :
    gives (.txAcquire 1 0) (port1 Config.default (sending .free (.acquire 0) .asserted)) (fun _ => true) = true ∧
    (∃ (s : State) (rest : List Item), s.agenda = .agent .rx :: rest ∧ s.rx.phase = .start ∧ s.rx.enabled = true ∧
      s.guardFree .rx = false) ∧
    (∃ (s : State) (rest : List Item) (p : Port), s.agenda = .agent (.tx 1) :: rest ∧ s.port? 1 = some p ∧
      p.phase = .acquire 0 ∧ s.guardFree (.ring 1 0) = false) ∧
    (∃ (s : State) (rest : List Item), s.agenda = .agent .ctrl :: rest ∧ s.ctrl.phase = .dump .rx ∧
      s.guardFree .rx = false) ∧
    ∃ (s : State) (rest : List Item), s.agenda = .agent .ctrl :: rest ∧ s.ctrl.phase = .stats 0 [] ∧
      s.guardFree (statsSlot 0) = false :=
  let held := controlling (.held .ctrl) .idle
  let p := sending (.held .ctrl) (.acquire 0) .asserted
  ⟨by decide, ⟨{ held with rx := { held.rx with phase := .start }, agenda := [.agent .rx] }, [], by decide⟩,
    ⟨{ port1 Config.default p with agenda := [.agent (.tx 1)] }, [], p, by decide⟩,
    ⟨{ controlling (.held .rx) (.dump .rx) with agenda := [.agent .ctrl] }, [], by decide⟩,
    ⟨{ controlling (.held .rx) (.stats 0 []) with agenda := [.agent .ctrl] }, [], by decide⟩⟩

/-- RX_COPY and TX_DONE change a ring slot; also for BytesChangeOnlyWhereStored. -/
theorem witness_RingSlotsChangeOnlyUnderTheirGuard :
    gives (.rxCopy 1 1)
      ((offering (.copy 1 1) "/X!").setPort 1 { ready with ring := { ready.ring with s1 := ⟨.held .rx, [], 0⟩ } })
      (portIs 1 fun p => p.ring.s1.data != [] && p.ring.s1.length != 0) ∧
    gives (.txDone 1 0 3) (port1 Config.default (sending (.held (.tx 1)) (.send 0 3 3) .asserted))
      (portIs 1 fun p => p.ring.s0.length != 3) := by decide

/-- Rows that complete and fields that move; also for ParametersAndStatusNeverChange. -/
theorem witness_FieldsHaveOneWriter :
    gives .timeout (reading Config.default .synchronizing "") (fun t => t.rx.cntFailedTimeout != 0) ∧
    gives (.flowEdge 1 .high) State.reset (portIs 1 fun p => p.requested != 0) ∧
    gives (.cmdDisable 0) State.reset (fun t => t.rx.enabled != State.reset.rx.enabled) ∧
    gives (.cmdInterval 0 1000) State.reset (fun t => t.rx.interval != State.reset.rx.interval) := by decide

/-- A ring that holds one telegram, delivered and counted. -/
theorem witness_EndedTelegramsNeverExceedDelivered : ∃ (s : State) (p : Port),
    BlockInv s ∧ s.port? 1 = some p ∧ LedgerOk s 1 p ∧ p.ring.nonEmpty = 1 ∧ p.copied = 1 ∧
    steps s (fun _ => true) = true :=
  let p := { sending .free .sleep .asserted with copied := 1 }
  ⟨port1 Config.default p, p,
    ⟨by decide, by decide, by decide, by decide, by decide, by decide, by decide, by decide, by decide, by decide⟩,
    by decide⟩

end Sys2Proof.Tests
end

/-! # Faults, waiting and fixed fields

What the invariant gives about slots and guards, and the bodies that answer because of it; from these, that no step
faults. Then what a turn on the agenda does, and when an `Acquire` is taken. -/

section
namespace Sys2Proof.Machine

/-! ### What the invariant says of ports, slots and guards -/

theorem BlockInv.invPort {s : State} {k : Nat} {p : Port} (h : BlockInv s) (hk : s.port? k = some p) :
    InvPort s k p := by
  obtain ⟨-, hlen, -, -, -, -, -, -, -, hports⟩ := h
  have hb := port?_some_bounds hk
  exact hports k (by omega) p hk

/-- The guard of a ring slot is held by exactly the agent whose phase says so (R66). -/
theorem BlockInv.ring_guardOk {s : State} {k : Nat} {p : Port} (h : BlockInv s) (hk : s.port? k = some p) (i : RingIdx) :
    ringGuardOk s k p i = true := by
  obtain ⟨hslots, -⟩ := h.invPort hk
  obtain ⟨-, -, hguard⟩ := hslots i
  exact hguard

/-- Every slot of a state of the invariant is in good order (R29, R44). -/
theorem BlockInv.slotOk {s : State} {g : SlotRef} {sl : Slot} (h : BlockInv s) (hg : s.slot? g = some sl) :
    SlotOk s.cfg.bufSize sl := by
  cases g with
  | rx =>
    obtain ⟨-, -, -, -, -, hrx, -⟩ := h
    cases hg
    exact hrx
  | ring k i =>
    obtain ⟨p, hk, rfl⟩ := slot?_ring_eq_some.mp hg
    obtain ⟨hslots, -⟩ := h.invPort hk
    obtain ⟨hslot, -⟩ := hslots i
    exact hslot

/-- In the phases of a read and of a fan-out RX holds `rx_slot.guard` (R130, R153, R156). -/
theorem BlockInv.rxSlot_held {s : State} (h : BlockInv s) (hp : s.rx.phase.holdsSlot = true) :
    s.rx.slot.guard = .held .rx := by
  obtain ⟨-, -, -, -, -, -, hguard, -⟩ := h
  unfold rxGuardOk at hguard
  split at hguard <;> simp_all

/-- In the phases of a copy RX holds the ring slot's guard (R154, R159). -/
theorem BlockInv.ring_held_rx {s : State} {k : Nat} {i : RingIdx} {p : Port} (h : BlockInv s) (hk : s.port? k = some p)
    (hp : s.rx.phase.holdsRing k i = true) : (p.ring.get i).guard = .held .rx := by
  have hguard := h.ring_guardOk hk i
  unfold ringGuardOk at hguard
  split at hguard <;> simp_all

/-- While it sends a slot TX(k) holds its guard (R182, R184, R185). -/
theorem BlockInv.ring_held_tx {s : State} {k : Nat} {i : RingIdx} {p : Port} (h : BlockInv s) (hk : s.port? k = some p)
    (hp : p.phase.holdsRing i = true) : (p.ring.get i).guard = .held (.tx k) := by
  have hguard := h.ring_guardOk hk i
  unfold ringGuardOk at hguard
  split at hguard <;> simp_all

/-- Between the two steps of a dump CTRL holds the slot's guard, and the slot exists (R214). -/
theorem BlockInv.slot_held_ctrl {s : State} {g : SlotRef} {snap : List Byte} (h : BlockInv s)
    (hp : s.ctrl.phase = .dumpRel g snap) : ∃ sl, s.slot? g = some sl ∧ sl.guard = .held .ctrl := by
  have hholds : s.ctrl.phase.holdsSlot g = true := by simp [hp, CtrlPhase.holdsSlot]
  have hinv := h
  obtain ⟨-, hlen, -, -, -, -, hrx, -, hctrl, -⟩ := h
  cases g with
  | rx =>
    refine ⟨s.rx.slot, rfl, ?_⟩
    unfold rxGuardOk at hrx
    split at hrx <;> simp_all
  | ring k i =>
    simp only [ctrlPhaseOk, hp, slotInRange, portInRange, Bool.and_eq_true, decide_eq_true_eq] at hctrl
    obtain ⟨p, hk⟩ := port?_exists hctrl.1 (hlen ▸ hctrl.2)
    refine ⟨_, slot?_ring i hk, ?_⟩
    have hguard := hinv.ring_guardOk hk i
    unfold ringGuardOk at hguard
    split at hguard <;> simp_all

/-- The telegram RX copies lies in the receiver's space and has been written (R153, R157). -/
theorem BlockInv.telegram_listed {s : State} {k : Nat} {i : RingIdx} (h : BlockInv s) (hp : s.rx.phase = .copy k i) :
    s.rx.n ≤ s.cfg.bufSize ∧ Listed s.rx.slot.data s.rx.n := by
  obtain ⟨-, -, -, -, -, ⟨-, -, hlen, hlisted⟩, -, hphase, -⟩ := h
  have hn : s.rx.n = s.rx.slot.length := by simp_all [rxPhaseOk, telegramOk]
  exact hn ▸ ⟨hlen, hlisted⟩

/-- TX(k) sends the bytes 0..len-1 of a slot whose length is len (R182). -/
theorem BlockInv.send_length {s : State} {k : Nat} {p : Port} {i : RingIdx} {j len : Nat} (h : BlockInv s)
    (hk : s.port? k = some p) (hp : p.phase = .send i j len) : (p.ring.get i).length = len := by
  obtain ⟨-, hphase, -⟩ := h.invPort hk
  simp_all [txPhaseOk]

/-- The invariant does not speak of the agenda. -/
theorem BlockInv.setAgenda {s : State} (h : BlockInv s) (rest : List Item) : BlockInv (s.setAgenda rest) := h

/-! ### Operations that answer -/

theorem release_answers {s : State} {a : Agent} {g : SlotRef} {sl : Slot} (hg : s.slot? g = some sl)
    (hh : sl.guard = .held a) : ∃ t, s.release a g = .ok t := ⟨_, release_eq_ok.mpr ⟨sl, hg, hh, rfl⟩⟩

/-- A computation answers when its first part does and the rest always does. -/
theorem bind_answers {α β : Type} {x : Except Fault α} {f : α → Except Fault β} (hx : ∃ a, x = .ok a)
    (hf : ∀ a, ∃ b, f a = .ok b) : ∃ b, (x >>= f) = .ok b := by
  obtain ⟨a, ha⟩ := hx
  obtain ⟨b, hb⟩ := hf a
  exact ⟨b, bind_eq_ok.mpr ⟨a, ha, hb⟩⟩

/-- A byte that has room is stored (R123, R124). -/
theorem appendByte_answers {s : State} (b : Byte) (h : s.reader.idx < s.cfg.bufSize) : ∃ t, appendByte b s = .ok t :=
  ⟨_, appendByte_eq_ok.mpr ⟨h, rfl⟩⟩

/-- The first byte of a frame always has room, because `BUF_SIZE >= 1` (R8, R122). -/
theorem byteSynchronizing_answers {s : State} (b : Byte) (h : 1 ≤ s.cfg.bufSize) :
    ∃ t, byteSynchronizing b s = .ok t := by
  unfold byteSynchronizing
  split
  · exact bind_answers (appendByte_answers b h) fun _ => ⟨_, rfl⟩
  · exact ⟨_, rfl⟩

theorem byteAwaitingTerminator_answers (s : State) (b : Byte) : ∃ t, byteAwaitingTerminator b s = .ok t := by
  unfold byteAwaitingTerminator
  split
  · next hroom => exact bind_answers (appendByte_answers b hroom) fun _ => ⟨_, rfl⟩
  · exact ⟨_, rfl⟩

theorem byteAwaitingChecksumLine_answers (s : State) (b : Byte) : ∃ t, byteAwaitingChecksumLine b s = .ok t := by
  unfold byteAwaitingChecksumLine
  split
  · next hroom => exact bind_answers (appendByte_answers b hroom) fun _ => ⟨_, rfl⟩
  · exact ⟨_, rfl⟩

/-- Verify reads only bytes of the frame, which have been written (R108, R44). -/
theorem BlockInv.verify_answers {s : State} (h : BlockInv s) : ∃ res, verify s = .ok res := by
  obtain ⟨-, -, -, -, ⟨hidx, hlisted, -⟩, -⟩ := h
  unfold verify
  split
  · exact ⟨_, rfl⟩
  · exact bind_answers (readRange_answers hidx hlisted) fun _ => ⟨_, rfl⟩

/-- RxAccount answers while RX holds its slot's guard (R153). -/
theorem rxAccount_answers {s : State} (res : ReadResult) (hg : s.rx.slot.guard = .held .rx) :
    ∃ t, rxAccount res s = .ok t := by
  by_cases hres : ∃ n, res = .ok n
  · obtain ⟨n, rfl⟩ := hres
    exact ⟨_, rxAccount_ok s n⟩
  · exact ⟨_, (rxAccount_failed (not_exists.mp hres)).mpr ⟨hg, rfl⟩⟩

/-- RX_COPY reads only bytes of the telegram (R157). -/
theorem BlockInv.copyTelegram_answers {s : State} {k : Nat} {i : RingIdx} (h : BlockInv s) (hp : s.rx.phase = .copy k i)
    (p : Port) : ∃ t, copyTelegram s k i p = .ok t := by
  obtain ⟨hcap, hlisted⟩ := h.telegram_listed hp
  exact bind_answers (copyRange_answers hcap hlisted) fun _ => ⟨_, rfl⟩

/-- A transmission that TX(k) is in can end (R184, R185). -/
theorem BlockInv.endTransmission_answers {s : State} {k : Nat} {p q : Port} {i : RingIdx} {j len : Nat} (h : BlockInv s)
    (hk : s.port? k = some p) (hp : p.phase = .send i j len) (hq : q.ring = p.ring) :
    ∃ t, endTransmission s k i q = .ok t := by
  have hheld := h.ring_held_tx hk (i := i) (by simp [hp, TxPhase.holdsRing])
  exact ⟨_, (endTransmission_eq_ok hk).mpr ⟨hq ▸ hheld, rfl⟩⟩

/-- The byte TX(k) sends next has been written (R183). -/
theorem BlockInv.memRead_send_answers {s : State} {k : Nat} {p : Port} {i : RingIdx} {j len : Nat} (h : BlockInv s)
    (hk : s.port? k = some p) (hp : p.phase = .send i j len) (hj : j < len) : ∃ b, s.memRead (.ring k i) j = .ok b := by
  obtain ⟨-, -, hcap, hlisted⟩ := h.slotOk (slot?_ring i hk)
  have hlen := h.send_length hk hp
  obtain ⟨b, hb⟩ := Option.isSome_iff_exists.mp (hlisted j (by omega))
  exact ⟨b, state_memRead_eq_ok.mpr ⟨_, slot?_ring i hk, by omega, hb⟩⟩

/-- A dump reads only bytes of the slot (R214). -/
theorem BlockInv.snapshot_answers {s : State} {g : SlotRef} {sl : Slot} (h : BlockInv s) (hg : s.slot? g = some sl) :
    ∃ snap, snapshot s.cfg.bufSize sl = .ok snap := by
  obtain ⟨-, -, hcap, hlisted⟩ := h.slotOk hg
  exact readRange_answers hcap hlisted

/-! ### No row faults -/

theorem answer_ne_fault {e : Except Fault State} {f : Fault} (h : ∃ t, e = .ok t) : answer e ≠ .fault f := by
  obtain ⟨t, rfl⟩ := h
  simp

/-- A row faults in no state in which its body answers whenever it is enabled. -/
theorem whenEnabled_ne_fault {s : State} {en : Bool} {body : Except Fault State} {f : Fault}
    (h : en = true → ∃ t, body = .ok t) : whenEnabled s en body ≠ .fault f := by
  intro hf
  obtain ⟨-, hen, hbody⟩ := whenEnabled_eq_fault.mp hf
  obtain ⟨t, ht⟩ := h hen
  simp [ht] at hbody

theorem whenPortEnabled_ne_fault {s : State} {k : Nat} {en : Port → Bool} {body : Port → Except Fault State} {f : Fault}
    (h : ∀ p, s.port? k = some p → en p = true → ∃ t, body p = .ok t) : whenPortEnabled s k en body ≠ .fault f := by
  intro hf
  obtain ⟨p, hk, -, hen, hbody⟩ := whenPortEnabled_eq_fault.mp hf
  obtain ⟨t, ht⟩ := h p hk hen
  simp [ht] at hbody

theorem receiveByte_ne_fault {s : State} (b : Byte) (f : Fault) (h : 1 ≤ s.cfg.bufSize) :
    receiveByte b s ≠ .fault f := by
  unfold receiveByte
  split
  · simp
  · split
    · simp
    · simp
    · exact answer_ne_fault (byteSynchronizing_answers b h)
    · exact answer_ne_fault (byteAwaitingTerminator_answers s b)
    · exact answer_ne_fault (byteAwaitingChecksumLine_answers s b)

/-- READ_COMPLETE and TIMEOUT are taken in RxWait, where RX holds its slot's guard. -/
theorem BlockInv.rxAccount_readFinish_answers {s : State} (h : BlockInv s) (hp : s.rx.phase = .wait) (res : ReadResult) :
    ∃ t, rxAccount res (readFinish s) = .ok t :=
  rxAccount_answers res (h.rxSlot_held (by simp [hp, RxPhase.holdsSlot]))

theorem setEnabled_ne_fault (port : Nat) (v : Bool) (s : State) (f : Fault) : setEnabled port v s ≠ .fault f := by
  cases port with
  | zero => exact whenEnabled_ne_fault fun _ => ⟨_, rfl⟩
  | succ k => exact whenPortEnabled_ne_fault fun _ _ _ => ⟨_, rfl⟩

theorem execRxOfferTry_ne_fault (k : Nat) (s : State) (f : Fault) : execRxOfferTry k s ≠ .fault f := by
  refine whenPortEnabled_ne_fault fun p _ _ => ?_
  split
  · exact ⟨_, rfl⟩
  · exact ⟨_, rfl⟩

theorem execTxAcquire_ne_fault (k : Nat) (i : RingIdx) (s : State) (f : Fault) : execTxAcquire k i s ≠ .fault f := by
  refine whenPortEnabled_ne_fault fun p _ _ => ?_
  split
  · exact ⟨_, rfl⟩
  · exact ⟨_, rfl⟩

theorem execFlowEdge_ne_fault (k : Nat) (v : Level) (s : State) (f : Fault) : execFlowEdge k v s ≠ .fault f := by
  unfold execFlowEdge
  split
  · simp
  · split <;> simp

theorem execCtrlStatsSlot_ne_fault (j : Nat) (lens : List Nat) (s : State) (f : Fault) :
    execCtrlStatsSlot j lens s ≠ .fault f := by
  unfold execCtrlStatsSlot
  split
  · split <;> simp
  · exact whenEnabled_ne_fault fun _ => ⟨_, rfl⟩

theorem BlockInv.execCtrlDumpAcq_ne_fault {s : State} (h : BlockInv s) (g : SlotRef) (f : Fault) :
    execCtrlDumpAcq g s ≠ .fault f := by
  unfold execCtrlDumpAcq
  split
  · split <;> simp
  · next sl hg =>
    exact whenEnabled_ne_fault fun _ => bind_answers (h.snapshot_answers hg) fun _ => ⟨_, rfl⟩

/-- No row faults in a state of the invariant (R13, R44, R63). -/
theorem BlockInv.exec_ne_fault {s : State} (h : BlockInv s) (i : Instr) (f : Fault) : exec i s ≠ .fault f := by
  have ⟨⟨_, hbuf⟩, _⟩ := h
  cases i with
  | byteStart => exact receiveByte_ne_fault slash f hbuf
  | byteEnd => exact receiveByte_ne_fault bang f hbuf
  | byteLf => exact receiveByte_ne_fault lineFeed f hbuf
  | byteOther b => exact receiveByte_ne_fault b f hbuf
  | timeout =>
    refine whenEnabled_ne_fault fun hen => h.rxAccount_readFinish_answers ?_ _
    simp_all
  | readComplete =>
    refine whenEnabled_ne_fault fun hen => bind_answers h.verify_answers fun res => h.rxAccount_readFinish_answers ?_ res
    simp_all
  | rxOfferTry k => exact execRxOfferTry_ne_fault k s f
  | rxCopy k i =>
    refine whenPortEnabled_ne_fault fun p hk hen => h.copyTelegram_answers ?_ p
    simp_all
  | rxRelease k i =>
    refine whenPortEnabled_ne_fault fun p hk hen => bind_answers ?_ fun _ => ⟨_, rfl⟩
    exact release_answers (slot?_ring i hk) (h.ring_held_rx hk (by simp_all [RxPhase.holdsRing]))
  | rxDone =>
    refine whenEnabled_ne_fault fun hen => bind_answers ?_ fun _ => ⟨_, rfl⟩
    exact release_answers rfl (h.rxSlot_held (by simp_all [RxPhase.holdsSlot]))
  | txAcquire k i => exact execTxAcquire_ne_fault k i s f
  | txByte k i j len =>
    refine whenPortEnabled_ne_fault fun p hk hen => bind_answers ?_ fun _ => ⟨_, rfl⟩
    simp only [Bool.and_eq_true, beq_iff_eq, decide_eq_true_eq] at hen
    exact h.memRead_send_answers hk hen.1.1 hen.1.2
  | txAbort k i j len =>
    refine whenPortEnabled_ne_fault fun p hk hen => ?_
    simp only [Bool.and_eq_true, beq_iff_eq] at hen
    exact h.endTransmission_answers hk hen.1.1 rfl
  | txDone k i len =>
    exact whenPortEnabled_ne_fault fun p hk hen => h.endTransmission_answers hk (by simpa using hen) rfl
  | ctrlDumpAcq g => exact h.execCtrlDumpAcq_ne_fault g f
  | ctrlDumpRel g snap =>
    refine whenEnabled_ne_fault fun hen => bind_answers ?_ fun _ => ⟨_, rfl⟩
    obtain ⟨sl, hg, hheld⟩ := h.slot_held_ctrl (by simpa using hen)
    exact release_answers hg hheld
  | ctrlStatsSlot j lens => exact execCtrlStatsSlot_ne_fault j lens s f
  | flowEdge k v => exact execFlowEdge_ne_fault k v s f
  | cmdEnable port => exact setEnabled_ne_fault port true s f
  | cmdDisable port => exact setEnabled_ne_fault port false s f
  | cmdInterval port ms =>
    cases port with
    | zero => exact whenEnabled_ne_fault fun _ => ⟨_, rfl⟩
    | succ k => exact whenPortEnabled_ne_fault fun _ _ _ => ⟨_, rfl⟩
  | cmdDump g =>
    cases g with
    | rx => exact whenEnabled_ne_fault fun _ => ⟨_, rfl⟩
    | ring k i => exact whenPortEnabled_ne_fault fun _ _ _ => ⟨_, rfl⟩
  | tickRx | rxSkip | readArm | ctrlStatsEnd | cmdStats | cmdMalformed =>
    exact whenEnabled_ne_fault fun _ => ⟨_, rfl⟩
  | tickTx | rxOfferSkip | rxAdvance | txSample | txSampleFlow | txSampleHead | txSampleLen =>
    exact whenPortEnabled_ne_fault fun _ _ _ => ⟨_, rfl⟩

/-- Settles O46: a step faults only in a row, and no row faults in a state of the invariant. -/
theorem noStepFaults : Obligations.NoStepFaults := by
  intro s f h hf
  obtain ⟨i, rest, -, hexec⟩ := step_fault_cases hf
  exact (h.setAgenda rest).exec_ne_fault i f hexec

/-! ### Fields no row writes -/

/-- Settles O47, by cases on the effect of the row: each replaces the reader, the receiver port, CTRL's registers, one
sender port or one slot. -/
theorem parametersAndStatusNeverChange : Obligations.ParametersAndStatusNeverChange := by
  intro i s t e
  cases exec_effect e
  case byteIgnored | byteNoRoom | byteStored | timeout | readOk | readFailed | tickRx | rxSkip | readArm | offerSkip |
      offerBusy | rxDone | ctrlOnly | rxEnabled | rxInterval =>
    exact ⟨rfl, rfl, rfl⟩
  case offerTaken | copy | advance | release | tickTx | txSample | txSampleFlow | txSampleHead | txSampleLen |
      acquireEmpty | acquire | txByte | txAbort | txDone | flowEdge | flowEdgeHalted | portEnabled | portInterval =>
    exact ⟨setPort_cfg .., setPort_blockStatus .., setPort_agenda ..⟩
  case dumpAcq | dumpRel =>
    exact ⟨setSlot_cfg .., setSlot_blockStatus .., setSlot_agenda ..⟩

/-! ### An agent's turn -/

theorem step_agent_of_selected {s : State} {a : Agent} {rest : List Item} {i : Instr} (ha : s.agenda = .agent a :: rest)
    (hi : selected a s = some i) : step s = exec i (s.setAgenda rest) :=
  step_run (by simp [fetch, ha, hi])

/-- An agent without an enabled step only loses its turn (R13; log 3). -/
theorem step_agent_of_not_selected {s : State} {a : Agent} {rest : List Item} (ha : s.agenda = .agent a :: rest)
    (hn : selected a s = none) : step s = .next (s.setAgenda rest) := by
  simp [step, fetch, ha, hn]

theorem step_of_agenda_nil {s : State} (ha : s.agenda = []) : step s = .next s := by
  simp [step, fetch, ha]

/-- Settles O42: the three forms of a fetch that is no word. -/
theorem stepRunsTheSelectedStep : Obligations.StepRunsTheSelectedStep :=
  ⟨fun _ _ _ _ => step_agent_of_selected, fun _ _ _ => step_agent_of_not_selected, fun _ => step_of_agenda_nil⟩

/-! ### Acquiring a guard -/

theorem guardFree_of_slot? {s : State} {g : SlotRef} {sl : Slot} (hg : s.slot? g = some sl) :
    s.guardFree g = (sl.guard == .free) := by
  simp [State.guardFree, hg]

theorem guardFree_of_execReadArm {s t : State} (e : execReadArm s = .next t) :
    s.guardFree .rx = true ∧ s.reader.lock = .free := by
  obtain ⟨-, hen, -⟩ := whenEnabled_eq_next.mp e
  simp only [Bool.and_eq_true, beq_iff_eq] at hen
  obtain ⟨⟨-, hlock⟩, hguard⟩ := hen
  exact ⟨guardFree_eq_true.mpr ⟨_, rfl, hguard⟩, hlock⟩

theorem guardFree_of_execTxAcquire {s t : State} {k : Nat} {h : RingIdx} (e : execTxAcquire k h s = .next t) :
    s.guardFree (.ring k h) = true := by
  obtain ⟨p, hk, -, hen, -⟩ := whenPortEnabled_eq_next.mp e
  simp only [Bool.and_eq_true, beq_iff_eq] at hen
  exact guardFree_eq_true.mpr ⟨_, slot?_ring h hk, hen.2⟩

theorem guardFree_of_execCtrlDumpAcq {s t : State} {g : SlotRef} (e : execCtrlDumpAcq g s = .next t) :
    s.guardFree g = true := by
  unfold execCtrlDumpAcq at e
  split at e
  · split at e <;> cases e
  · next sl hg =>
    obtain ⟨-, hen, -⟩ := whenEnabled_eq_next.mp e
    simp only [Bool.and_eq_true, beq_iff_eq] at hen
    exact guardFree_eq_true.mpr ⟨sl, hg, hen.2⟩

theorem guardFree_of_execCtrlStatsSlot {s t : State} {j : Nat} {lens : List Nat}
    (e : execCtrlStatsSlot j lens s = .next t) : s.guardFree (statsSlot j) = true := by
  unfold execCtrlStatsSlot at e
  split at e
  · split at e <;> cases e
  · next sl hg =>
    obtain ⟨-, hen, -⟩ := whenEnabled_eq_next.mp e
    simp only [Bool.and_eq_true, beq_iff_eq] at hen
    exact guardFree_eq_true.mpr ⟨sl, hg, hen.2⟩

/-- RX that is to arm a read waits for `rx_slot.guard` (R130). -/
theorem selected_rx_waiting {s : State} (hp : s.rx.phase = .start) (hen : s.rx.enabled = true)
    (hg : s.guardFree .rx = false) : selected .rx s = none := by
  have hguard : s.rx.slot.guard ≠ .free := by simpa [guardFree_of_slot? (slot?_rx s)] using hg
  simp [selected, selectedRx, hp, hen, hguard]

/-- TX(k) that is to acquire a slot waits for its guard (R182). -/
theorem selected_tx_waiting {s : State} {k : Nat} {h : RingIdx} {p : Port} (hk : s.port? k = some p)
    (hp : p.phase = .acquire h) (hg : s.guardFree (.ring k h) = false) : selected (.tx k) s = none := by
  have hguard : (p.ring.get h).guard ≠ .free := by simpa [guardFree_of_slot? (slot?_ring h hk)] using hg
  simp [selected, hk, selectedTx, hp, hguard]

/-- CTRL that is to dump a slot waits for its guard (R214). -/
theorem selected_ctrl_waiting_dump {s : State} {g : SlotRef} (hp : s.ctrl.phase = .dump g)
    (hg : s.guardFree g = false) : selected .ctrl s = none := by
  simp [selected, selectedCtrl, hp, hg]

/-- CTRL that is to read a slot's length for `stats` waits for its guard (R215). -/
theorem selected_ctrl_waiting_stats {s : State} {j : Nat} {lens : List Nat} (hp : s.ctrl.phase = .stats j lens)
    (hg : s.guardFree (statsSlot j) = false) : selected .ctrl s = none := by
  simp [selected, selectedCtrl, hp, hg]

/-- Settles O53: each of the four rows tests its guard, and an agent that waits for one has no step selected. -/
theorem acquireWaitsForAFreeGuard : Obligations.AcquireWaitsForAFreeGuard := fun _ _ =>
  ⟨guardFree_of_execReadArm,
    fun _ _ => guardFree_of_execTxAcquire,
    fun _ => guardFree_of_execCtrlDumpAcq,
    fun _ _ => guardFree_of_execCtrlStatsSlot,
    fun _ =>
      ⟨fun ha hp hen hg => step_agent_of_not_selected ha (selected_rx_waiting hp hen hg),
        fun _ _ _ ha hk hp hg => step_agent_of_not_selected ha (selected_tx_waiting hk hp hg),
        fun _ ha hp hg => step_agent_of_not_selected ha (selected_ctrl_waiting_dump hp hg),
        fun _ _ ha hp hg => step_agent_of_not_selected ha (selected_ctrl_waiting_stats hp hg)⟩⟩

end Sys2Proof.Machine
end

/-! # Halted, reset and single writers

What a halted block answers, what the fields hold right after reset, and which row writes which field. -/

section
namespace Sys2Proof.Machine

/-! ### One port replaced -/

theorem onlyPort_setPort {s : State} {k : Nat} {p : Port} (q : Port) (hk : s.port? k = some p) :
    OnlyPort s (s.setPort k q) k q := by
  refine ⟨?_, setPort_ports_length .., port?_setPort_self q hk, fun j hj => port?_setPort_ne q hj⟩
  cases k <;> rfl

/-- Settles O34: the edge handler is the port of the statement. -/
theorem flowEdgeStoresTheLevel : Obligations.FlowEdgeStoresTheLevel := by
  intro s k v p hr hk
  refine ⟨_, by simp [exec, execFlowEdge, hk, hr]; rfl, ?_⟩
  have hq : edgeHandler s.cfg v { p with flowIn := v } =
      { p with
        flowIn := v
        flowLevel := if v = s.cfg.flowActiveLevel then .asserted else .deasserted
        requested :=
          if p.flowLevel = .deasserted ∧ v = s.cfg.flowActiveLevel then p.requested + 1 else p.requested } := by
    by_cases hv : v = s.cfg.flowActiveLevel <;> simp [edgeHandler, isRequest, flowOf, hv]
  exact hq ▸ onlyPort_setPort _ hk

/-! ### Halted -/

@[simp] theorem whenEnabled_of_halted {s : State} (h : s.blockStatus = .halted) (en : Bool)
    (body : Except Fault State) : whenEnabled s en body = .refused .halted := by simp [whenEnabled, h]

@[simp] theorem whenPortEnabled_of_halted {s : State} (h : s.blockStatus = .halted) (k : Nat) (en : Port → Bool)
    (body : Port → Except Fault State) : whenPortEnabled s k en body = .refused .halted := by
  unfold whenPortEnabled
  split <;> simp [h]

theorem receiveByte_of_halted {s : State} (h : s.blockStatus = .halted) (b : Byte) : receiveByte b s = .next s := by
  simp [receiveByte, h]

theorem execFlowEdge_of_halted {s : State} {k : Nat} {p : Port} (h : s.blockStatus = .halted) (hk : s.port? k = some p)
    (v : Level) : execFlowEdge k v s = .next (s.setPort k { p with flowIn := v }) := by simp [execFlowEdge, hk, h]

theorem exec_byteRow_of_halted {s : State} {i : Instr} (h : s.blockStatus = .halted) (hi : isByteRow i = true) :
    exec i s = .next s := by
  cases i with
  | byteStart | byteEnd | byteLf | byteOther => exact receiveByte_of_halted h _
  | _ => cases hi

theorem setEnabled_of_halted {s : State} (h : s.blockStatus = .halted) (port : Nat) (v : Bool) :
    setEnabled port v s = .refused .halted := by
  cases port with
  | zero => exact whenEnabled_of_halted h ..
  | succ k => exact whenPortEnabled_of_halted h ..

theorem execCtrlDumpAcq_of_halted {s : State} (h : s.blockStatus = .halted) (g : SlotRef) :
    execCtrlDumpAcq g s = .refused .halted := by
  unfold execCtrlDumpAcq
  split <;> simp [h]

theorem execCtrlStatsSlot_of_halted {s : State} (h : s.blockStatus = .halted) (j : Nat) (lens : List Nat) :
    execCtrlStatsSlot j lens s = .refused .halted := by
  unfold execCtrlStatsSlot
  split <;> simp [h]

/-- Every row with an enabling condition is refused in Halted (R21; log 11). -/
theorem exec_refused_of_halted {s : State} {i : Instr} (h : s.blockStatus = .halted) (hb : isByteRow i = false)
    (hf : ∀ k v, i ≠ .flowEdge k v) : exec i s = .refused .halted := by
  cases i with
  | byteStart | byteEnd | byteLf | byteOther => cases hb
  | flowEdge k v => exact absurd rfl (hf k v)
  | cmdEnable port => exact setEnabled_of_halted h port true
  | cmdDisable port => exact setEnabled_of_halted h port false
  | cmdInterval port ms =>
    cases port with
    | zero => exact whenEnabled_of_halted h ..
    | succ k => exact whenPortEnabled_of_halted h ..
  | cmdDump g =>
    cases g with
    | rx => exact whenEnabled_of_halted h ..
    | ring k i => exact whenPortEnabled_of_halted h ..
  | ctrlDumpAcq g => exact execCtrlDumpAcq_of_halted h g
  | ctrlStatsSlot j lens => exact execCtrlStatsSlot_of_halted h j lens
  | timeout | tickRx | rxSkip | readArm | readComplete | rxDone | ctrlDumpRel | ctrlStatsEnd | cmdStats |
      cmdMalformed =>
    exact whenEnabled_of_halted h ..
  | tickTx | rxOfferSkip | rxOfferTry | rxCopy | rxAdvance | rxRelease | txSample | txSampleFlow | txSampleHead |
      txSampleLen | txAcquire | txByte | txAbort | txDone =>
    exact whenPortEnabled_of_halted h ..

/-- Settles O48: the BYTE rows, FLOW_EDGE and the rows with an enabling condition. -/
theorem haltedBlockTakesNoStep : Obligations.HaltedBlockTakesNoStep := by
  intro i s h
  refine ⟨exec_byteRow_of_halted h, ?_, exec_refused_of_halted h⟩
  rintro k v p rfl hk
  exact ⟨_, execFlowEdge_of_halted h hk v, onlyPort_setPort _ hk⟩

/-- A row that is neither a BYTE row nor FLOW_EDGE takes a step only while the block runs (R21). -/
theorem running_of_exec {s t : State} {i : Instr} (e : exec i s = .next t) (hb : isByteRow i = false)
    (hf : ∀ k v, i ≠ .flowEdge k v) : s.blockStatus = .running := by
  cases hs : s.blockStatus with
  | running => rfl
  | halted => simp [exec_refused_of_halted hs hb hf] at e

/-! ### Reset -/

/-- Initialisation decides only the block status (R271, R272). -/
theorem resetOf_eq (c : Config) (pins : List Level) :
    State.resetOf c pins =
      { State.resetFields c pins with blockStatus := if c.initOutcome = .fail then .halted else .running } := by
  unfold State.resetOf State.initialise
  cases h : c.initOutcome <;> simp [State.resetFields, State.raiseInitError, h]

theorem resetAll_length (c : Config) (pins : List Level) (n : Nat) : (Port.resetAll c pins n).length = n := by
  simp [Port.resetAll]

/-- Every sender port stands at its reset values, its pin read from the environment (R270; 93 I16). -/
theorem resetOf_port? {c : Config} {pins : List Level} {k : Nat} {p : Port}
    (hk : (State.resetOf c pins).port? k = some p) : p = Port.reset c (pins.getD (k - 1) .low) := by
  cases k with
  | zero => cases hk
  | succ k =>
    rw [resetOf_eq] at hk
    simp only [State.port?, State.resetFields, Port.resetAll, List.getElem?_map, Option.map_eq_some_iff] at hk
    obtain ⟨i, hi, rfl⟩ := hk
    obtain ⟨hlt, rfl⟩ := List.getElem?_eq_some_iff.mp hi
    simp

theorem port_reset_slot (c : Config) (pin : Level) (i : RingIdx) : (Port.reset c pin).ring.get i = Slot.reset := by
  match i with
  | 0 => rfl
  | 1 => rfl
  | 2 => rfl

/-- Settles O43: the block's own fields, then those of each sender port. -/
theorem resetLeavesTheseFields : Obligations.ResetLeavesTheseFields := by
  intro c pins
  have hports : ∀ k p, (State.resetOf c pins).port? k = some p → p = Port.reset c (pins.getD (k - 1) .low) :=
    fun _ _ => resetOf_port?
  rw [resetOf_eq] at hports ⊢
  refine ⟨rfl, rfl, rfl, rfl, rfl, rfl, rfl, rfl, rfl, rfl, rfl, rfl, resetAll_length .., fun k p hk => ?_⟩
  obtain rfl := hports k p hk
  refine ⟨rfl, rfl, fun i => ?_, rfl, rfl, rfl, rfl, rfl, rfl, rfl, rfl, rfl⟩
  rw [port_reset_slot]
  exact ⟨rfl, rfl⟩

/-! ### One writer per field -/

/-- Of the receiver port's counters, `enabled` and interval, those that differ from `x` to `y` are row i's to write. -/
def ReceiverWrites (i : Instr) (x y : Receiver) : Prop :=
  (y.cntFailedTimeout ≠ x.cntFailedTimeout → i = .timeout) ∧
  ((y.cntRead ≠ x.cntRead ∨ y.cntFailedChecksum ≠ x.cntFailedChecksum ∨ y.cntFailedOther ≠ x.cntFailedOther) →
    i = .readComplete) ∧
  (y.enabled ≠ x.enabled → i = .cmdEnable 0 ∨ i = .cmdDisable 0) ∧
  (y.interval ≠ x.interval → ∃ ms, i = .cmdInterval 0 ms)

/-- Of the fields of sender port k outside its ring and its phase, those that differ from `p` to `q` are row i's to
write. -/
def PortWrites (i : Instr) (k : Nat) (p q : Port) : Prop :=
  ((q.copied ≠ p.copied ∨ q.head ≠ p.head) → ∃ h, i = .rxAdvance k h) ∧
  ((q.requested ≠ p.requested ∨ q.flowLevel ≠ p.flowLevel ∨ q.flowIn ≠ p.flowIn) → ∃ v, i = .flowEdge k v) ∧
  (q.aborted ≠ p.aborted → ∃ h j len, i = .txAbort k h j len) ∧
  (q.written ≠ p.written → ∃ h len, i = .txDone k h len) ∧
  (q.out ≠ p.out → ∃ h j len, i = .txByte k h j len) ∧
  (q.enabled ≠ p.enabled → i = .cmdEnable k ∨ i = .cmdDisable k) ∧
  (q.interval ≠ p.interval → ∃ ms, i = .cmdInterval k ms)

theorem PortWrites.refl (i : Instr) (k : Nat) (p : Port) : PortWrites i k p p := by simp [PortWrites]

/-- A row that replaces port j writes what it writes of port j. -/
theorem PortWrites.of_setPort {s : State} {i : Instr} {j k : Nat} {r r' p q : Port} (hj : s.port? j = some r)
    (hw : PortWrites i j r r') (hk : s.port? k = some p) (hq : (s.setPort j r').port? k = some q) :
    PortWrites i k p q := by
  by_cases hkj : k = j
  · subst hkj
    rw [port?_setPort_self r' hj] at hq
    obtain rfl := Option.some.inj (hj.symm.trans hk)
    obtain rfl := Option.some.inj hq
    exact hw
  · rw [port?_setPort_ne r' hkj, hk] at hq
    obtain rfl := Option.some.inj hq
    exact PortWrites.refl i k p

/-- A slot of a ring is none of these fields. -/
theorem PortWrites.of_setSlot {s : State} {i : Instr} {k : Nat} {g : SlotRef} {sl sl' : Slot} {p q : Port}
    (hg : s.slot? g = some sl) (hk : s.port? k = some p) (hq : (s.setSlot g sl').port? k = some q) :
    PortWrites i k p q := by
  cases g with
  | rx =>
    obtain rfl := Option.some.inj (hk.symm.trans hq)
    exact PortWrites.refl i k p
  | ring j h =>
    obtain ⟨r, hj, -⟩ := slot?_ring_eq_some.mp hg
    rw [setSlot_ring h sl' hj] at hq
    exact PortWrites.of_setPort hj (by simp [PortWrites]) hk hq

/-- Replacing a slot replaces at most the slot of the receiver port. -/
theorem setSlot_rx_cases (s : State) (g : SlotRef) (sl : Slot) :
    ∃ sl', (s.setSlot g sl).rx = { s.rx with slot := sl' } := by
  cases g with
  | rx => exact ⟨sl, rfl⟩
  | ring k i =>
    refine ⟨s.rx.slot, ?_⟩
    cases hk : s.port? k <;> simp [State.setSlot, hk]

theorem Effect.receiverWrites {s t : State} {i : Instr} (e : Effect s i t) : ReceiverWrites i s.rx t.rx := by
  cases e with
  | timeout | readOk | rxInterval => simp [ReceiverWrites]
  | readFailed _ _ _ _ hres => rcases hres with rfl | rfl <;> simp [ReceiverWrites, countResult]
  | rxEnabled _ _ _ hi => simp [ReceiverWrites, hi]
  | byteIgnored | byteNoRoom | byteStored | tickRx | rxSkip | readArm | offerSkip | offerBusy | rxDone | ctrlOnly |
      offerTaken | copy | advance | release | tickTx | txSample | txSampleFlow | txSampleHead | txSampleLen |
      acquireEmpty | acquire | txByte | txAbort | txDone | flowEdge | flowEdgeHalted | portEnabled | portInterval =>
    simp [ReceiverWrites]
  | dumpAcq g | dumpRel g =>
    obtain ⟨sl', hrx⟩ := setSlot_rx_cases s g _
    rw [setCtrl_rx, hrx]
    simp [ReceiverWrites]

theorem Effect.portWrites {s t : State} {i : Instr} {k : Nat} {p q : Port} (e : Effect s i t) (hk : s.port? k = some p)
    (hq : t.port? k = some q) : PortWrites i k p q := by
  cases e with
  | byteIgnored | byteNoRoom | byteStored | timeout | readOk | readFailed | tickRx | rxSkip | readArm | offerSkip |
      offerBusy | rxDone | ctrlOnly | rxEnabled | rxInterval =>
    obtain rfl := Option.some.inj (hk.symm.trans hq)
    exact PortWrites.refl _ k p
  | offerTaken j r hj | copy j _ r _ hj | advance j _ r hj | release j _ r hj
  | tickTx j r hj | txSample j r hj | txSampleFlow j r hj | txSampleHead j _ r hj | txSampleLen j _ _ r hj
  | acquireEmpty j _ r hj | acquire j _ r hj | txByte j _ _ _ r _ hj | txAbort j _ _ _ r hj | txDone j _ _ r hj
  | flowEdgeHalted j _ r hj | portInterval j r _ _ hj =>
    exact PortWrites.of_setPort hj (by simp [PortWrites]) hk hq
  | flowEdge j _ r hj => exact PortWrites.of_setPort hj (by simp [PortWrites, edgeHandler]) hk hq
  | portEnabled _ j r _ _ hj hi => exact PortWrites.of_setPort hj (by simp [PortWrites, hi]) hk hq
  | dumpAcq g sl _ hg | dumpRel g sl _ hg => exact PortWrites.of_setSlot hg hk hq

/-- Settles O56: the fields of the receiver port, then those of each sender port. -/
theorem fieldsHaveOneWriter : Obligations.FieldsHaveOneWriter := by
  intro i s t e
  have heffect := exec_effect e
  obtain ⟨htimeout, hcounters, henabled, hinterval⟩ := heffect.receiverWrites
  exact ⟨htimeout, hcounters, henabled, hinterval, fun k p q hk hq => heffect.portWrites hk hq⟩

end Sys2Proof.Machine
end

/-! # Every step keeps the invariant

The guard clauses of `BlockInv` said agent by agent, what its parts depend on, and then the rows: the BYTE rows, the
read, the fan-out, the sender ports, the host's rows. -/

section
namespace Sys2Proof.Machine

/-! ### Guards, agent by agent -/

/-- `rx_slot.guard` is held by exactly the agent whose phase says so (R66). -/
theorem rxGuardOk_iff {s : State} : rxGuardOk s = true ↔
    (s.rx.phase.holdsSlot = true ↔ s.rx.slot.guard = .held .rx) ∧
    (s.ctrl.phase.holdsSlot .rx = true ↔ s.rx.slot.guard = .held .ctrl) ∧
    ∀ j, s.rx.slot.guard ≠ .held (.tx j) := by
  unfold rxGuardOk
  split <;> simp_all

/-- `ring[k][i].guard` is held by exactly the agent whose phase says so (R66). -/
theorem ringGuardOk_iff {s : State} {k : Nat} {p : Port} {i : RingIdx} : ringGuardOk s k p i = true ↔
    (s.rx.phase.holdsRing k i = true ↔ (p.ring.get i).guard = .held .rx) ∧
    (p.phase.holdsRing i = true ↔ (p.ring.get i).guard = .held (.tx k)) ∧
    (s.ctrl.phase.holdsSlot (.ring k i) = true ↔ (p.ring.get i).guard = .held .ctrl) ∧
    ∀ j, (p.ring.get i).guard = .held (.tx j) → j = k := by
  unfold ringGuardOk
  split
  case h_3 j hg => by_cases hj : j = k <;> simp [hg, hj, and_assoc]
  all_goals simp_all [and_assoc]

@[simp] theorem holdsRing_sleep (k : Nat) (i : RingIdx) : RxPhase.sleep.holdsRing k i = false := rfl
@[simp] theorem holdsRing_start (k : Nat) (i : RingIdx) : RxPhase.start.holdsRing k i = false := rfl
@[simp] theorem holdsRing_wait (k : Nat) (i : RingIdx) : RxPhase.wait.holdsRing k i = false := rfl
@[simp] theorem holdsRing_offer (n k : Nat) (i : RingIdx) : (RxPhase.offer n).holdsRing k i = false := rfl

theorem holdsRing_iff {ph : RxPhase} {k : Nat} {i : RingIdx} :
    ph.holdsRing k i = true ↔ ph = .copy k i ∨ ph = .advance k i ∨ ph = .release k i := by
  simp [RxPhase.holdsRing, or_assoc]

@[simp] theorem holdsSlot_dumpRel {g g' : SlotRef} {snap : List Byte} :
    (CtrlPhase.dumpRel g snap).holdsSlot g' = true ↔ g = g' := by simp [CtrlPhase.holdsSlot]

@[simp] theorem holdsRing_send {h i : RingIdx} {j len : Nat} :
    (TxPhase.send h j len).holdsRing i = true ↔ h = i := by simp [TxPhase.holdsRing]

/-! ### The parts of the invariant -/

theorem BlockInv.invReader {s : State} (h : BlockInv s) : InvReader s := by
  obtain ⟨-, -, -, -, hreader, -⟩ := h
  exact hreader

theorem BlockInv.rx_guardOk {s : State} (h : BlockInv s) : rxGuardOk s = true := by
  obtain ⟨-, -, -, -, -, -, hguard, -⟩ := h
  exact hguard

theorem BlockInv.rx_phaseOk {s : State} (h : BlockInv s) : rxPhaseOk s = true := by
  obtain ⟨-, -, -, -, -, -, -, hphase, -⟩ := h
  exact hphase

theorem BlockInv.ctrl_phaseOk {s : State} (h : BlockInv s) : ctrlPhaseOk s = true := by
  obtain ⟨-, -, -, -, -, -, -, -, hctrl, -⟩ := h
  exact hctrl

theorem BlockInv.halted_phases {s : State} (h : BlockInv s) (hb : s.blockStatus = .halted) :
    s.rx.phase = .sleep ∧ s.ctrl.phase = .idle := by
  obtain ⟨-, -, -, hhalted, -⟩ := h
  exact hhalted hb

/-- A port of a state of the invariant is one of the ports 1..N. -/
theorem BlockInv.port_inRange {s : State} {k : Nat} {p : Port} (h : BlockInv s) (hk : s.port? k = some p) :
    portInRange s.cfg k = true := by
  obtain ⟨-, hlen, -⟩ := h
  simpa [portInRange, hlen] using port?_some_bounds hk

/-- The invariant of `t` from its parts, where `t` has the parameters, the status and the ports of a state of the
invariant. -/
theorem BlockInv.of_parts {s t : State} (h : BlockInv s) (hc : t.cfg = s.cfg) (hb : t.blockStatus = s.blockStatus)
    (hl : t.ports.length = s.ports.length)
    (hhalted : s.blockStatus = .halted → t.rx.phase = .sleep ∧ t.ctrl.phase = .idle) (hreader : InvReader t)
    (hslot : SlotOk s.cfg.bufSize t.rx.slot) (hguard : rxGuardOk t = true)
    (hphase : rxPhaseOk t = true) (hctrl : ctrlPhaseOk t = true)
    (hports : ∀ k p, t.port? k = some p → InvPort t k p) : BlockInv t := by
  obtain ⟨hvalid, hlen, hinit, -⟩ := h
  exact ⟨hc ▸ hvalid, by rw [hl, hc, hlen], by rw [hb, hc, hinit], fun hh => hhalted (hb ▸ hh), hreader, hc ▸ hslot,
    hguard, hphase, hctrl, fun k _ p hk => hports k p hk⟩

/-- The invariant of a port depends on the rest of the state only through the parameters, the status and the guards that
RX and CTRL hold in its ring. -/
theorem InvPort.congr {s t : State} {k : Nat} {p : Port} (h : InvPort s k p) (hc : t.cfg = s.cfg)
    (hb : t.blockStatus = s.blockStatus) (hrx : ∀ i, t.rx.phase.holdsRing k i = s.rx.phase.holdsRing k i)
    (hctrl : ∀ i, t.ctrl.phase.holdsSlot (.ring k i) = s.ctrl.phase.holdsSlot (.ring k i)) : InvPort t k p := by
  simpa only [InvPort, ringGuardOk_iff, hc, hb, hrx, hctrl] using h

/-- The reader's invariant depends on the receiver port only through the slot's data and whether RX waits. -/
theorem InvReader.congr {s t : State} (h : InvReader s) (hc : t.cfg = s.cfg) (hr : t.reader = s.reader)
    (hd : t.rx.slot.data = s.rx.slot.data) (hw : t.rx.phase = .wait ↔ s.rx.phase = .wait) : InvReader t := by
  simpa only [InvReader, hc, hr, hd, hw, ne_eq] using h

/-- The arguments of RX's phase stay in range while the slot RX publishes keeps its length. -/
theorem rxPhaseOk_congr {s t : State} (hc : t.cfg = s.cfg) (hr : t.rx = s.rx)
    (hlen : ∀ k i, s.rx.phase.holdsRing k i = true →
      (t.slot? (.ring k i)).map (·.length) = (s.slot? (.ring k i)).map (·.length)) : rxPhaseOk t = rxPhaseOk s := by
  cases hp : s.rx.phase with
  | sleep | start | wait | offer | copy => simp [rxPhaseOk, telegramOk, hc, hr, hp]
  | advance k i | release k i => simp [rxPhaseOk, telegramOk, hc, hr, hp, hlen k i (by simp [hp, RxPhase.holdsRing])]

theorem rxPhaseOk_setPort {s : State} {k : Nat} {p q : Port} (hk : s.port? k = some p)
    (hlen : ∀ i, s.rx.phase.holdsRing k i = true → (q.ring.get i).length = (p.ring.get i).length) :
    rxPhaseOk (s.setPort k q) = rxPhaseOk s := by
  refine rxPhaseOk_congr (setPort_cfg ..) (setPort_rx ..) fun j i hold => ?_
  by_cases hjk : j = k
  · subst hjk
    simp [slot?_ring i (port?_setPort_self q hk), slot?_ring i hk, hlen i hold]
  · simp [State.slot?, port?_setPort_ne q hjk]

theorem ctrlPhaseOk_congr {s t : State} (hc : t.cfg = s.cfg) (hp : t.ctrl.phase = s.ctrl.phase) :
    ctrlPhaseOk t = ctrlPhaseOk s := by
  unfold ctrlPhaseOk
  rw [hc, hp]

theorem listed_zero (m : Memory) : Listed m 0 := fun i hi => absurd hi (Nat.not_lt_zero i)

/-! ### One port -/

/-- TX(k) moves on without touching its ring or a guard. -/
theorem InvPort.sameRing {s : State} {k : Nat} {p q : Port} (h : InvPort s k p) (hring : q.ring = p.ring)
    (hold : ∀ i, q.phase.holdsRing i = p.phase.holdsRing i) (hphase : txPhaseOk s.cfg q = true)
    (hflow : s.blockStatus = .running → q.flowLevel = flowOf s.cfg q.flowIn)
    (hhalted : s.blockStatus = .halted → q.phase = .sleep) : InvPort s k q := by
  obtain ⟨hslots, -⟩ := h
  refine ⟨?_, hphase, hflow, hhalted⟩
  simpa only [ringGuardOk_iff, hring, hold] using hslots

/-- One slot of a ring is replaced, and with it perhaps the agent that holds its guard. -/
theorem InvPort.setSlot {s t : State} {k : Nat} {p : Port} {h : RingIdx} {sl : Slot} {ph : TxPhase} (hp : InvPort s k p)
    (hc : t.cfg = s.cfg) (hb : t.blockStatus = s.blockStatus)
    (hrx : ∀ i, i ≠ h → t.rx.phase.holdsRing k i = s.rx.phase.holdsRing k i)
    (htx : ∀ i, i ≠ h → ph.holdsRing i = p.phase.holdsRing i)
    (hctrl : ∀ i, i ≠ h → t.ctrl.phase.holdsSlot (.ring k i) = s.ctrl.phase.holdsSlot (.ring k i))
    (hslot : SlotOk s.cfg.bufSize sl) (hone : sl.length ≠ 1)
    (hguard : ringGuardOk t k { p with ring := p.ring.set h sl, phase := ph } h = true)
    (hphase : txPhaseOk s.cfg { p with ring := p.ring.set h sl, phase := ph } = true)
    (hhalted : s.blockStatus = .halted → ph = .sleep) :
    InvPort t k { p with ring := p.ring.set h sl, phase := ph } := by
  obtain ⟨hslots, -, hflow, -⟩ := hp
  refine ⟨fun i => ?_, hc ▸ hphase, by simpa only [hc, hb] using hflow, hb ▸ hhalted⟩
  by_cases hi : i = h
  · subst hi
    exact ⟨by simpa [hc] using hslot, by simpa using hone, hguard⟩
  · simpa only [ringGuardOk_iff, ring_get_set_ne _ _ hi, hc, hrx i hi, htx i hi, hctrl i hi] using hslots i

/-- The arguments of TX(k)'s phase stay in range while a slot keeps its length, or gets another than 0 while TX(k) does
not send it. -/
theorem txPhaseOk_setSlot {c : Config} {p : Port} {h : RingIdx} {sl : Slot} (hok : txPhaseOk c p = true)
    (hlen : sl.length = (p.ring.get h).length ∨ (sl.length ≠ 0 ∧ p.phase.holdsRing h = false)) :
    txPhaseOk c { p with ring := p.ring.set h sl } = true := by
  cases hp : p.phase with
  | sleep | sample => simp [txPhaseOk]
  | sampleH | sampleL => simpa [txPhaseOk, hp] using hok
  | acquire i =>
    by_cases hi : i = h
    · subst hi
      rcases hlen with hlen | ⟨hlen, -⟩
      · simpa [txPhaseOk, hp, hlen] using hok
      · simp [txPhaseOk, hlen]
    · simpa [txPhaseOk, hp, ring_get_set_ne _ _ hi] using hok
  | send i j len =>
    by_cases hi : i = h
    · subst hi
      have hlen := hlen.resolve_right (by simp [hp, TxPhase.holdsRing])
      simpa [txPhaseOk, hp, hlen] using hok
    · simpa [txPhaseOk, hp, ring_get_set_ne _ _ hi] using hok

/-! ### Steps of one shape -/

/-- A step of the reader and the receiver port, after which RX holds the guards of rings it held. -/
theorem BlockInv.setReader_setRx {s : State} {r : Reader} {x : Receiver} (h : BlockInv s)
    (hr : s.blockStatus = .running) (hring : ∀ k i, x.phase.holdsRing k i = s.rx.phase.holdsRing k i)
    (hreader : InvReader { s with reader := r, rx := x }) (hslot : SlotOk s.cfg.bufSize x.slot)
    (hguard : rxGuardOk { s with reader := r, rx := x } = true)
    (hphase : rxPhaseOk { s with reader := r, rx := x } = true) : BlockInv { s with reader := r, rx := x } :=
  h.of_parts rfl rfl rfl (by simp [hr]) hreader hslot hguard hphase h.ctrl_phaseOk
    fun k _ hk => (h.invPort hk).congr rfl rfl (hring k) fun _ => rfl

/-- The ports of a state that differs from one of the invariant in port k and in the guards RX and CTRL hold there. -/
theorem BlockInv.invPort_of_portsBut {s t : State} {k : Nat} {q : Port} (h : BlockInv s) (hbut : PortsBut s t k q)
    (hc : t.cfg = s.cfg) (hb : t.blockStatus = s.blockStatus)
    (hrx : ∀ j, j ≠ k → ∀ i, t.rx.phase.holdsRing j i = s.rx.phase.holdsRing j i)
    (hctrl : ∀ j, j ≠ k → ∀ i, t.ctrl.phase.holdsSlot (.ring j i) = s.ctrl.phase.holdsSlot (.ring j i))
    (hq : InvPort t k q) : ∀ j p, t.port? j = some p → InvPort t j p := by
  obtain ⟨-, hself, hother⟩ := hbut
  intro j p hj
  by_cases hjk : j = k
  · subst hjk
    obtain rfl := Option.some.inj (hself.symm.trans hj)
    exact hq
  · exact (h.invPort (hother j hjk ▸ hj)).congr hc hb (hrx j hjk) (hctrl j hjk)

/-- A step of RX at port k. -/
theorem BlockInv.setPort_setRxPhase {s : State} {k : Nat} {p q : Port} {ph : RxPhase} (h : BlockInv s)
    (hk : s.port? k = some p) (hhalted : s.blockStatus = .halted → ph = .sleep)
    (hwait : ph = .wait ↔ s.rx.phase = .wait) (hslot : ph.holdsSlot = s.rx.phase.holdsSlot)
    (hring : ∀ j, j ≠ k → ∀ i, ph.holdsRing j i = s.rx.phase.holdsRing j i)
    (hphase : rxPhaseOk ((s.setPort k q).setRxPhase ph) = true) (hq : InvPort (s.setRxPhase ph) k q) :
    BlockInv ((s.setPort k q).setRxPhase ph) := by
  refine h.of_parts (by simp) (by simp) (by simp) ?_ ?_ (by simpa using h.slotOk (slot?_rx s)) ?_ hphase ?_ ?_
  · exact fun hh => ⟨by simpa using hhalted hh, by simpa using (h.halted_phases hh).2⟩
  · exact h.invReader.congr (by simp) (by simp) (by simp) (by simpa using hwait)
  · simpa [rxGuardOk_iff, hslot] using rxGuardOk_iff.mp h.rx_guardOk
  · rw [ctrlPhaseOk_congr (s := s) (by simp) (by simp), h.ctrl_phaseOk]
  · refine h.invPort_of_portsBut (k := k) (q := q) ?_ (by simp) (by simp) (by simpa using hring) (by simp) ?_
    · obtain ⟨-, hbut⟩ := onlyPort_setPort q hk
      simpa [PortsBut] using hbut
    · exact hq.congr (by simp) (by simp) (by simp) (by simp)

/-- A step of TX(k), or of the environment or the host on port k. -/
theorem BlockInv.setPort {s : State} {k : Nat} {p q : Port} (h : BlockInv s) (hk : s.port? k = some p)
    (hlen : ∀ i, s.rx.phase.holdsRing k i = true → (q.ring.get i).length = (p.ring.get i).length)
    (hq : InvPort s k q) : BlockInv (s.setPort k q) := by
  have ht : (s.setPort k q).setRxPhase s.rx.phase = s.setPort k q := by cases k <;> rfl
  rw [← ht]
  refine h.setPort_setRxPhase hk (fun hh => (h.halted_phases hh).1) Iff.rfl rfl (fun _ _ _ => rfl) ?_ hq
  rw [ht, rxPhaseOk_setPort hk hlen, h.rx_phaseOk]

/-- A ring with one slot's guard replaced has the lengths it had. -/
theorem length_setGuard (r : Ring) (h i : RingIdx) (gd : Guard) :
    ((r.set h { r.get h with guard := gd }).get i).length = (r.get i).length := by
  by_cases hi : i = h
  · simp [hi]
  · rw [ring_get_set_ne _ _ hi]

/-- CTRL takes or frees the guard of `rx_slot`; its phase says which (R214). -/
theorem BlockInv.setRxGuard_setCtrl {s : State} {gd : Guard} {c : Ctrl} (h : BlockInv s) (hr : s.blockStatus = .running)
    (hold : s.rx.slot.guard = .free ∨ s.rx.slot.guard = .held .ctrl) (hnew : gd = .free ∨ gd = .held .ctrl)
    (hown : c.phase.holdsSlot .rx = true ↔ gd = .held .ctrl)
    (hother : ∀ g, g ≠ .rx → c.phase.holdsSlot g = s.ctrl.phase.holdsSlot g)
    (hphase : ctrlPhaseOk (s.setCtrl c) = true) :
    BlockInv ((s.setSlot .rx { s.rx.slot with guard := gd }).setCtrl c) := by
  have hslot := h.slotOk (slot?_rx s)
  refine h.of_parts rfl rfl rfl (by simp [hr]) h.invReader hslot ?_ h.rx_phaseOk hphase ?_
  · have hguard := rxGuardOk_iff.mp h.rx_guardOk
    rcases hold with hold | hold <;> rcases hnew with rfl | rfl <;> simp_all [rxGuardOk_iff, State.setSlot]
  · exact fun k p hk => (h.invPort hk).congr rfl rfl (fun _ => rfl) fun i => hother _ (by simp)

/-- The same for the guard of a ring slot. -/
theorem BlockInv.setRingGuard_setCtrl {s : State} {k : Nat} {p : Port} {i : RingIdx} {gd : Guard} {c : Ctrl}
    (h : BlockInv s) (hr : s.blockStatus = .running) (hk : s.port? k = some p)
    (hold : (p.ring.get i).guard = .free ∨ (p.ring.get i).guard = .held .ctrl) (hnew : gd = .free ∨ gd = .held .ctrl)
    (hown : c.phase.holdsSlot (.ring k i) = true ↔ gd = .held .ctrl)
    (hother : ∀ g, g ≠ .ring k i → c.phase.holdsSlot g = s.ctrl.phase.holdsSlot g)
    (hphase : ctrlPhaseOk (s.setCtrl c) = true) :
    BlockInv ((s.setPort k { p with ring := p.ring.set i { p.ring.get i with guard := gd } }).setCtrl c) := by
  obtain ⟨hslots, hok, -, hsleep⟩ := h.invPort hk
  obtain ⟨hslot, hone, hguard⟩ := hslots i
  rw [ringGuardOk_iff] at hguard
  have hq : InvPort (s.setCtrl c) k { p with ring := p.ring.set i { p.ring.get i with guard := gd } } := by
    refine (h.invPort hk).setSlot rfl rfl (fun _ _ => rfl) (fun _ _ => rfl) (fun j hj => hother _ (by simp [hj])) hslot
      hone ?_ (txPhaseOk_setSlot hok (.inl rfl)) hsleep
    rcases hold with hold | hold <;> rcases hnew with rfl | rfl <;> simp_all [ringGuardOk_iff]
  refine h.of_parts (by simp) (by simp) (by simp) (by simp [hr]) ?_ (by simpa using h.slotOk (slot?_rx s)) ?_ ?_ ?_ ?_
  · exact h.invReader.congr (by simp) (by simp) (by simp) (by simp)
  · simpa [rxGuardOk_iff, hother .rx (by simp)] using rxGuardOk_iff.mp h.rx_guardOk
  · exact (rxPhaseOk_setPort hk fun j _ => length_setGuard p.ring i j gd).trans h.rx_phaseOk
  · exact (ctrlPhaseOk_congr (s := s.setCtrl c) (by simp) (by simp)).trans hphase
  · obtain ⟨-, hbut⟩ := onlyPort_setPort { p with ring := p.ring.set i { p.ring.get i with guard := gd } } hk
    exact h.invPort_of_portsBut hbut (by simp) (by simp) (by simp) (fun j hj i' => hother _ (by simp [hj]))
      (hq.congr (by simp) (by simp) (by simp) (by simp))

theorem BlockInv.setGuard_setCtrl {s : State} {g : SlotRef} {sl : Slot} {gd : Guard} {c : Ctrl} (h : BlockInv s)
    (hr : s.blockStatus = .running) (hg : s.slot? g = some sl) (hold : sl.guard = .free ∨ sl.guard = .held .ctrl)
    (hnew : gd = .free ∨ gd = .held .ctrl) (hown : c.phase.holdsSlot g = true ↔ gd = .held .ctrl)
    (hother : ∀ g', g' ≠ g → c.phase.holdsSlot g' = s.ctrl.phase.holdsSlot g')
    (hphase : ctrlPhaseOk (s.setCtrl c) = true) : BlockInv ((s.setSlot g { sl with guard := gd }).setCtrl c) := by
  cases g with
  | rx =>
    obtain rfl := Option.some.inj hg
    exact h.setRxGuard_setCtrl hr hold hnew hown hother hphase
  | ring k i =>
    obtain ⟨p, hk, rfl⟩ := slot?_ring_eq_some.mp hg
    rw [setSlot_ring i _ hk]
    exact h.setRingGuard_setCtrl hr hk hold hnew hown hother hphase

/-! ### The BYTE rows (R121 to R125) -/

/-- A reader that is not Idle is in RxWait (R128). -/
theorem BlockInv.wait_of_reader {s : State} (h : BlockInv s) (hst : s.reader.state ≠ .idle) : s.rx.phase = .wait := by
  obtain ⟨-, -, -, hidle, -⟩ := h.invReader
  exact not_not.mp fun hw => hst (hidle.mpr hw)

/-- A byte stored just past the frame, the first one being `'/'`; the reader may move to a state of its own choice but
Idle. -/
theorem BlockInv.storeByte {s : State} {off : Nat} {b : Byte} {st : RdState} {d : Bool} (h : BlockInv s)
    (hr : s.blockStatus = .running) (hread : s.reader.state ≠ .idle) (hlt : off < s.cfg.bufSize)
    (hlisted : Listed s.rx.slot.data off)
    (hfirst : off = 0 ∧ b = slash ∨ 1 ≤ off ∧ Memory.lookup s.rx.slot.data 0 = some slash)
    (hst : st ≠ .idle) (hdone : d = true ↔ st = .complete) :
    BlockInv { s with
      reader := { s.reader with idx := off + 1, state := st, done := d }
      rx := { s.rx with slot := { s.rx.slot with data := Memory.insert s.rx.slot.data off b } } } := by
  have hw := h.wait_of_reader hread
  obtain ⟨-, -, -, -, hlock, hreq, -⟩ := h.invReader
  obtain ⟨hwf, hbound, hlen, hold⟩ := h.slotOk (slot?_rx s)
  refine h.setReader_setRx hr (fun _ _ => rfl)
    ⟨hlt, listed_insert_succ b hlisted, hdone, by simp [hst, hw], hlock, hreq, ?_⟩
    ⟨wf_insert _ _ hwf, bounded_insert _ hlt hbound, hlen, listed_insert _ _ hold⟩ h.rx_guardOk
    (by simp [rxPhaseOk, hw])
  intro _ _
  refine ⟨Nat.le_add_left 1 off, ?_⟩
  rcases hfirst with ⟨rfl, rfl⟩ | ⟨hoff, hslash⟩
  · exact lookup_insert_self ..
  · rw [lookup_insert_ne _ _ (by omega), hslash]

/-- What NoRoom makes of the reader inside a frame (R125). -/
theorem noRoom_eq (c : Config) (b : Byte) {r : Reader}
    (hst : r.state = .awaitingTerminator ∨ r.state = .awaitingChecksumLine)
    (hdone : r.done = true ↔ r.state = .complete) :
    ∃ st d, noRoom c b r = { r with overflow := true, state := st, done := d } ∧ st ≠ .idle ∧
      (d = true ↔ st = .complete) := by
  have hidle : r.state ≠ .idle := by rcases hst with hst | hst <;> simp [hst]
  have hd : r.done = false := by rcases hst with hst | hst <;> simpa [hst] using hdone
  unfold noRoom
  split
  · exact ⟨r.state, r.done, rfl, hidle, hdone⟩
  · split
    · exact ⟨.awaitingChecksumLine, r.done, rfl, by simp, by simp [hd]⟩
    · split
      · exact ⟨.complete, true, rfl, by simp, by simp⟩
      · exact ⟨r.state, r.done, rfl, hidle, hdone⟩
  · exact ⟨.complete, true, rfl, by simp, by simp⟩

/-- A byte without room leaves the frame as it is. -/
theorem BlockInv.setReader_noRoom {s : State} (h : BlockInv s) (hr : s.blockStatus = .running) (b : Byte)
    (hst : s.reader.state = .awaitingTerminator ∨ s.reader.state = .awaitingChecksumLine) :
    BlockInv (s.setReader (noRoom s.cfg b s.reader)) := by
  have hidle : s.reader.state ≠ .idle := by rcases hst with hst | hst <;> simp [hst]
  have hw := h.wait_of_reader hidle
  obtain ⟨hidx, hlisted, hdone, -, hlock, hreq, hslash⟩ := h.invReader
  obtain ⟨st, d, heq, hst', hdone'⟩ := noRoom_eq s.cfg b hst hdone
  rw [heq]
  exact h.setReader_setRx (x := s.rx) hr (fun _ _ => rfl)
    ⟨hidx, hlisted, hdone', by simp [hst', hw], hlock, hreq,
      fun _ _ => hslash hidle (by rcases hst with hst | hst <;> simp [hst])⟩
    (h.slotOk (slot?_rx s)) h.rx_guardOk h.rx_phaseOk

theorem BlockInv.byteSynchronizing {s t : State} {b : Byte} (h : BlockInv s) (hr : s.blockStatus = .running)
    (hst : s.reader.state = .synchronizing) (e : byteSynchronizing b s = .ok t) : BlockInv t := by
  unfold Machine.byteSynchronizing at e
  split at e
  · next hb =>
    obtain ⟨u, hu, e⟩ := bind_eq_ok.mp e
    obtain ⟨hlt, rfl⟩ := appendByte_eq_ok.mp hu
    cases e
    obtain ⟨-, -, hdone, -⟩ := h.invReader
    exact h.storeByte hr (by simp [hst]) hlt (listed_zero _) (.inl ⟨rfl, hb⟩) (by simp) (by simpa [hst] using hdone)
  · cases e
    exact h

/-- A byte stored inside a frame (R123, R124). -/
theorem BlockInv.appendByte {s : State} {b : Byte} {st : RdState} {d : Bool} (h : BlockInv s)
    (hr : s.blockStatus = .running)
    (hread : s.reader.state = .awaitingTerminator ∨ s.reader.state = .awaitingChecksumLine)
    (hlt : s.reader.idx < s.cfg.bufSize) (hst : st ≠ .idle) (hdone : d = true ↔ st = .complete) :
    BlockInv { s with
      reader := { s.reader with idx := s.reader.idx + 1, state := st, done := d }
      rx := { s.rx with slot := { s.rx.slot with data := Memory.insert s.rx.slot.data s.reader.idx b } } } := by
  obtain ⟨-, hlisted, -, -, -, -, hslash⟩ := h.invReader
  have hidle : s.reader.state ≠ .idle := by rcases hread with hread | hread <;> simp [hread]
  have hsync : s.reader.state ≠ .synchronizing := by rcases hread with hread | hread <;> simp [hread]
  exact h.storeByte hr hidle hlt hlisted (.inr (hslash hidle hsync)) hst hdone

theorem BlockInv.byteAwaitingTerminator {s t : State} {b : Byte} (h : BlockInv s) (hr : s.blockStatus = .running)
    (hst : s.reader.state = .awaitingTerminator) (e : byteAwaitingTerminator b s = .ok t) : BlockInv t := by
  obtain ⟨-, -, hdone, -⟩ := h.invReader
  unfold Machine.byteAwaitingTerminator at e
  split at e
  · obtain ⟨u, hu, e⟩ := bind_eq_ok.mp e
    obtain ⟨hlt, rfl⟩ := appendByte_eq_ok.mp hu
    cases e
    split
    · exact h.appendByte hr (.inl hst) hlt (by simp) (by simpa [hst] using hdone)
    · exact h.appendByte hr (.inl hst) hlt (by simp [hst]) hdone
  · cases e
    exact h.setReader_noRoom hr b (.inl hst)

theorem BlockInv.byteAwaitingChecksumLine {s t : State} {b : Byte} (h : BlockInv s) (hr : s.blockStatus = .running)
    (hst : s.reader.state = .awaitingChecksumLine) (e : byteAwaitingChecksumLine b s = .ok t) : BlockInv t := by
  obtain ⟨-, -, hdone, -⟩ := h.invReader
  unfold Machine.byteAwaitingChecksumLine at e
  split at e
  · obtain ⟨u, hu, e⟩ := bind_eq_ok.mp e
    obtain ⟨hlt, rfl⟩ := appendByte_eq_ok.mp hu
    cases e
    split
    · exact h.appendByte hr (.inr hst) hlt (by simp) (by simp)
    · exact h.appendByte hr (.inr hst) hlt (by simp [hst]) hdone
  · cases e
    exact h.setReader_noRoom hr b (.inr hst)

theorem BlockInv.receiveByte {s t : State} {b : Byte} (h : BlockInv s) (e : receiveByte b s = .next t) :
    BlockInv t := by
  unfold Machine.receiveByte at e
  split at e
  · cases e
    exact h
  · next hb =>
    have hr : s.blockStatus = .running := by cases hs : s.blockStatus <;> simp_all
    split at e
    · cases e
      exact h
    · cases e
      exact h
    · next hst => exact h.byteSynchronizing hr hst (answer_eq_next.mp e)
    · next hst => exact h.byteAwaitingTerminator hr hst (answer_eq_next.mp e)
    · next hst => exact h.byteAwaitingChecksumLine hr hst (answer_eq_next.mp e)

theorem BlockInv.exec_byteRow {s t : State} {i : Instr} (h : BlockInv s) (hi : isByteRow i = true)
    (e : exec i s = .next t) : BlockInv t := by
  cases i with
  | byteStart | byteEnd | byteLf | byteOther => exact h.receiveByte e
  | _ => cases hi

/-! ### The read (R130 to R133, R153) -/

theorem driveReqOut_eq (c : Config) (r : Reader) (v : Level) :
    r.driveReqOut c v = { r with reqOut := if c.requestLinePresent then v else r.reqOut } := by
  unfold Reader.driveReqOut
  split <;> rfl

/-- READ_ARM starts an empty frame under the lock and the slot's guard (R130). -/
theorem BlockInv.execReadArm {s t : State} (h : BlockInv s) (e : execReadArm s = .next t) : BlockInv t := by
  obtain ⟨hr, hen, hb⟩ := whenEnabled_eq_next.mp e
  simp only [Bool.and_eq_true, beq_iff_eq] at hen
  obtain ⟨⟨⟨hp, -⟩, -⟩, hfree⟩ := hen
  cases hb
  have hguard := rxGuardOk_iff.mp h.rx_guardOk
  obtain ⟨-, -, -, -, -, hreq, -⟩ := h.invReader
  have hslot := h.slotOk (slot?_rx s)
  refine h.setReader_setRx hr (by simp [hp]) ?_ hslot ?_ rfl
  · rw [driveReqOut_eq]
    have hlow : s.reader.reqOut = .low := by simpa [hp] using hreq
    exact ⟨Nat.zero_le _, listed_zero _, by simp, by simp, by simp, by simp [hlow], by simp⟩
  · simp_all [rxGuardOk_iff, RxPhase.holdsSlot]

/-- The read is over: the reader is Idle, its lock is free and the request line is Low (R133). -/
theorem InvReader.readFinish {s : State} {x : Receiver} (h : InvReader s) (hd : x.slot.data = s.rx.slot.data)
    (hw : x.phase ≠ .wait) : InvReader { readFinish s with rx := x } := by
  obtain ⟨hidx, hlisted, -, -, -, hreq, -⟩ := h
  simp only [readFinish_eq]
  refine ⟨hidx, by simpa [hd] using hlisted, by simp, by simp [hw], by simp [hw], ?_, by simp⟩
  cases hc : s.cfg.requestLinePresent <;> simp_all

/-- A read that fails empties and frees the receiver slot (R132, R153). -/
theorem BlockInv.readFinish_failed {s : State} {x : Receiver} (h : BlockInv s) (hr : s.blockStatus = .running)
    (hw : s.rx.phase = .wait) (hg : s.rx.slot.guard = .held .rx)
    (hslot : x.slot = { s.rx.slot with guard := .free, length := 0 }) (hphase : x.phase = .sleep) :
    BlockInv { readFinish s with rx := x } := by
  obtain ⟨hwf, hbound, -, -⟩ := h.slotOk (slot?_rx s)
  have hguard := rxGuardOk_iff.mp h.rx_guardOk
  refine h.setReader_setRx hr (by simp [hw, hphase])
    (h.invReader.readFinish (by simp [hslot]) (by simp [hphase])) ?_ ?_ ?_
  · rw [hslot]
    exact ⟨hwf, hbound, Nat.zero_le _, listed_zero _⟩
  · simp_all [rxGuardOk_iff, RxPhase.holdsSlot]
  · simp [rxPhaseOk, hphase]

theorem endMarker_some {b : List Byte} {p : Nat} (h : endMarker b = some p) : b[p]? = some bang := by
  induction b generalizing p with
  | nil => cases h
  | cons x xs ih =>
    simp only [endMarker] at h
    split at h
    · next hx =>
      cases h
      simp [hx]
    · obtain ⟨q, hq, rfl⟩ := Option.map_eq_some_iff.mp h
      exact ih hq

/-- A frame that verifies is answered with its length and holds an end marker (R108). -/
theorem verifyFrame_ok {c : Config} {b : List Byte} {n : Nat} (h : verifyFrame c b = .ok n) :
    n = b.length ∧ ∃ p, endMarker b = some p := by
  unfold verifyFrame at h
  split at h
  · cases h
  · next p hp =>
    refine ⟨?_, p, hp⟩
    simp only at h
    repeat' split at h
    all_goals cases h
    all_goals rfl

/-- A telegram that verifies is the whole frame, and is at least `'/'` and `'!'` (R108, R122). -/
theorem verify_ok {s : State} {n : Nat} (h : verify s = .ok (.ok n))
    (hslash : Memory.lookup s.rx.slot.data 0 = some slash) : n = s.reader.idx ∧ 2 ≤ n := by
  unfold verify at h
  split at h
  · cases h
  · obtain ⟨b, hb, h⟩ := bind_eq_ok.mp h
    obtain ⟨hlen, hbytes⟩ := readRange_eq_ok.mp hb
    obtain ⟨rfl, p, hp⟩ := verifyFrame_ok (Except.ok.inj h)
    have hbang := endMarker_some hp
    have hlt := (List.getElem?_eq_some_iff.mp hbang).1
    have hp0 : p ≠ 0 := by
      rintro rfl
      have hfirst := (hbytes 0 (by omega)).2
      rw [hslash, hbang] at hfirst
      cases hfirst
    exact ⟨hlen, by omega⟩

/-- READ_COMPLETE of a telegram begins the fan-out with its length (R131, R153). -/
theorem BlockInv.readFinish_ok {s : State} {n : Nat} {c : Count} (h : BlockInv s) (hr : s.blockStatus = .running)
    (hw : s.rx.phase = .wait) (hdone : s.reader.done = true) (hv : verify s = .ok (.ok n)) :
    BlockInv { readFinish s with
      rx := { s.rx with cntRead := c, slot := { s.rx.slot with length := n }, n := n, phase := .offer 1 } } := by
  obtain ⟨hidx, hlisted, hcomplete, -, -, -, hslash⟩ := h.invReader
  have hst := hcomplete.mp hdone
  obtain ⟨-, hslash⟩ := hslash (by simp [hst]) (by simp [hst])
  obtain ⟨rfl, htwo⟩ := verify_ok hv hslash
  obtain ⟨hwf, hbound, -, -⟩ := h.slotOk (slot?_rx s)
  have hguard := rxGuardOk_iff.mp h.rx_guardOk
  refine h.setReader_setRx hr (by simp [hw]) (h.invReader.readFinish rfl (by simp)) ⟨hwf, hbound, hidx, hlisted⟩ ?_ ?_
  · simp_all [rxGuardOk_iff, RxPhase.holdsSlot]
  · simp [rxPhaseOk, telegramOk, htwo]

theorem BlockInv.execReadComplete {s t : State} (h : BlockInv s) (e : execReadComplete s = .next t) : BlockInv t := by
  obtain ⟨hr, hen, hb⟩ := whenEnabled_eq_next.mp e
  simp only [Bool.and_eq_true, beq_iff_eq] at hen
  obtain ⟨hw, hdone⟩ := hen
  obtain ⟨res, hv, hb⟩ := bind_eq_ok.mp hb
  rcases verify_results hv with ⟨n, rfl⟩ | hres
  · rw [rxAccount_ok] at hb
    cases hb
    exact h.readFinish_ok hr hw hdone hv
  · obtain ⟨hg, rfl⟩ := (rxAccount_failed (by rcases hres with rfl | rfl <;> simp)).mp hb
    exact h.readFinish_failed hr hw hg (by rcases hres with rfl | rfl <;> rfl) rfl

/-! ### The fan-out (R150, R151, R154 to R159) -/

theorem telegramOk_iff {s : State} : telegramOk s = true ↔ s.rx.n = s.rx.slot.length ∧ 2 ≤ s.rx.n := by
  simp [telegramOk]

@[simp] theorem telegramOk_setRxPhase (s : State) (ph : RxPhase) : telegramOk (s.setRxPhase ph) = telegramOk s := rfl

@[simp] theorem telegramOk_setPort (s : State) (k : Nat) (p : Port) : telegramOk (s.setPort k p) = telegramOk s := by
  simp [telegramOk]

/-- RX moves to a phase in which it holds the guards it held. -/
theorem BlockInv.setRxPhase {s : State} {ph : RxPhase} (h : BlockInv s) (hr : s.blockStatus = .running)
    (hring : ∀ k i, ph.holdsRing k i = s.rx.phase.holdsRing k i) (hwait : ph = .wait ↔ s.rx.phase = .wait)
    (hslot : ph.holdsSlot = s.rx.phase.holdsSlot) (hphase : rxPhaseOk (s.setRxPhase ph) = true) :
    BlockInv (s.setRxPhase ph) := by
  have hok := h.slotOk (slot?_rx s)
  refine h.setReader_setRx hr hring (h.invReader.congr rfl rfl rfl hwait) hok ?_ hphase
  simpa [rxGuardOk_iff, hslot] using rxGuardOk_iff.mp h.rx_guardOk

/-- While RX offers, there is a telegram. -/
theorem BlockInv.offer_telegramOk {s : State} {k : Nat} (h : BlockInv s) (hp : s.rx.phase = .offer k) :
    telegramOk s = true := by
  have hphase := h.rx_phaseOk
  simp_all [rxPhaseOk]

/-- While RX holds a ring slot's guard, there is a telegram. -/
theorem BlockInv.ring_telegramOk {s : State} {k : Nat} {i : RingIdx} (h : BlockInv s)
    (hp : s.rx.phase.holdsRing k i = true) : telegramOk s = true := by
  have hphase := h.rx_phaseOk
  rcases holdsRing_iff.mp hp with hp | hp | hp <;> simp_all [rxPhaseOk]

/-- RxOffer of the port after port k is in range. -/
theorem BlockInv.offer_succ_ok {s t : State} {k : Nat} {p : Port} (h : BlockInv s) (hk : s.port? k = some p)
    (hc : t.cfg = s.cfg) (ht : telegramOk t = true) (hp : t.rx.phase = .offer (k + 1)) : rxPhaseOk t = true := by
  have hrange := h.port_inRange hk
  simp_all [rxPhaseOk, portInRange]

/-- RX passes on to the next port (R154, R155). -/
theorem BlockInv.offer_next {s : State} {k : Nat} {p : Port} (h : BlockInv s) (hr : s.blockStatus = .running)
    (hk : s.port? k = some p) (hp : s.rx.phase = .offer k) : BlockInv (s.setRxPhase (.offer (k + 1))) :=
  h.setRxPhase hr (by simp [hp]) (by simp [hp]) (by simp [hp, RxPhase.holdsSlot])
    (h.offer_succ_ok hk rfl (h.offer_telegramOk hp) rfl)

/-- RX offers the telegram, or copies it into `ring[k][i]`: the phases between which RX takes, writes and frees that
slot. -/
def RxPhase.fansOut (ph : RxPhase) (k : Nat) (i : RingIdx) : Prop := (∃ n, ph = .offer n) ∨ ph.holdsRing k i = true

theorem RxPhase.fansOut.ne_wait {ph : RxPhase} {k : Nat} {i : RingIdx} (h : ph.fansOut k i) : ph ≠ .wait := by
  rintro rfl
  simp [RxPhase.fansOut] at h

theorem RxPhase.fansOut.holdsSlot {ph : RxPhase} {k : Nat} {i : RingIdx} (h : ph.fansOut k i) :
    ph.holdsSlot = true := by
  rcases h with ⟨n, rfl⟩ | h
  · rfl
  · rcases holdsRing_iff.mp h with rfl | rfl | rfl <;> rfl

/-- No other guard of a ring is held. -/
theorem RxPhase.fansOut.holdsRing_ne {ph : RxPhase} {k j : Nat} {i i' : RingIdx} (h : ph.fansOut k i)
    (hne : j ≠ k ∨ i' ≠ i) : ph.holdsRing j i' = false := by
  rcases h with ⟨n, rfl⟩ | h
  · rfl
  · rw [← Bool.not_eq_true]
    intro h'
    rcases holdsRing_iff.mp h with rfl | rfl | rfl <;> simp_all [holdsRing_iff]

/-- RX takes, writes or frees a slot of a ring; TX(k) and CTRL hold its guard neither before nor after (R154, R157,
R159). -/
theorem BlockInv.setRingSlot_setRxPhase {s : State} {k : Nat} {p : Port} {i : RingIdx} {sl : Slot} {ph : RxPhase}
    (h : BlockInv s) (hr : s.blockStatus = .running) (hk : s.port? k = some p) (hbefore : s.rx.phase.fansOut k i)
    (hafter : ph.fansOut k i) (hold : (p.ring.get i).guard = .free ∨ (p.ring.get i).guard = .held .rx)
    (hnew : sl.guard = .free ∨ sl.guard = .held .rx) (hown : ph.holdsRing k i = true ↔ sl.guard = .held .rx)
    (hslot : SlotOk s.cfg.bufSize sl) (hlen : sl.length = (p.ring.get i).length ∨ 2 ≤ sl.length)
    (hphase : rxPhaseOk ((s.setPort k { p with ring := p.ring.set i sl }).setRxPhase ph) = true) :
    BlockInv ((s.setPort k { p with ring := p.ring.set i sl }).setRxPhase ph) := by
  obtain ⟨hslots, hok, -, hsleep⟩ := h.invPort hk
  obtain ⟨-, hone, -⟩ := hslots i
  have hguard := ringGuardOk_iff.mp (h.ring_guardOk hk i)
  have hnotx : p.phase.holdsRing i = false := by rcases hold with hold | hold <;> simp_all
  have hring : ∀ j i', (j ≠ k ∨ i' ≠ i) → ph.holdsRing j i' = s.rx.phase.holdsRing j i' := fun j i' hne => by
    rw [hafter.holdsRing_ne hne, hbefore.holdsRing_ne hne]
  refine h.setPort_setRxPhase hk (by simp [hr]) (by simp [hafter.ne_wait, hbefore.ne_wait])
    (by rw [hafter.holdsSlot, hbefore.holdsSlot]) (fun j hj i' => hring j i' (.inl hj)) hphase ?_
  refine (h.invPort hk).setSlot rfl rfl (fun i' hi => hring k i' (.inr hi)) (fun _ _ => rfl) (fun _ _ => rfl) hslot
    (by omega) ?_ (txPhaseOk_setSlot hok (hlen.imp_right fun hlen => ⟨by omega, hnotx⟩)) hsleep
  rcases hold with hold | hold <;> rcases hnew with hnew | hnew <;> simp_all [ringGuardOk_iff]

/-- RX_OFFER_TRY takes the guard of the next slot (R154). -/
theorem BlockInv.offer_taken {s : State} {k : Nat} {p : Port} {i : RingIdx} (h : BlockInv s)
    (hr : s.blockStatus = .running) (hk : s.port? k = some p) (hp : s.rx.phase = .offer k)
    (hg : (p.ring.get i).guard = .free) :
    BlockInv ((s.setPort k { p with ring := p.ring.set i { p.ring.get i with guard := .held .rx } }).setRxPhase
      (.copy k i)) := by
  have hslot := h.slotOk (slot?_ring i hk)
  exact h.setRingSlot_setRxPhase hr hk (.inl ⟨k, hp⟩) (.inr (by simp [holdsRing_iff])) (.inl hg) (.inr rfl)
    (by simp [holdsRing_iff]) hslot (.inl rfl) (by simp [rxPhaseOk, h.port_inRange hk, h.offer_telegramOk hp])

/-- RX_COPY stores the telegram, whose length is the slot's (R157). -/
theorem BlockInv.copy {s : State} {k : Nat} {p : Port} {i : RingIdx} {m : Memory} (h : BlockInv s)
    (hr : s.blockStatus = .running) (hk : s.port? k = some p) (hp : s.rx.phase = .copy k i)
    (hg : (p.ring.get i).guard = .held .rx)
    (hm : copyRange s.cfg.bufSize s.rx.slot.data (p.ring.get i).data s.rx.n = .ok m) :
    BlockInv ((s.setPort k { p with ring := p.ring.set i { p.ring.get i with data := m, length := s.rx.n } }).setRxPhase
      (.advance k i)) := by
  have hholds : s.rx.phase.holdsRing k i = true := holdsRing_iff.mpr (.inl hp)
  have htel := h.ring_telegramOk hholds
  obtain ⟨hcap, -⟩ := h.telegram_listed hp
  obtain ⟨hwf, hbound, -, -⟩ := h.slotOk (slot?_ring i hk)
  obtain ⟨hcopied, -, hwf', hbound', -⟩ := copyRange_spec hm
  refine h.setRingSlot_setRxPhase hr hk (.inr hholds) (.inr (by simp [holdsRing_iff])) (.inr hg) (.inr hg)
    (by simp [holdsRing_iff, hg]) ⟨hwf' hwf, hbound' hbound, hcap, fun j hj => ?_⟩ (.inr ?_) ?_
  · obtain ⟨-, heq, hsome⟩ := hcopied j hj
    exact heq ▸ hsome
  · exact (telegramOk_iff.mp htel).2
  · simp [rxPhaseOk, h.port_inRange hk, htel, slot?_ring i (port?_setPort_self _ hk)]

/-- The slot RX publishes has the telegram's length. -/
theorem BlockInv.published_length {s : State} {k : Nat} {p : Port} {i : RingIdx} (h : BlockInv s)
    (hk : s.port? k = some p) (hp : s.rx.phase = .advance k i) : (p.ring.get i).length = s.rx.n := by
  have hphase := h.rx_phaseOk
  simp_all [rxPhaseOk, slot?_ring i hk]

/-- RX_ADVANCE moves the head and counts; no slot and no guard changes (R158). -/
theorem BlockInv.advance {s : State} {k : Nat} {p : Port} {i i' : RingIdx} {c : Count} (h : BlockInv s)
    (hr : s.blockStatus = .running) (hk : s.port? k = some p) (hp : s.rx.phase = .advance k i) :
    BlockInv ((s.setPort k { p with head := i', copied := c }).setRxPhase (.release k i)) := by
  have hholds : s.rx.phase.holdsRing k i = true := holdsRing_iff.mpr (.inr (.inl hp))
  have hsame : ∀ j i', (RxPhase.release k i).holdsRing j i' = s.rx.phase.holdsRing j i' := fun j i' => by
    rw [Bool.eq_iff_iff, holdsRing_iff, holdsRing_iff]
    simp [hp]
  refine h.setPort_setRxPhase hk (by simp [hr]) (by simp [hp]) (by simp [hp, RxPhase.holdsSlot])
    (fun j _ => hsame j) ?_ ?_
  · simp [rxPhaseOk, h.port_inRange hk, h.ring_telegramOk hholds, slot?_ring i (port?_setPort_self _ hk),
      h.published_length hk hp]
  · exact (h.invPort hk).congr rfl rfl (hsame k) fun _ => rfl

/-- RX_RELEASE frees the slot's guard (R159). -/
theorem BlockInv.release {s : State} {k : Nat} {p : Port} {i : RingIdx} (h : BlockInv s)
    (hr : s.blockStatus = .running) (hk : s.port? k = some p) (hp : s.rx.phase = .release k i)
    (hg : (p.ring.get i).guard = .held .rx) :
    BlockInv ((s.setPort k { p with ring := p.ring.set i { p.ring.get i with guard := .free } }).setRxPhase
      (.offer (k + 1))) := by
  have hholds : s.rx.phase.holdsRing k i = true := holdsRing_iff.mpr (.inr (.inr hp))
  have hslot := h.slotOk (slot?_ring i hk)
  exact h.setRingSlot_setRxPhase hr hk (.inr hholds) (.inl ⟨_, rfl⟩) (.inr hg) (.inl rfl) (by simp) hslot (.inl rfl)
    (h.offer_succ_ok hk (by simp) (by simpa using h.ring_telegramOk hholds) (by simp))

/-- RX_DONE frees the receiver slot's guard (R156). -/
theorem BlockInv.rxDone {s : State} {k : Nat} (h : BlockInv s) (hr : s.blockStatus = .running)
    (hp : s.rx.phase = .offer k) (hg : s.rx.slot.guard = .held .rx) :
    BlockInv (s.setRx { s.rx with slot := { s.rx.slot with guard := .free }, phase := .sleep }) := by
  have hguard := rxGuardOk_iff.mp h.rx_guardOk
  have hslot := h.slotOk (slot?_rx s)
  refine h.setReader_setRx hr (by simp [hp]) (h.invReader.congr rfl rfl rfl (by simp [hp])) hslot ?_ rfl
  simp_all [rxGuardOk_iff, RxPhase.holdsSlot]

/-! ### The sender ports (R180 to R185, R190) -/

/-- TX(k) moves between phases in which it holds no guard (R180, R181, R182, R193). -/
theorem BlockInv.setTxPhase {s : State} {k : Nat} {p : Port} {ph : TxPhase} (h : BlockInv s)
    (hr : s.blockStatus = .running) (hk : s.port? k = some p) (hbefore : ∀ i, p.phase.holdsRing i = false)
    (hafter : ∀ i, ph.holdsRing i = false) (hphase : txPhaseOk s.cfg { p with phase := ph } = true) :
    BlockInv (setTxPhase s k p ph) := by
  obtain ⟨-, -, hflow, -⟩ := h.invPort hk
  exact h.setPort hk (fun _ _ => rfl) ((h.invPort hk).sameRing rfl (fun i => by simp [hbefore, hafter]) hphase hflow
    (by simp [hr]))

/-- A sample decides to sleep, or to acquire a slot that is not empty (R181, R193). -/
theorem sampleDecision_cases (p : Port) (f : FlowLevel) (h : RingIdx) :
    sampleDecision p f h = .sleep ∨ sampleDecision p f h = .acquire h ∧ (p.ring.get h).length ≠ 0 := by
  unfold sampleDecision mayTransmit
  split <;> simp_all

theorem BlockInv.sampleDecision {s : State} {k : Nat} {p : Port} (h : BlockInv s) (hr : s.blockStatus = .running)
    (hk : s.port? k = some p) (hbefore : ∀ i, p.phase.holdsRing i = false) (f : FlowLevel) (i : RingIdx) :
    BlockInv (Machine.setTxPhase s k p (sampleDecision p f i)) := by
  rcases sampleDecision_cases p f i with heq | ⟨heq, hlen⟩ <;> rw [heq]
  · exact h.setTxPhase hr hk hbefore (fun _ => rfl) rfl
  · exact h.setTxPhase hr hk hbefore (fun _ => rfl) (by simpa [txPhaseOk] using hlen)

/-- TX(k) takes the guard of the slot it is to send, or empties and frees it; RX and CTRL hold it neither before nor
after (R182, R184, R185). -/
theorem BlockInv.setRingSlot_tx {s : State} {k : Nat} {p q : Port} {i : RingIdx} {sl : Slot} {ph : TxPhase}
    (h : BlockInv s) (hr : s.blockStatus = .running) (hk : s.port? k = some p) (hq : InvPort s k q)
    (hring : q.ring = p.ring) (hother : ∀ i', i' ≠ i → ph.holdsRing i' = q.phase.holdsRing i')
    (hold : (p.ring.get i).guard = .free ∨ (p.ring.get i).guard = .held (.tx k))
    (hnew : sl.guard = .free ∨ sl.guard = .held (.tx k)) (hown : ph.holdsRing i = true ↔ sl.guard = .held (.tx k))
    (hslot : SlotOk s.cfg.bufSize sl) (hone : sl.length ≠ 1)
    (hphase : txPhaseOk s.cfg { q with ring := q.ring.set i sl, phase := ph } = true) :
    BlockInv (s.setPort k { q with ring := q.ring.set i sl, phase := ph }) := by
  have hguard := ringGuardOk_iff.mp (h.ring_guardOk hk i)
  have hnorx : s.rx.phase.holdsRing k i = false := by rcases hold with hold | hold <;> simp_all
  refine h.setPort hk (fun i' hrx => ?_) ?_
  · have hi : i' ≠ i := by
      rintro rfl
      simp [hnorx] at hrx
    simp [ring_get_set_ne _ _ hi, hring]
  · refine hq.setSlot rfl rfl (fun _ _ => rfl) hother (fun _ _ => rfl) hslot hone ?_ hphase (by simp [hr])
    rcases hold with hold | hold <;> rcases hnew with hnew | hnew <;> simp_all [ringGuardOk_iff]

/-- TX_ACQUIRE (R182). -/
theorem BlockInv.acquire {s : State} {k : Nat} {p : Port} {i : RingIdx} (h : BlockInv s) (hr : s.blockStatus = .running)
    (hk : s.port? k = some p) (hp : p.phase = .acquire i) (hg : (p.ring.get i).guard = .free)
    (hl : (p.ring.get i).length ≠ 0) :
    BlockInv (s.setPort k { p with
      ring := p.ring.set i { p.ring.get i with guard := .held (.tx k) }
      phase := .send i 0 (p.ring.get i).length }) := by
  obtain ⟨hslots, -⟩ := h.invPort hk
  obtain ⟨hslot, hone, -⟩ := hslots i
  exact h.setRingSlot_tx hr hk (h.invPort hk) rfl (fun i' hi => by simp [hp, TxPhase.holdsRing, Ne.symm hi]) (.inl hg)
    (.inr rfl) (by simp) hslot hone (by simp [txPhaseOk, hl])

/-- The end of a transmission, whichever counter it moves (R184, R185). -/
theorem BlockInv.endTransmission {s : State} {k : Nat} {p q : Port} {i : RingIdx} {j len : Nat} (h : BlockInv s)
    (hr : s.blockStatus = .running) (hk : s.port? k = some p) (hp : p.phase = .send i j len)
    (hg : (p.ring.get i).guard = .held (.tx k)) (hq : InvPort s k q) (hring : q.ring = p.ring)
    (hphase : q.phase = p.phase) :
    BlockInv (s.setPort k { q with
      ring := q.ring.set i { q.ring.get i with guard := .free, length := 0 }, phase := .sleep }) := by
  have ⟨hslots, _⟩ := hq
  obtain ⟨⟨hwf, hbound, -, -⟩, -⟩ := hslots i
  refine h.setRingSlot_tx hr hk hq hring (fun i' hi => ?_) (.inr hg) (.inl rfl) (by simp [TxPhase.holdsRing])
    ⟨hwf, hbound, Nat.zero_le _, listed_zero _⟩ (by simp) rfl
  simp [hphase, hp, TxPhase.holdsRing, Ne.symm hi]

/-- TX_BYTE (R183). -/
theorem BlockInv.txByte {s : State} {k : Nat} {p : Port} {i : RingIdx} {j len : Nat} {out : List Byte} (h : BlockInv s)
    (hr : s.blockStatus = .running) (hk : s.port? k = some p) (hp : p.phase = .send i j len) (hj : j < len) :
    BlockInv (s.setPort k { p with out := out, phase := .send i (j + 1) len }) := by
  obtain ⟨-, hphase, hflow, -⟩ := h.invPort hk
  have hlen := h.send_length hk hp
  refine h.setPort hk (fun _ _ => rfl) ((h.invPort hk).sameRing rfl ?_ ?_ hflow (by simp [hr]))
  · simp [hp, TxPhase.holdsRing]
  · simp [txPhaseOk, hlen]
    omega

/-- A port differs only where the invariant does not look, or in its level together with its pin. -/
theorem BlockInv.setPort_sameRing {s : State} {k : Nat} {p q : Port} (h : BlockInv s) (hk : s.port? k = some p)
    (hring : q.ring = p.ring) (hphase : q.phase = p.phase)
    (hflow : s.blockStatus = .running → q.flowLevel = flowOf s.cfg q.flowIn) : BlockInv (s.setPort k q) := by
  obtain ⟨-, hok, -, hsleep⟩ := h.invPort hk
  refine h.setPort hk (fun i _ => by rw [hring]) ((h.invPort hk).sameRing hring (fun i => by rw [hphase]) ?_ hflow ?_)
  · simpa only [txPhaseOk, hring, hphase] using hok
  · exact fun hh => hphase.trans (hsleep hh)

/-! ### The host's rows (R210 to R215) -/

/-- CTRL moves between phases in which it holds no guard. -/
theorem BlockInv.setCtrlPhase {s : State} {ph : CtrlPhase} (h : BlockInv s) (hr : s.blockStatus = .running)
    (hbefore : ∀ g, s.ctrl.phase.holdsSlot g = false) (hafter : ∀ g, ph.holdsSlot g = false)
    (hphase : ctrlPhaseOk (s.setCtrlPhase ph) = true) : BlockInv (s.setCtrlPhase ph) := by
  have hsame : ∀ g, ph.holdsSlot g = s.ctrl.phase.holdsSlot g := fun g => by rw [hafter, hbefore]
  refine h.of_parts rfl rfl rfl (by simp [hr]) h.invReader (h.slotOk (slot?_rx s)) ?_ h.rx_phaseOk hphase ?_
  · simpa [rxGuardOk_iff, hsame] using rxGuardOk_iff.mp h.rx_guardOk
  · exact fun k p hk => (h.invPort hk).congr rfl rfl (fun _ => rfl) fun i => hsame _

theorem BlockInv.acceptCommand_setCtrlPhase {s t : State} {ph : CtrlPhase} (h : BlockInv s)
    (hafter : ∀ g, ph.holdsSlot g = false) (hphase : ctrlPhaseOk (s.setCtrlPhase ph) = true)
    (e : acceptCommand s (.ok (s.setCtrlPhase ph)) = .next t) : BlockInv t := by
  obtain ⟨hr, hen, hb⟩ := whenEnabled_eq_next.mp e
  cases hb
  exact h.setCtrlPhase hr (by simp_all [CtrlPhase.holdsSlot]) hafter hphase

theorem BlockInv.setEnabled {s t : State} {port : Nat} {v : Bool} (h : BlockInv s) (e : setEnabled port v s = .next t) :
    BlockInv t := by
  cases port with
  | zero =>
    obtain ⟨-, -, hb⟩ := whenEnabled_eq_next.mp e
    cases hb
    exact h
  | succ k =>
    obtain ⟨p, hk, -, -, hb⟩ := whenPortEnabled_eq_next.mp e
    cases hb
    obtain ⟨-, -, hflow, -⟩ := h.invPort hk
    exact h.setPort_sameRing hk (q := { p with enabled := v }) rfl rfl hflow

theorem BlockInv.execCmdInterval {s t : State} {port : Nat} {ms : Millis} (h : BlockInv s)
    (e : execCmdInterval port ms s = .next t) : BlockInv t := by
  cases port with
  | zero =>
    obtain ⟨-, -, hb⟩ := whenEnabled_eq_next.mp e
    cases hb
    exact h
  | succ k =>
    obtain ⟨p, hk, -, -, hb⟩ := whenPortEnabled_eq_next.mp e
    cases hb
    obtain ⟨-, -, hflow, -⟩ := h.invPort hk
    exact h.setPort_sameRing hk (q := { p with interval := ms }) rfl rfl hflow

theorem BlockInv.execCmdDump {s t : State} {g : SlotRef} (h : BlockInv s) (e : execCmdDump g s = .next t) :
    BlockInv t := by
  cases g with
  | rx => exact h.acceptCommand_setCtrlPhase (fun _ => rfl) rfl e
  | ring k i =>
    obtain ⟨p, hk, hr, hen, hb⟩ := whenPortEnabled_eq_next.mp e
    cases hb
    exact h.setCtrlPhase hr (by simp_all [CtrlPhase.holdsSlot]) (fun _ => rfl) (h.port_inRange hk)

/-- CTRL_DUMP_ACQ takes the guard of the slot (R214). -/
theorem BlockInv.execCtrlDumpAcq {s t : State} {g : SlotRef} (h : BlockInv s) (e : execCtrlDumpAcq g s = .next t) :
    BlockInv t := by
  unfold Machine.execCtrlDumpAcq at e
  split at e
  · split at e <;> cases e
  · next sl hg =>
    obtain ⟨hr, hen, hb⟩ := whenEnabled_eq_next.mp e
    simp only [Bool.and_eq_true, beq_iff_eq] at hen
    obtain ⟨hp, hfree⟩ := hen
    obtain ⟨snap, -, hb⟩ := bind_eq_ok.mp hb
    cases hb
    have hrange := h.ctrl_phaseOk
    refine h.setGuard_setCtrl hr hg (.inl hfree) (.inr rfl) (by simp) (fun g' hne => ?_) ?_
    · simpa [hp, CtrlPhase.holdsSlot] using Ne.symm hne
    · simpa [ctrlPhaseOk, hp] using hrange

/-- CTRL_DUMP_REL frees it (R214). -/
theorem BlockInv.execCtrlDumpRel {s t : State} {g : SlotRef} {snap : List Byte} (h : BlockInv s)
    (e : execCtrlDumpRel g snap s = .next t) : BlockInv t := by
  obtain ⟨hr, hen, hb⟩ := whenEnabled_eq_next.mp e
  have hp : s.ctrl.phase = .dumpRel g snap := by simpa using hen
  obtain ⟨u, hu, hb⟩ := bind_eq_ok.mp hb
  obtain ⟨sl, hg, hheld, rfl⟩ := release_eq_ok.mp hu
  cases hb
  refine h.setGuard_setCtrl hr hg (.inr hheld) (.inl rfl) (by simp [CtrlPhase.holdsSlot]) (fun g' hne => ?_) rfl
  simpa [hp, CtrlPhase.holdsSlot] using Ne.symm hne

/-- CTRL_STATS_SLOT: the cursor stays within the 3N + 1 slots, one length for each slot passed (R215). -/
theorem BlockInv.execCtrlStatsSlot {s t : State} {j : Nat} {lens : List Nat} (h : BlockInv s)
    (e : execCtrlStatsSlot j lens s = .next t) : BlockInv t := by
  unfold Machine.execCtrlStatsSlot at e
  split at e
  · split at e <;> cases e
  · next sl hg =>
    obtain ⟨hr, hen, hb⟩ := whenEnabled_eq_next.mp e
    simp only [Bool.and_eq_true, beq_iff_eq] at hen
    obtain ⟨hp, -⟩ := hen
    cases hb
    have hrange : j ≤ 3 * s.cfg.n ∧ lens.length = j := by simpa [ctrlPhaseOk, hp] using h.ctrl_phaseOk
    refine h.setCtrlPhase hr (by simp [hp, CtrlPhase.holdsSlot]) (fun g => ?_) ?_
    · split <;> rfl
    · unfold ctrlPhaseOk
      by_cases hj : j < 3 * s.cfg.n
      · simp [hj, hrange.2]
      · simp [hj, hrange.2]
        omega

theorem BlockInv.execCtrlStatsEnd {s t : State} {lens : List Nat} (h : BlockInv s)
    (e : execCtrlStatsEnd lens s = .next t) : BlockInv t := by
  obtain ⟨hr, hen, hb⟩ := whenEnabled_eq_next.mp e
  cases hb
  have hrespond : BlockInv (s.respond ⟨0, statsPayload s lens⟩) := h
  exact hrespond.setCtrlPhase hr (by simp_all [CtrlPhase.holdsSlot]) (fun _ => rfl) rfl

theorem BlockInv.execCmdMalformed {s t : State} {line : List Byte} (h : BlockInv s)
    (e : execCmdMalformed line s = .next t) : BlockInv t := by
  obtain ⟨-, -, hb⟩ := whenEnabled_eq_next.mp e
  cases hb
  exact h

theorem BlockInv.exec_hostRow {s t : State} {i : Instr} (h : BlockInv s) (hi : isHostRow i = true)
    (e : exec i s = .next t) : BlockInv t := by
  cases i with
  | ctrlDumpAcq g => exact h.execCtrlDumpAcq e
  | ctrlDumpRel g snap => exact h.execCtrlDumpRel e
  | ctrlStatsSlot j lens => exact h.execCtrlStatsSlot e
  | ctrlStatsEnd lens => exact h.execCtrlStatsEnd e
  | cmdEnable port | cmdDisable port => exact h.setEnabled e
  | cmdInterval port ms => exact h.execCmdInterval e
  | cmdDump g => exact h.execCmdDump e
  | cmdStats => exact h.acceptCommand_setCtrlPhase (fun _ => rfl) rfl e
  | cmdMalformed line => exact h.execCmdMalformed (line := line) e
  | _ => cases hi

/-! ### Every row -/

/-- FLOW_EDGE: the pin and its meaning move together (R190, R192); in Halted only the pin moves. -/
theorem BlockInv.execFlowEdge {s t : State} {k : Nat} {v : Level} (h : BlockInv s) (e : execFlowEdge k v s = .next t) :
    BlockInv t := by
  unfold Machine.execFlowEdge at e
  split at e
  · cases e
  · next p hk =>
    split at e
    · next hh =>
      cases e
      exact h.setPort_sameRing hk rfl rfl (by simp [hh])
    · cases e
      exact h.setPort_sameRing hk rfl rfl fun _ => rfl

/-- Every internal step of RX or TX(k), TIMEOUT and the ticks, each of which a running block takes. -/
theorem BlockInv.exec_running {s t : State} {i : Instr} (h : BlockInv s) (hb : isByteRow i = false)
    (hh : isHostRow i = false) (hf : ∀ k v, i ≠ .flowEdge k v) (e : exec i s = .next t) : BlockInv t := by
  have hr := running_of_exec e hb hf
  cases exec_effect e with
  | byteIgnored _ hi | byteNoRoom _ _ hi | byteStored _ _ _ hi => simp [hb] at hi
  | ctrlOnly _ _ hi => simp [hh] at hi
  | rxEnabled _ _ _ hi | portEnabled _ _ _ _ _ _ hi => rcases hi with rfl | rfl <;> cases hh
  | dumpAcq | dumpRel | rxInterval | portInterval => cases hh
  | flowEdge k v | flowEdgeHalted k v => exact absurd rfl (hf k v)
  | timeout hw hg => exact h.readFinish_failed hr hw hg rfl rfl
  | readOk | readFailed => exact h.execReadComplete e
  | readArm => exact h.execReadArm e
  | tickRx hp | rxSkip hp => exact h.setRxPhase hr (by simp [hp]) (by simp [hp]) (by simp [hp, RxPhase.holdsSlot]) rfl
  | offerSkip k p hk hp | offerBusy k p hk hp => exact h.offer_next hr hk hp
  | offerTaken k p hk hp hg => exact h.offer_taken hr hk hp hg
  | copy k i p m hk hp hg hm => exact h.copy hr hk hp hg hm
  | advance k i p hk hp => exact h.advance hr hk hp
  | release k i p hk hp hg => exact h.release hr hk hp hg
  | rxDone hp hg => exact h.rxDone hr hp hg
  | tickTx k p hk hp => exact h.setTxPhase hr hk (by simp [hp, TxPhase.holdsRing]) (fun _ => rfl) rfl
  | txSample k p hk hp => exact h.sampleDecision hr hk (by simp [hp, TxPhase.holdsRing]) _ _
  | txSampleFlow k p hk hp hc =>
    exact h.setTxPhase hr hk (by simp [hp, TxPhase.holdsRing]) (fun _ => rfl) (by simp [txPhaseOk, hc])
  | txSampleHead k f p hk hp =>
    obtain ⟨-, hphase, -⟩ := h.invPort hk
    exact h.setTxPhase hr hk (by simp [hp, TxPhase.holdsRing]) (fun _ => rfl) (by simpa [txPhaseOk, hp] using hphase)
  | txSampleLen k f h' p hk hp => exact h.sampleDecision hr hk (by simp [hp, TxPhase.holdsRing]) _ _
  | acquireEmpty k h' p hk hp => exact h.setTxPhase hr hk (by simp [hp, TxPhase.holdsRing]) (fun _ => rfl) rfl
  | acquire k h' p hk hp hg hl => exact h.acquire hr hk hp hg hl
  | txByte k h' i len p b hk hp hi => exact h.txByte hr hk hp hi
  | txAbort k h' i len p hk hp hi hg =>
    have hq := h.invPort hk
    exact h.endTransmission (q := { p with aborted := p.aborted + 1 }) hr hk hp hg hq rfl rfl
  | txDone k h' len p hk hp hg =>
    have hq := h.invPort hk
    exact h.endTransmission (q := { p with written := p.written + 1 }) hr hk hp hg hq rfl rfl

/-- Every row keeps the invariant. -/
theorem BlockInv.exec {s t : State} {i : Instr} (h : BlockInv s) (e : exec i s = .next t) : BlockInv t := by
  by_cases hf : ∃ k v, i = .flowEdge k v
  · obtain ⟨k, v, rfl⟩ := hf
    exact h.execFlowEdge e
  cases hb : isByteRow i with
  | true => exact h.exec_byteRow hb e
  | false =>
    cases hh : isHostRow i with
    | true => exact h.exec_hostRow hh e
    | false => exact h.exec_running hb hh (fun k v hi => hf ⟨k, v, hi⟩) e

/-- Settles O45: a step is idle, loses a turn, or runs a row. -/
theorem stepKeepsTheInvariant : Obligations.StepKeepsTheInvariant := by
  intro s t h e
  rcases step_cases e with rfl | ⟨rest, rfl⟩ | ⟨i, rest, -, e⟩
  · exact h
  · exact h.setAgenda rest
  · exact (h.setAgenda rest).exec e

end Sys2Proof.Machine
end

/-! # Guards and buffer bytes

The step an agent's phase selects can be taken, and an agent that holds a guard has one. Then what a row can do to one
slot, and from it who changes a slot and which bytes. -/

section
namespace Sys2Proof.Machine

/-! ### The selected step can be taken -/

/-- A row that is enabled answers in a state of the invariant, for no row faults there. -/
theorem BlockInv.answers_of_enabled {s : State} {i : Instr} {en : Bool} {body : Except Fault State} (h : BlockInv s)
    (hi : Machine.exec i s = whenEnabled s en body) (hr : s.blockStatus = .running) (hen : en = true) :
    ∃ t, Machine.exec i s = .next t := by
  cases e : Machine.exec i s with
  | next t => exact ⟨t, rfl⟩
  | fault f => exact absurd e (h.exec_ne_fault i f)
  | refused r => simp [hi, whenEnabled, hr, hen] at e

/-- The same for a row of a sender port that exists. -/
theorem BlockInv.answers_of_portEnabled {s : State} {i : Instr} {k : Nat} {p : Port} {en : Port → Bool}
    {body : Port → Except Fault State} (h : BlockInv s) (hi : Machine.exec i s = whenPortEnabled s k en body)
    (hr : s.blockStatus = .running) (hk : s.port? k = some p) (hen : en p = true) : ∃ t, Machine.exec i s = .next t :=
  h.answers_of_enabled (by rw [hi, whenPortEnabled, hk]) hr hen

/-- In the phases of a copy the port RX is at exists (R40). -/
theorem BlockInv.port_of_holdsRing {s : State} {k : Nat} {i : RingIdx} (h : BlockInv s)
    (hp : s.rx.phase.holdsRing k i = true) : ∃ p, s.port? k = some p := by
  have hphase := h.rx_phaseOk
  obtain ⟨-, hlen, -⟩ := h
  obtain ⟨hlow, hhigh⟩ : 1 ≤ k ∧ k ≤ s.cfg.n := by
    rcases holdsRing_iff.mp hp with hp | hp | hp <;> simp_all [rxPhaseOk, portInRange]
  exact port?_exists hlow (hlen ▸ hhigh)

/-- Between two offers RX is at a port, or past the last one (R40, R155, R156). -/
theorem BlockInv.port_of_offer {s : State} {k : Nat} (h : BlockInv s) (hp : s.rx.phase = .offer k)
    (hk : k ≠ s.cfg.n + 1) : ∃ p, s.port? k = some p := by
  obtain ⟨⟨hlow, hhigh⟩, -⟩ : (1 ≤ k ∧ k ≤ s.cfg.n + 1) ∧ telegramOk s = true := by
    simpa [rxPhaseOk, hp] using h.rx_phaseOk
  obtain ⟨-, hlen, -⟩ := h
  exact port?_exists hlow (by omega)

theorem BlockInv.selectedRx_answers {s : State} {i : Instr} (h : BlockInv s) (hr : s.blockStatus = .running)
    (hsel : selectedRx s = some i) : ∃ t, Machine.exec i s = .next t := by
  unfold selectedRx at hsel
  split at hsel
  case h_1 => cases hsel
  case h_2 hp =>
    split at hsel
    · next hen =>
      split at hsel
      · next hfree =>
        cases hsel
        exact h.answers_of_enabled rfl hr (by simp [hp, hen, hfree])
      · cases hsel
    · next hen =>
      cases hsel
      exact h.answers_of_enabled rfl hr (by simp [hp, hen])
  case h_3 hp =>
    split at hsel
    · next hdone =>
      cases hsel
      exact h.answers_of_enabled rfl hr (by simp [hp, hdone])
    · cases hsel
  case h_4 k hp =>
    split at hsel
    · next hk =>
      cases hsel
      exact h.answers_of_enabled rfl hr (by simp [hp, hk])
    · obtain ⟨p, hk, hi⟩ := Option.map_eq_some_iff.mp hsel
      split at hi
      · next hen =>
        cases hi
        exact h.answers_of_portEnabled rfl hr hk (by simp [hp, hen])
      · next hen =>
        cases hi
        exact h.answers_of_portEnabled rfl hr hk (by simp [hp, hen])
  case h_5 k j hp =>
    split at hsel
    · cases hsel
      have hholds : s.rx.phase.holdsRing k j = true := by simp [hp, RxPhase.holdsRing]
      obtain ⟨p, hk⟩ := h.port_of_holdsRing hholds
      exact h.answers_of_portEnabled rfl hr hk (by simp [hp, h.ring_held_rx hk hholds])
    · cases hsel
  case h_6 k j hp | h_7 k j hp =>
    cases hsel
    obtain ⟨p, hk⟩ := h.port_of_holdsRing (k := k) (i := j) (by simp [hp, RxPhase.holdsRing])
    exact h.answers_of_portEnabled rfl hr hk (by simp [hp])

theorem BlockInv.selectedTx_answers {s : State} {k : Nat} {p : Port} {i : Instr} (h : BlockInv s)
    (hr : s.blockStatus = .running) (hk : s.port? k = some p) (hsel : selectedTx s.cfg k p = some i) :
    ∃ t, Machine.exec i s = .next t := by
  unfold selectedTx at hsel
  split at hsel
  case h_1 => cases hsel
  case h_2 hp =>
    split at hsel
    all_goals
      next hgran =>
      cases hsel
      exact h.answers_of_portEnabled rfl hr hk (by simp [hp, hgran])
  case h_3 hp | h_4 hp =>
    cases hsel
    exact h.answers_of_portEnabled rfl hr hk (by simp [hp])
  case h_5 j hp =>
    split at hsel
    · next hfree =>
      cases hsel
      exact h.answers_of_portEnabled rfl hr hk (by simp [hp, hfree])
    · cases hsel
  case h_6 j n len hp =>
    split at hsel
    · next hlt =>
      split at hsel
      all_goals
        next hflow =>
        cases hsel
        exact h.answers_of_portEnabled rfl hr hk (by simp [hp, hlt, hflow])
    · split at hsel
      · next heq =>
        cases hsel
        exact h.answers_of_portEnabled rfl hr hk (by simp [hp, heq])
      · cases hsel

theorem BlockInv.selectedCtrl_answers {s : State} {i : Instr} (h : BlockInv s) (hr : s.blockStatus = .running)
    (hsel : selectedCtrl s = some i) : ∃ t, Machine.exec i s = .next t := by
  unfold selectedCtrl at hsel
  split at hsel
  case h_1 => cases hsel
  case h_2 g hp =>
    split at hsel
    · next hfree =>
      cases hsel
      obtain ⟨sl, hg, hsl⟩ := guardFree_eq_true.mp hfree
      exact h.answers_of_enabled (by simp only [Machine.exec, Machine.execCtrlDumpAcq, hg]; rfl) hr (by simp [hp, hsl])
    · cases hsel
  case h_3 hp | h_5 hp =>
    cases hsel
    exact h.answers_of_enabled rfl hr (by simp [hp])
  case h_4 j lens hp =>
    split at hsel
    · next hfree =>
      cases hsel
      obtain ⟨sl, hg, hsl⟩ := guardFree_eq_true.mp hfree
      exact h.answers_of_enabled (by simp only [Machine.exec, Machine.execCtrlStatsSlot, hg]; rfl) hr (by simp [hp, hsl])
    · cases hsel

/-- In a state of the invariant the step a phase register selects can be taken (R89). -/
theorem BlockInv.selected_answers {s : State} {a : Agent} {i : Instr} (h : BlockInv s) (hsel : selected a s = some i) :
    ∃ t, Machine.exec i s = .next t := by
  unfold selected at hsel
  split at hsel
  · cases hsel
  · next hne =>
    have hr : s.blockStatus = .running := by cases hb : s.blockStatus <;> simp_all
    cases a with
    | rx => exact h.selectedRx_answers hr hsel
    | tx k =>
      obtain ⟨p, hk, hsel⟩ := Option.bind_eq_some_iff.mp hsel
      exact h.selectedTx_answers hr hk hsel
    | ctrl => exact h.selectedCtrl_answers hr hsel

/-! ### A guard says its holder's phase -/

/-- A phase in which RX holds a ring slot is one in which it holds its own. -/
theorem RxPhase.holdsSlot_of_holdsRing {ph : RxPhase} {k : Nat} {i : RingIdx} (hp : ph.holdsRing k i = true) :
    ph.holdsSlot = true := by
  rcases holdsRing_iff.mp hp with rfl | rfl | rfl <;> rfl

theorem BlockInv.rx_holdsSlot {s : State} {g : SlotRef} (h : BlockInv s) (hg : s.holds .rx g = true) :
    s.rx.phase.holdsSlot = true := by
  obtain ⟨sl, hsl, hheld⟩ := holds_eq_true.mp hg
  cases g with
  | rx =>
    cases hsl
    obtain ⟨hrx, -⟩ := rxGuardOk_iff.mp h.rx_guardOk
    exact hrx.mpr hheld
  | ring k i =>
    obtain ⟨p, hk, rfl⟩ := slot?_ring_eq_some.mp hsl
    obtain ⟨hrx, -⟩ := ringGuardOk_iff.mp (h.ring_guardOk hk i)
    exact RxPhase.holdsSlot_of_holdsRing (hrx.mpr hheld)

theorem BlockInv.tx_sends {s : State} {k : Nat} {g : SlotRef} (h : BlockInv s) (hg : s.holds (.tx k) g = true) :
    ∃ p i j len, s.port? k = some p ∧ p.phase = .send i j len := by
  obtain ⟨sl, hsl, hheld⟩ := holds_eq_true.mp hg
  cases g with
  | rx =>
    cases hsl
    obtain ⟨-, -, hno⟩ := rxGuardOk_iff.mp h.rx_guardOk
    exact absurd hheld (hno k)
  | ring k' i =>
    obtain ⟨p, hk, rfl⟩ := slot?_ring_eq_some.mp hsl
    obtain ⟨-, htx, -, howner⟩ := ringGuardOk_iff.mp (h.ring_guardOk hk i)
    obtain rfl := howner k hheld
    have hholds := htx.mpr hheld
    unfold TxPhase.holdsRing at hholds
    split at hholds
    · next hp => exact ⟨p, _, _, _, hk, hp⟩
    · cases hholds

theorem BlockInv.ctrl_dumps {s : State} {g : SlotRef} (h : BlockInv s) (hg : s.holds .ctrl g = true) :
    ∃ snap, s.ctrl.phase = .dumpRel g snap := by
  obtain ⟨sl, hsl, hheld⟩ := holds_eq_true.mp hg
  have hholds : s.ctrl.phase.holdsSlot g = true := by
    cases g with
    | rx =>
      cases hsl
      obtain ⟨-, hctrl, -⟩ := rxGuardOk_iff.mp h.rx_guardOk
      exact hctrl.mpr hheld
    | ring k i =>
      obtain ⟨p, hk, rfl⟩ := slot?_ring_eq_some.mp hsl
      obtain ⟨-, -, hctrl, -⟩ := ringGuardOk_iff.mp (h.ring_guardOk hk i)
      exact hctrl.mpr hheld
  unfold CtrlPhase.holdsSlot at hholds
  split at hholds
  · next g' snap hp => exact ⟨snap, by rw [hp, beq_iff_eq.mp hholds]⟩
  · cases hholds

/-! ### A holder has a step -/

/-- RX that holds its slot's guard has a step, unless it waits for a read that has not completed (R70). -/
theorem BlockInv.selectedRx_of_holdsSlot {s : State} (h : BlockInv s) (hp : s.rx.phase.holdsSlot = true)
    (hw : s.rx.phase = .wait → s.reader.done = true) : ∃ i, selectedRx s = some i := by
  cases hph : s.rx.phase with
  | sleep | start => simp [hph, RxPhase.holdsSlot] at hp
  | wait => exact ⟨.readComplete, by simp [selectedRx, hph, hw hph]⟩
  | offer k =>
    by_cases hk : k = s.cfg.n + 1
    · exact ⟨.rxDone, by simp [selectedRx, hph, hk]⟩
    · obtain ⟨p, hport⟩ := h.port_of_offer hph hk
      exact ⟨_, by simp only [selectedRx, hph, if_neg hk, hport]; rfl⟩
  | copy k i =>
    have hholds : s.rx.phase.holdsRing k i = true := by simp [hph, RxPhase.holdsRing]
    obtain ⟨p, hk⟩ := h.port_of_holdsRing hholds
    have hheld : s.holds .rx (.ring k i) = true := holds_eq_true.mpr ⟨_, slot?_ring i hk, h.ring_held_rx hk hholds⟩
    exact ⟨.rxCopy k i, by simp [selectedRx, hph, hheld]⟩
  | advance k i => exact ⟨.rxAdvance k i, by simp [selectedRx, hph]⟩
  | release k i => exact ⟨.rxRelease k i, by simp [selectedRx, hph]⟩

/-- TX(k) that sends has a step: a byte, an abort or the end (R183 to R185). -/
theorem BlockInv.selectedTx_of_send {s : State} {k : Nat} {p : Port} {i : RingIdx} {j len : Nat} (h : BlockInv s)
    (hk : s.port? k = some p) (hp : p.phase = .send i j len) : ∃ r, selectedTx s.cfg k p = some r := by
  obtain ⟨-, hphase, -⟩ := h.invPort hk
  obtain ⟨⟨hle, -⟩, -⟩ : (j ≤ len ∧ len ≠ 0) ∧ (p.ring.get i).length = len := by simpa [txPhaseOk, hp] using hphase
  rcases Nat.lt_or_eq_of_le hle with hlt | rfl
  · cases hf : p.flowLevel with
    | asserted => exact ⟨.txByte k i j len, by simp [selectedTx, hp, hlt, hf]⟩
    | deasserted => exact ⟨.txAbort k i j len, by simp [selectedTx, hp, hlt, hf]⟩
  · exact ⟨.txDone k i j, by simp [selectedTx, hp]⟩

/-- An agent that holds a guard has a step, or is RX waiting for its read. -/
theorem BlockInv.selected_of_holds {s : State} {a : Agent} {g : SlotRef} (h : BlockInv s)
    (hr : s.blockStatus = .running) (hg : s.holds a g = true) :
    (∃ i, selected a s = some i) ∨ (a = .rx ∧ s.rx.phase = .wait ∧ s.reader.done = false) := by
  cases a with
  | rx =>
    by_cases hw : s.rx.phase = .wait ∧ s.reader.done = false
    · exact .inr ⟨rfl, hw⟩
    · left
      simpa [selected, hr] using h.selectedRx_of_holdsSlot (h.rx_holdsSlot hg) (by simpa using hw)
  | tx k =>
    obtain ⟨p, i, j, len, hk, hp⟩ := h.tx_sends hg
    left
    simpa [selected, hr, hk] using h.selectedTx_of_send hk hp
  | ctrl =>
    obtain ⟨snap, hp⟩ := h.ctrl_dumps hg
    exact .inl ⟨.ctrlDumpRel g snap, by simp [selected, hr, selectedCtrl, hp]⟩

/-- Settles O51: the holder's phase selects a step, which can be taken; in RxWait before completion TIMEOUT is enabled. -/
theorem guardHoldersCanMove : Obligations.GuardHoldersCanMove := by
  intro s a g h hr hg
  rcases h.selected_of_holds hr hg with ⟨i, hsel⟩ | ⟨rfl, hw, hdone⟩
  · obtain ⟨t, ht⟩ := h.selected_answers hsel
    exact .inl ⟨i, t, hsel, ht⟩
  · exact .inr ⟨rfl, h.answers_of_enabled (i := .timeout) rfl hr (by simp [hw, hdone])⟩

/-! ### What a row writes to a slot -/

/-- What row i, run in `s`, can make of slot `g`, from the first slot to the second. Any row may move a guard; each write
of data or length names its rows, and the phase, reader state or guard it needs. -/
inductive SlotWrite (s : State) (i : Instr) : SlotRef → Slot → Slot → Prop where
  | guard (g : SlotRef) (a : Slot) (gd : Guard) : SlotWrite s i g a { a with guard := gd }
  | byte (a : Slot) (v : Byte) (hi : isByteRow i = true) (hs : s.reader.state ≠ .idle) :
      SlotWrite s i .rx a { a with data := Memory.insert a.data (byteOffset s) v }
  | readEnd (a : Slot) (gd : Guard) (n : Nat) (hi : i = .readComplete ∨ i = .timeout) (hw : s.rx.phase = .wait) :
      SlotWrite s i .rx a { a with guard := gd, length := n }
  | copy (k : Nat) (h : RingIdx) (a : Slot) (m : Memory) (hi : i = .rxCopy k h) (hg : a.guard = .held .rx)
      (hm : copyRange s.cfg.bufSize s.rx.slot.data a.data s.rx.n = .ok m) :
      SlotWrite s i (.ring k h) a { a with data := m, length := s.rx.n }
  | sendEnd (k : Nat) (h : RingIdx) (a : Slot) (hi : (∃ j len, i = .txAbort k h j len) ∨ ∃ len, i = .txDone k h len)
      (hg : a.guard = .held (.tx k)) : SlotWrite s i (.ring k h) a { a with guard := .free, length := 0 }

/-- Slot `g` is in `t` as it was in `s`, or row i wrote it. -/
def SlotKeptOrWritten (s : State) (i : Instr) (t : State) (g : SlotRef) : Prop :=
  t.slot? g = s.slot? g ∨ ∃ a b, s.slot? g = some a ∧ t.slot? g = some b ∧ SlotWrite s i g a b

theorem SlotKeptOrWritten.congr {s t u : State} {i : Instr} {g : SlotRef} (h : SlotKeptOrWritten s i t g)
    (hu : u.slot? g = t.slot? g) : SlotKeptOrWritten s i u g := by
  rwa [SlotKeptOrWritten, hu]

/-- The slots depend on the receiver's slot and on the ports only. -/
theorem slot?_congr {s t : State} {g : SlotRef} (hr : t.rx.slot = s.rx.slot) (hp : t.ports = s.ports) :
    t.slot? g = s.slot? g := by
  cases g with
  | rx => simp [hr]
  | ring k i => cases k <;> simp [State.slot?, State.port?, hp]

/-- A port replaced by one with the same ring leaves every slot. -/
theorem slot?_setPort_sameRing {s : State} {k : Nat} {p q : Port} {g : SlotRef} (hk : s.port? k = some p)
    (hq : q.ring = p.ring) : (s.setPort k q).slot? g = s.slot? g := by
  cases g with
  | rx => simp
  | ring j i =>
    by_cases hj : j = k
    · subst hj
      rw [slot?_ring i (port?_setPort_self q hk), slot?_ring i hk, hq]
    · simp [State.slot?, port?_setPort_ne q hj]

/-- A row that replaces one slot keeps or writes every slot. -/
theorem SlotKeptOrWritten.of_setSlot {s : State} {i : Instr} {g g' : SlotRef} {a b : Slot} (hg : s.slot? g = some a)
    (hw : SlotWrite s i g a b) : SlotKeptOrWritten s i (s.setSlot g b) g' := by
  by_cases h : g' = g
  · subst h
    exact .inr ⟨a, b, hg, slot?_setSlot_self b hg, hw⟩
  · exact .inl (slot?_setSlot_ne b h)

/-- A row that replaces the receiver's slot, and no port. -/
theorem SlotKeptOrWritten.of_rxSlot {s t : State} {i : Instr} {g : SlotRef} (hp : t.ports = s.ports)
    (hw : SlotWrite s i .rx s.rx.slot t.rx.slot) : SlotKeptOrWritten s i t g :=
  (of_setSlot (slot?_rx s) hw).congr (slot?_congr rfl hp)

/-- A row that replaces a port, with one slot of its ring changed. -/
theorem SlotKeptOrWritten.of_setPort {s : State} {i : Instr} {k : Nat} {h : RingIdx} {p q : Port} {b : Slot} {g : SlotRef}
    (hk : s.port? k = some p) (hq : q.ring = p.ring.set h b) (hw : SlotWrite s i (.ring k h) (p.ring.get h) b) :
    SlotKeptOrWritten s i (s.setPort k q) g := by
  refine (of_setSlot (slot?_ring h hk) hw).congr ?_
  rw [setSlot_ring h b hk, ← setPort_setPort s k { p with ring := p.ring.set h b } q]
  exact slot?_setPort_sameRing (port?_setPort_self _ hk) hq

/-- Every row keeps or writes each slot. -/
theorem Effect.slotKeptOrWritten {s t : State} {i : Instr} (e : Effect s i t) (g : SlotRef) :
    SlotKeptOrWritten s i t g := by
  cases e with
  | byteIgnored | byteNoRoom | tickRx | rxSkip | offerSkip | offerBusy | ctrlOnly | rxEnabled | rxInterval =>
    exact .inl (slot?_congr rfl rfl)
  | byteStored _ _ v hi _ hs => exact .of_rxSlot rfl (.byte _ v hi (by rcases hs with hs | hs | hs <;> simp [hs]))
  | timeout hw => exact .of_rxSlot rfl (.readEnd _ _ _ (.inr rfl) hw)
  | readOk n hw | readFailed n hw => exact .of_rxSlot rfl (.readEnd _ _ _ (.inl rfl) hw)
  | readArm | rxDone => exact .of_rxSlot rfl (.guard _ _ _)
  | offerTaken k p hk | release k _ p hk =>
    exact (SlotKeptOrWritten.of_setPort hk rfl (.guard _ _ _)).congr (slot?_setRxPhase ..)
  | copy k h p m hk _ hg hm =>
    exact (SlotKeptOrWritten.of_setPort hk rfl (.copy k h _ m rfl hg hm)).congr (slot?_setRxPhase ..)
  | acquire k h p hk => exact .of_setPort hk rfl (.guard _ _ _)
  | txAbort k h j len p hk _ _ hg => exact .of_setPort hk rfl (.sendEnd k h _ (.inl ⟨j, len, rfl⟩) hg)
  | txDone k h len p hk _ hg => exact .of_setPort hk rfl (.sendEnd k h _ (.inr ⟨len, rfl⟩) hg)
  | tickTx _ _ hk | txSample _ _ hk | txSampleFlow _ _ hk | txSampleHead _ _ _ hk | txSampleLen _ _ _ _ hk
  | acquireEmpty _ _ _ hk | txByte _ _ _ _ _ _ hk | flowEdge _ _ _ hk | flowEdgeHalted _ _ _ hk =>
    exact .inl (slot?_setPort_sameRing hk rfl)
  | advance _ _ _ hk => exact .inl ((slot?_setRxPhase ..).trans (slot?_setPort_sameRing hk rfl))
  | portEnabled _ _ _ _ _ hk | portInterval _ _ _ _ hk =>
    exact .inl ((slot?_setCtrl ..).trans (slot?_setPort_sameRing hk rfl))
  | dumpAcq _ _ _ hg | dumpRel _ _ _ hg =>
    exact (SlotKeptOrWritten.of_setSlot hg (.guard _ _ _)).congr (slot?_setCtrl ..)

/-- What a row that answers made of a slot. -/
theorem slotWrite_of_exec {s t : State} {i : Instr} {g : SlotRef} {a b : Slot} (e : exec i s = .next t)
    (ha : s.slot? g = some a) (hb : t.slot? g = some b) : SlotWrite s i g a b := by
  rcases (exec_effect e).slotKeptOrWritten g with h | ⟨a', b', ha', hb', hw⟩
  · obtain rfl := Option.some.inj ((ha.symm.trans h.symm).trans hb)
    exact .guard g a a.guard
  · obtain rfl := Option.some.inj (ha.symm.trans ha')
    obtain rfl := Option.some.inj (hb.symm.trans hb')
    exact hw

/-! ### Who changes a slot -/

/-- Settles O54: of the writes to a ring slot, those that change its data or its length name their row. -/
theorem ringSlotsChangeOnlyUnderTheirGuard : Obligations.RingSlotsChangeOnlyUnderTheirGuard := by
  intro i s t k h a b e ha hb hne
  cases slotWrite_of_exec e ha hb with
  | guard => simp at hne
  | copy _ _ _ _ hi hg => exact .inl ⟨hi, hg⟩
  | sendEnd _ _ _ hi hg => exact .inr ⟨hi, rfl, hg⟩

/-- In RxWait RX holds its slot's guard (R130). -/
theorem BlockInv.rxSlot_held_of_wait {s : State} (h : BlockInv s) (hw : s.rx.phase = .wait) :
    s.rx.slot.guard = .held .rx := h.rxSlot_held (by simp [hw, RxPhase.holdsSlot])

/-- In RxWait RX holds `rd_lock` (R128). -/
theorem BlockInv.lock_held_of_wait {s : State} (h : BlockInv s) (hw : s.rx.phase = .wait) :
    s.reader.lock = .held .rx := by
  obtain ⟨-, -, -, -, hlock, -⟩ := h.invReader
  simpa [hw] using hlock

/-- Settles O55: a byte is stored only outside Idle, and a read ends only in RxWait; both lie in RxWait, where RX holds
the guard and the lock. -/
theorem receiverSlotChangesOnlyInARead : Obligations.ReceiverSlotChangesOnlyInARead := by
  intro i s t h e
  have hw : SlotWrite s i .rx s.rx.slot t.rx.slot := slotWrite_of_exec e rfl rfl
  generalize t.rx.slot = b at hw
  cases hw with
  | guard => simp
  | byte _ _ hi hs =>
    have hwait := h.wait_of_reader hs
    simp [hi, h.rxSlot_held_of_wait hwait, h.lock_held_of_wait hwait]
  | readEnd _ _ _ hi hwait => simp [hi, h.rxSlot_held_of_wait hwait]

/-! ### Which bytes change -/

/-- A byte read outside the offsets a row writes is the byte of before. -/
theorem SlotWrite.lookup_eq {s : State} {i : Instr} {g : SlotRef} {a b : Slot} {off : Nat} (hw : SlotWrite s i g a b)
    (hbyte : ¬ (isByteRow i = true ∧ g = .rx ∧ off = byteOffset s))
    (hcopy : ¬ ∃ k h, i = .rxCopy k h ∧ g = .ring k h ∧ off < s.rx.n) :
    Memory.lookup b.data off = Memory.lookup a.data off := by
  cases hw with
  | guard | readEnd | sendEnd => rfl
  | byte _ v hi => exact lookup_insert_ne _ v fun hoff => hbyte ⟨hi, rfl, hoff⟩
  | copy k h _ m hi _ hm =>
    obtain ⟨-, hrest, -⟩ := copyRange_spec hm
    exact hrest off (Nat.le_of_not_lt fun hlt => hcopy ⟨k, h, hi, rfl, hlt⟩)

/-- MemRead depends on a slot only through what is listed at the offset. -/
theorem state_memRead_congr_lookup {s t : State} {g : SlotRef} {a b : Slot} {off : Nat} (hc : t.cfg = s.cfg)
    (ha : s.slot? g = some a) (hb : t.slot? g = some b)
    (hl : Memory.lookup b.data off = Memory.lookup a.data off) : t.memRead g off = s.memRead g off := by
  simp [State.memRead, Machine.memRead, hc, ha, hb, hl]

/-- Settles O57: a slot that is kept reads as before, and of a written one every other byte does. -/
theorem bytesChangeOnlyWhereStored : Obligations.BytesChangeOnlyWhereStored := by
  intro i s t g off e hne
  obtain ⟨hcfg, -⟩ := parametersAndStatusNeverChange i s t e
  by_contra hout
  obtain ⟨hbyte, hcopy⟩ := not_or.mp hout
  rcases (exec_effect e).slotKeptOrWritten g with hkept | ⟨a, b, ha, hb, hw⟩
  · exact hne (state_memRead_congr hcfg hkept off)
  · exact hne (state_memRead_congr_lookup hcfg ha hb (hw.lookup_eq hbyte hcopy))

end Sys2Proof.Machine
end

/-! # Words, tokens and the command grammar

What numerals, tokens and command lines read as; then the decoder after the encoder (R80, R81, R90 to R93). -/

section
namespace Sys2Proof

/-! ### Numerals (R91) -/

theorem digitValue_digitByte {d : Nat} (h : d < 10) : digitValue (digitByte d) = some d := by
  have hval : (digitByte d).toNat = 0x30 + d := by simp [digitByte]; omega
  simp only [digitValue, hval]
  rw [if_pos (by omega), Nat.add_sub_cancel_left]

theorem numeralFrom_append (acc : Nat) (a b : List Byte) :
    numeralFrom acc (a ++ b) = (numeralFrom acc a).bind fun v => numeralFrom v b := by
  induction a generalizing acc with
  | nil => rfl
  | cons x a ih =>
    cases hx : digitValue x with
    | none => simp [numeralFrom, hx]
    | some d => simp [numeralFrom, hx, ih]

theorem numeralFrom_digitsOf {fuel v : Nat} (h : v ≤ fuel) : numeralFrom 0 (digitsOf fuel v) = some v := by
  induction fuel generalizing v with
  | zero =>
    obtain rfl := Nat.le_zero.mp h
    rfl
  | succ fuel ih =>
    unfold digitsOf
    split
    · next hv => simp [numeralFrom, digitValue_digitByte hv]
    · have hdiv : v / 10 ≤ fuel := by omega
      have hmod : v % 10 < 10 := Nat.mod_lt v (by omega)
      simp [numeralFrom_append, ih hdiv, numeralFrom, digitValue_digitByte hmod, Nat.div_add_mod]

theorem numeralFrom_replicate_zero (z : Nat) (t : List Byte) :
    numeralFrom 0 (List.replicate z 0x30 ++ t) = numeralFrom 0 t := by
  induction z with
  | zero => rfl
  | succ z ih => exact ih

theorem digitsOf_ne_nil (fuel v : Nat) : digitsOf fuel v ≠ [] := by
  cases fuel with
  | zero => simp [digitsOf]
  | succ fuel => unfold digitsOf; split <;> simp

/-- A numeral reads back, after any number of leading zeros. -/
theorem numeral_replicate_zero_numeralOf (z v : Nat) : numeral (List.replicate z 0x30 ++ numeralOf v) = some v := by
  have hne : List.replicate z 0x30 ++ numeralOf v ≠ [] := List.append_ne_nil_of_right_ne_nil _ (digitsOf_ne_nil v v)
  rw [numeral, if_neg hne, numeralFrom_replicate_zero]
  exact numeralFrom_digitsOf (Nat.le_refl v)

@[simp] theorem numeral_numeralOf (v : Nat) : numeral (numeralOf v) = some v := numeral_replicate_zero_numeralOf 0 v

theorem numeralFrom_eq_none {acc : Nat} {t : List Byte} {b : Byte} (hb : b ∈ t) (hd : digitValue b = none) :
    numeralFrom acc t = none := by
  obtain ⟨front, rest, rfl⟩ := List.append_of_mem hb
  simp [numeralFrom_append, numeralFrom, hd]

/-- A token with a byte that is no digit is no numeral. -/
theorem numeral_eq_none {t : List Byte} {b : Byte} (hb : b ∈ t) (hd : b.toNat < 0x30 ∨ 0x39 < b.toNat) :
    numeral t = none := by
  have hnone : digitValue b = none := if_neg (by omega)
  rw [numeral, if_neg (List.ne_nil_of_mem hb), numeralFrom_eq_none hb hnone]

@[simp] theorem numerals_numberTokens (ns : List Nat) : numerals (numberTokens ns) = some ns := by
  induction ns with
  | nil => rfl
  | cons n ns ih => simp only [numberTokens, List.map_cons, numerals, numeral_numeralOf] at ih ⊢; rw [ih]

/-! ### Tokens (R90) -/

/-- A token of a line: at least one byte, none of them a space. -/
structure IsToken (t : List Byte) : Prop where
  ne_nil : t ≠ []
  no_space : space ∉ t

theorem isToken_numeralOf (v : Nat) : IsToken (numeralOf v) := by
  refine ⟨digitsOf_ne_nil v v, fun hmem => ?_⟩
  have hnone : numeral (numeralOf v) = none := numeral_eq_none hmem (by decide)
  simp at hnone

theorem isToken_of_mem_numberTokens {ns : List Nat} {t : List Byte} (h : t ∈ numberTokens ns) : IsToken t := by
  obtain ⟨n, -, rfl⟩ := List.mem_map.mp h
  exact isToken_numeralOf n

/-- Bytes other than a space go on with the token begun. -/
theorem tokensFrom_append {t : List Byte} (ht : space ∉ t) (cur rest : List Byte) :
    tokensFrom cur (t ++ rest) = tokensFrom (cur ++ t) rest := by
  induction t generalizing cur with
  | nil => simp
  | cons b t ih =>
    obtain ⟨hb, ht⟩ := not_or.mp (List.mem_cons.not.mp ht)
    simp [tokensFrom, Ne.symm hb, ih ht]

theorem tokens_of_isToken {t : List Byte} (h : IsToken t) : tokens t = [t] := by
  obtain ⟨hne, hsp⟩ := h
  simpa [tokens, tokensFrom, hne] using tokensFrom_append hsp [] []

theorem tokens_append_space {t : List Byte} (h : IsToken t) (rest : List Byte) :
    tokens (t ++ space :: rest) = t :: tokens rest := by
  obtain ⟨hne, hsp⟩ := h
  simp [tokens, tokensFrom_append hsp, tokensFrom, hne]

theorem tokens_replicate_space (z : Nat) (rest : List Byte) :
    tokens (List.replicate z space ++ rest) = tokens rest := by
  induction z with
  | zero => rfl
  | succ z ih => simpa [tokens, tokensFrom, List.replicate_succ] using ih

/-- Joined tokens are the tokens of the line. -/
theorem tokens_joinTokens {ts : List (List Byte)} (h : ∀ t ∈ ts, IsToken t) : tokens (joinTokens ts) = ts := by
  induction ts with
  | nil => rfl
  | cons t ts ih =>
    obtain ⟨ht, hts⟩ := List.forall_mem_cons.mp h
    cases ts with
    | nil => exact tokens_of_isToken ht
    | cons u ts => rw [joinTokens, tokens_append_space ht, ih hts]; simp

/-- Settles O5: leading zeros leave the accumulated value at 0, and further spaces start no token. -/
theorem numeralsAndTokens : Obligations.NumeralsAndTokens := by
  refine ⟨numeral_replicate_zero_numeralOf, rfl, fun t b => numeral_eq_none, fun t z rest hne hsp => ?_⟩
  rw [List.append_assoc, List.replicate_succ, List.cons_append, tokens_append_space ⟨hne, hsp⟩, tokens_replicate_space]

/-! ### The command grammar (R90, R91, R211) -/

theorem portOf_eq_some {n p : Nat} {t : List Byte} : portOf n t = some p ↔ numeral t = some p ∧ p ≤ n := by
  unfold portOf
  cases numeral t with
  | none => simp
  | some v =>
    simp only [Option.ite_none_right_eq_some, Option.some.injEq]
    exact ⟨fun ⟨hle, hv⟩ => ⟨hv, hv ▸ hle⟩, fun ⟨hv, hle⟩ => ⟨hv ▸ hle, hv⟩⟩

theorem ringIdxOf_eq_some {v : Nat} {i : RingIdx} : ringIdxOf v = some i ↔ v = i.val := by
  unfold ringIdxOf
  split
  · simp [Fin.ext_iff]
  · next hv => simp; intro h; exact hv (h ▸ i.isLt)

@[simp] theorem ringIdxOf_val (i : RingIdx) : ringIdxOf i.val = some i := ringIdxOf_eq_some.mpr rfl

theorem slotIndexOf_eq_some {t : List Byte} {i : RingIdx} : slotIndexOf t = some i ↔ numeral t = some i.val := by
  unfold slotIndexOf
  cases numeral t with
  | none => simp
  | some v => simp [ringIdxOf_eq_some]

theorem millisOf_eq_some {t : List Byte} {ms : Millis} : millisOf t = some ms ↔ numeral t = some ms.toNat := by
  unfold millisOf
  cases numeral t with
  | none => simp
  | some v =>
    simp only [Option.ite_none_right_eq_some, Option.some.injEq]
    constructor
    · rintro ⟨hlt, rfl⟩
      exact (Nat.mod_eq_of_lt hlt).symm
    · rintro rfl
      exact ⟨ms.isLt, by simp⟩

/-- The five forms of a command, by the tokens of its line, with the row each is read as; `dump` has two. -/
inductive CommandForm (n : Nat) (ts : List (List Byte)) : Instr → Prop where
  | enable (a : List Byte) (p : Nat) (hts : ts = [asciiOf "enable", a]) (hp : numeral a = some p) (hle : p ≤ n) :
      CommandForm n ts (.cmdEnable p)
  | disable (a : List Byte) (p : Nat) (hts : ts = [asciiOf "disable", a]) (hp : numeral a = some p) (hle : p ≤ n) :
      CommandForm n ts (.cmdDisable p)
  | interval (a b : List Byte) (p : Nat) (ms : Millis) (hts : ts = [asciiOf "interval", a, b]) (hp : numeral a = some p)
      (hle : p ≤ n) (hms : numeral b = some ms.toNat) : CommandForm n ts (.cmdInterval p ms)
  | dumpRx (a : List Byte) (hts : ts = [asciiOf "dump", a]) (hp : numeral a = some 0) : CommandForm n ts (.cmdDump .rx)
  | dumpRing (a b : List Byte) (k : Nat) (i : RingIdx) (hts : ts = [asciiOf "dump", a, b]) (hk : numeral a = some k)
      (hpos : 1 ≤ k) (hle : k ≤ n) (hi : numeral b = some i.val) : CommandForm n ts (.cmdDump (.ring k i))
  | stats (hts : ts = [asciiOf "stats"]) : CommandForm n ts .cmdStats

theorem onePort_eq_some {n p : Nat} {args : List (List Byte)} :
    onePort n args = some p ↔ ∃ a, args = [a] ∧ numeral a = some p ∧ p ≤ n := by
  match args with
  | [] => simp [onePort]
  | [a] => simp [onePort, portOf_eq_some]
  | _ :: _ :: _ => simp [onePort]

theorem portAndMillis_eq_some {n : Nat} {args : List (List Byte)} {x : Nat × Millis} :
    portAndMillis n args = some x ↔
      ∃ a b, args = [a, b] ∧ numeral a = some x.1 ∧ x.1 ≤ n ∧ numeral b = some x.2.toNat := by
  match args with
  | [] | [_] | _ :: _ :: _ :: _ => simp [portAndMillis]
  | [a, b] =>
    have hmatch : portAndMillis n [a, b] = some x ↔ portOf n a = some x.1 ∧ millisOf b = some x.2 := by
      cases hp : portOf n a with
      | none => simp [portAndMillis, hp]
      | some p => cases hms : millisOf b <;> simp [portAndMillis, hp, hms, Prod.ext_iff]
    simp [hmatch, portOf_eq_some, millisOf_eq_some, and_assoc]

theorem dumpSlot_eq_rx {n : Nat} {args : List (List Byte)} :
    dumpSlot n args = some .rx ↔ ∃ a, args = [a] ∧ numeral a = some 0 := by
  match args with
  | [] | _ :: _ :: _ :: _ => simp [dumpSlot]
  | [a] => simp [dumpSlot, portOf_eq_some]
  | [a, b] =>
    cases hp : portOf n a with
    | none => simp [dumpSlot, hp]
    | some p => cases hi : slotIndexOf b <;> simp [dumpSlot, hp, hi]

theorem dumpSlot_eq_ring {n k : Nat} {i : RingIdx} {args : List (List Byte)} :
    dumpSlot n args = some (.ring k i) ↔
      ∃ a b, args = [a, b] ∧ numeral a = some k ∧ 1 ≤ k ∧ k ≤ n ∧ numeral b = some i.val := by
  match args with
  | [] | _ :: _ :: _ :: _ => simp [dumpSlot]
  | [a] => simp [dumpSlot]
  | [a, b] =>
    have hmatch : dumpSlot n [a, b] = some (.ring k i) ↔ portOf n a = some k ∧ 1 ≤ k ∧ slotIndexOf b = some i := by
      cases hp : portOf n a with
      | none => simp [dumpSlot, hp]
      | some p =>
        cases hi : slotIndexOf b with
        | none => simp [dumpSlot, hp, hi]
        | some j =>
          simp only [dumpSlot, hp, hi, Option.ite_none_left_eq_some, Option.some.injEq, SlotRef.ring.injEq]
          exact ⟨fun ⟨hne, hk, hj⟩ => ⟨hk, by omega, hj⟩, fun ⟨hk, hpos, hj⟩ => ⟨by omega, hk, hj⟩⟩
    rw [hmatch, portOf_eq_some, slotIndexOf_eq_some]
    constructor
    · rintro ⟨⟨hk, hle⟩, hpos, hi⟩
      exact ⟨a, b, rfl, hk, hpos, hle, hi⟩
    · rintro ⟨_, _, hab, hk, hpos, hle, hi⟩
      cases hab
      exact ⟨⟨hk, hle⟩, hpos, hi⟩

/-! The five command words, each read by its own arguments. -/

theorem commandOf_enable (n : Nat) (args : List (List Byte)) :
    commandOf n (asciiOf "enable" :: args) = (onePort n args).map .cmdEnable := rfl

theorem commandOf_disable (n : Nat) (args : List (List Byte)) :
    commandOf n (asciiOf "disable" :: args) = (onePort n args).map .cmdDisable := rfl

theorem commandOf_interval (n : Nat) (args : List (List Byte)) :
    commandOf n (asciiOf "interval" :: args) = (portAndMillis n args).map fun a => .cmdInterval a.1 a.2 := rfl

theorem commandOf_dump (n : Nat) (args : List (List Byte)) :
    commandOf n (asciiOf "dump" :: args) = (dumpSlot n args).map .cmdDump := rfl

/-- The tokens that spell a command are exactly those of the five forms. -/
theorem commandOf_eq_some {n : Nat} {ts : List (List Byte)} {i : Instr} :
    commandOf n ts = some i ↔ CommandForm n ts i := by
  constructor
  · intro h
    unfold commandOf at h
    split at h
    case h_1 => cases h
    case h_2 w args =>
      split at h
      · next hw =>
        obtain ⟨p, hp, rfl⟩ := Option.map_eq_some_iff.mp h
        obtain ⟨a, rfl, hp, hle⟩ := onePort_eq_some.mp hp
        exact .enable a p (hw ▸ rfl) hp hle
      split at h
      · next hw =>
        obtain ⟨p, hp, rfl⟩ := Option.map_eq_some_iff.mp h
        obtain ⟨a, rfl, hp, hle⟩ := onePort_eq_some.mp hp
        exact .disable a p (hw ▸ rfl) hp hle
      split at h
      · next hw =>
        obtain ⟨x, hx, rfl⟩ := Option.map_eq_some_iff.mp h
        obtain ⟨a, b, rfl, hp, hle, hms⟩ := portAndMillis_eq_some.mp hx
        exact .interval a b x.1 x.2 (hw ▸ rfl) hp hle hms
      split at h
      · next hw =>
        obtain ⟨g, hg, rfl⟩ := Option.map_eq_some_iff.mp h
        cases g with
        | rx =>
          obtain ⟨a, rfl, hp⟩ := dumpSlot_eq_rx.mp hg
          exact .dumpRx a (hw ▸ rfl) hp
        | ring k i =>
          obtain ⟨a, b, rfl, hk, hpos, hle, hi⟩ := dumpSlot_eq_ring.mp hg
          exact .dumpRing a b k i (hw ▸ rfl) hk hpos hle hi
      split at h
      · next hw =>
        obtain ⟨rfl, hi⟩ := Option.ite_none_right_eq_some.mp h
        cases hi
        exact .stats (hw ▸ rfl)
      · cases h
  · intro h
    cases h with
    | enable a p hts hp hle => rw [hts, commandOf_enable, onePort_eq_some.mpr ⟨a, rfl, hp, hle⟩]; rfl
    | disable a p hts hp hle => rw [hts, commandOf_disable, onePort_eq_some.mpr ⟨a, rfl, hp, hle⟩]; rfl
    | interval a b p ms hts hp hle hms =>
      rw [hts, commandOf_interval, portAndMillis_eq_some (x := (p, ms)).mpr ⟨a, b, rfl, hp, hle, hms⟩]; rfl
    | dumpRx a hts hp => rw [hts, commandOf_dump, dumpSlot_eq_rx.mpr ⟨a, rfl, hp⟩]; rfl
    | dumpRing a b k i hts hk hpos hle hi =>
      rw [hts, commandOf_dump, dumpSlot_eq_ring.mpr ⟨a, b, rfl, hk, hpos, hle, hi⟩]; rfl
    | stats hts => rw [hts]; rfl

/-- A line is read by one of the forms, or as CMD_MALFORMED of itself. -/
theorem parseCommand_cases (n : Nat) (line : List Byte) :
    CommandForm n (tokens line) (parseCommand n line) ∨ parseCommand n line = .cmdMalformed line := by
  unfold parseCommand
  cases h : commandOf n (tokens line) with
  | none => exact .inr rfl
  | some i => exact .inl (commandOf_eq_some.mp h)

theorem parseCommand_eq_iff {n : Nat} {line : List Byte} {i : Instr} (hi : i ≠ .cmdMalformed line) :
    parseCommand n line = i ↔ CommandForm n (tokens line) i := by
  constructor
  · rintro rfl
    exact (parseCommand_cases n line).resolve_right hi
  · intro h
    simp [parseCommand, commandOf_eq_some.mpr h]

/-- Settles O4: each row is read by its form alone. -/
theorem commandLinesAreReadByTheGrammar : Obligations.CommandLinesAreReadByTheGrammar := by
  intro n line
  refine ⟨fun p => ?_, fun p => ?_, fun p ms => ?_, ?_, fun k i => ?_, ?_, ?_⟩
  · rw [parseCommand_eq_iff (by simp)]
    exact ⟨fun | .enable a _ hts hp hle => ⟨a, hts, hp, hle⟩, fun ⟨a, hts, hp, hle⟩ => .enable a p hts hp hle⟩
  · rw [parseCommand_eq_iff (by simp)]
    exact ⟨fun | .disable a _ hts hp hle => ⟨a, hts, hp, hle⟩, fun ⟨a, hts, hp, hle⟩ => .disable a p hts hp hle⟩
  · rw [parseCommand_eq_iff (by simp)]
    exact ⟨fun | .interval a b _ _ hts hp hle hms => ⟨a, b, hts, hp, hle, hms⟩,
      fun ⟨a, b, hts, hp, hle, hms⟩ => .interval a b p ms hts hp hle hms⟩
  · rw [parseCommand_eq_iff (by simp)]
    exact ⟨fun | .dumpRx a hts hp => ⟨a, hts, hp⟩, fun ⟨a, hts, hp⟩ => .dumpRx a hts hp⟩
  · rw [parseCommand_eq_iff (by simp)]
    exact ⟨fun | .dumpRing a b _ _ hts hk hpos hle hi => ⟨a, b, hts, hk, hpos, hle, hi⟩,
      fun ⟨a, b, hts, hk, hpos, hle, hi⟩ => .dumpRing a b k i hts hk hpos hle hi⟩
  · rw [parseCommand_eq_iff (by simp)]
    exact ⟨fun | .stats hts => hts, .stats⟩
  · rcases parseCommand_cases n line with hform | hbad
    · generalize parseCommand n line = i at hform
      cases hform <;> simp
    · exact .inl hbad

/-! ### The decoder -/

theorem CommandForm.wellFormed {c : Config} {ts : List (List Byte)} {i : Instr} (h : CommandForm c.n ts i) :
    i.wellFormed c = true := by
  cases h with
  | enable _ _ _ _ hle | disable _ _ _ _ hle | interval _ _ _ _ _ _ hle => exact decide_eq_true hle
  | dumpRx | stats => rfl
  | dumpRing _ _ _ _ _ _ hpos hle => simp [Instr.wellFormed, slotInRange, portInRange, hpos, hle]

theorem parseCommand_wellFormed (c : Config) (line : List Byte) : (parseCommand c.n line).wellFormed c = true := by
  rcases parseCommand_cases c.n line with hform | hbad
  · exact hform.wellFormed
  · rw [hbad]
    exact beq_iff_eq.mpr hbad

theorem decodeByte_wellFormed (c : Config) (b : Byte) : (decodeByte b).wellFormed c = true := by
  unfold decodeByte
  split
  · rfl
  split
  · rfl
  split
  · rfl
  · simp_all [Instr.wellFormed]

theorem decodeTokens_wellFormed {c : Config} {ts : List (List Byte)} {i : Instr} (h : decodeTokens c ts = .ok i) :
    i.wellFormed c = true := by
  unfold decodeTokens at h
  split at h
  case h_1 => cases h
  split at h
  case h_1 => cases h
  split at h
  case h_1 => cases h
  split at h
  case isTrue hw =>
    cases h
    exact hw
  case isFalse => cases h

/-- Settles O2: a byte and a command line are read within their ranges, and a line of tokens is checked. -/
theorem decoderAnswersOnlyWellFormed : Obligations.DecoderAnswersOnlyWellFormed := by
  intro c w i h
  unfold decode at h
  split at h
  case h_1 => cases h
  case h_2 b =>
    cases h
    exact decodeByte_wellFormed c b
  case h_3 =>
    split at h
    case h_1 line _ =>
      cases h
      exact parseCommand_wellFormed c line
    case h_2 => exact decodeTokens_wellFormed h

/-! ### Words written by the encoder -/

theorem isToken_opcodeName (o : Opcode) : IsToken (opcodeName o) := by
  cases o <;> exact ⟨by decide, by decide⟩

theorem opcodeOf_opcodeName (o : Opcode) : opcodeOf (opcodeName o) = some o := by
  cases o <;> rfl

/-- A joined line begins with its first token. -/
theorem joinTokens_cons (t : List Byte) (ts : List (List Byte)) : ∃ rest, joinTokens (t :: ts) = t ++ rest := by
  cases ts with
  | nil => exact ⟨[], (List.append_nil t).symm⟩
  | cons u ts => exact ⟨_, rfl⟩

/-- No row's name begins with `CMD `, and each is longer than a byte. -/
theorem decode_opcodeName_append (c : Config) (o : Opcode) (rest : List Byte) :
    decode c (opcodeName o ++ rest) = decodeTokens c (tokens (opcodeName o ++ rest)) := by
  cases o <;> rfl

theorem decode_line {c : Config} {o : Opcode} {args : List (List Byte)} (h : ∀ t ∈ args, IsToken t) :
    decode c (line o args) = decodeTokens c (opcodeName o :: args) := by
  have htokens : tokens (line o args) = opcodeName o :: args :=
    tokens_joinTokens (List.forall_mem_cons.mpr ⟨isToken_opcodeName o, h⟩)
  obtain ⟨rest, hrest⟩ := joinTokens_cons (opcodeName o) args
  rw [← htokens, line, hrest, decode_opcodeName_append]

/-- A line whose operand tokens are read as a well-formed row decodes to it. -/
theorem decode_line_eq_ok {c : Config} {o : Opcode} {args : List (List Byte)} {i : Instr} (hw : i.wellFormed c = true)
    (hargs : ∀ t ∈ args, IsToken t) (hi : instrOf o args = some i) : decode c (line o args) = .ok i := by
  simp [decode_line hargs, decodeTokens, opcodeOf_opcodeName, hi, hw]

/-- The rows with a word among their operands: FLOW and the two sample steps that carry a level. -/
def Opcode.takesWord : Opcode → Bool
  | .flow => true
  | .txSampleHead => true
  | .txSampleLen => true
  | _ => false

theorem instrOf_numberTokens {o : Opcode} (ho : o.takesWord = false) (ns : List Nat) :
    instrOf o (numberTokens ns) = instrOfNumbers o ns := by
  unfold instrOf
  split
  case h_1 | h_2 | h_3 => cases ho
  case h_4 => rw [numerals_numberTokens]

theorem decode_numberLine {c : Config} {o : Opcode} {ns : List Nat} {i : Instr} (hw : i.wellFormed c = true)
    (ho : o.takesWord = false) (hi : instrOfNumbers o ns = some i) : decode c (line o (numberTokens ns)) = .ok i :=
  decode_line_eq_ok hw (fun _ => isToken_of_mem_numberTokens) ((instrOf_numberTokens ho ns).trans hi)

/-- The operand numbers of a slot. -/
def slotNumbers : SlotRef → List Nat
  | .rx => [0]
  | .ring k s => [k, s.val]

theorem slotTokens_eq (g : SlotRef) : slotTokens g = numberTokens (slotNumbers g) := by
  cases g <;> rfl

/-- A slot in range reads back, for a sender port is no 0. -/
theorem slotOfNumbers_slotNumbers {c : Config} {g : SlotRef} (hg : slotInRange c g = true) (rest : List Nat) :
    slotOfNumbers (slotNumbers g ++ rest) = some (g, rest) := by
  cases g with
  | rx => rfl
  | ring k s =>
    cases k with
    | zero => simp [slotInRange, portInRange] at hg
    | succ k => simp [slotNumbers, slotOfNumbers]

theorem bytesOfNumbers_toNat (bs : List Byte) : bytesOfNumbers (bs.map BitVec.toNat) = some bs := by
  induction bs with
  | nil => rfl
  | cons b bs ih => simp [bytesOfNumbers, ih, b.isLt]

theorem levelOfToken_levelToken (v : Level) : levelOfToken (levelToken v) = some v := by
  cases v <;> rfl

theorem isToken_levelToken (v : Level) : IsToken (levelToken v) := by
  cases v <;> exact ⟨by decide, by decide⟩

theorem flowOfToken_flowToken (f : FlowLevel) : flowOfToken (flowToken f) = some f := by
  cases f <;> rfl

theorem isToken_flowToken (f : FlowLevel) : IsToken (flowToken f) := by
  cases f <;> exact ⟨by decide, by decide⟩

theorem decode_flowEdge {c : Config} {k : Nat} {v : Level} (hw : (Instr.flowEdge k v).wellFormed c = true) :
    decode c (encode (.flowEdge k v)) = .ok (.flowEdge k v) :=
  decode_line_eq_ok hw (by simp [isToken_numeralOf, isToken_levelToken])
    (by simp [instrOf, levelOfToken_levelToken])

theorem decode_txSampleHead {c : Config} {k : Nat} {f : FlowLevel}
    (hw : (Instr.txSampleHead k f).wellFormed c = true) :
    decode c (encode (.txSampleHead k f)) = .ok (.txSampleHead k f) :=
  decode_line_eq_ok hw (by simp [isToken_numeralOf, isToken_flowToken]) (by simp [instrOf, flowOfToken_flowToken])

theorem decode_txSampleLen {c : Config} {k : Nat} {f : FlowLevel} {h : RingIdx}
    (hw : (Instr.txSampleLen k f h).wellFormed c = true) :
    decode c (encode (.txSampleLen k f h)) = .ok (.txSampleLen k f h) :=
  decode_line_eq_ok hw (by simp [isToken_numeralOf, isToken_flowToken])
    (by simp [instrOf, flowOfToken_flowToken, slotIndexOf_eq_some.mpr (numeral_numeralOf _)])

theorem decode_ctrlDumpAcq {c : Config} {g : SlotRef} (hw : (Instr.ctrlDumpAcq g).wellFormed c = true) :
    decode c (encode (.ctrlDumpAcq g)) = .ok (.ctrlDumpAcq g) := by
  have hg : slotOfNumbers (slotNumbers g) = some (g, []) := by
    simpa using slotOfNumbers_slotNumbers (c := c) hw []
  rw [encode, slotTokens_eq]
  exact decode_numberLine hw rfl (by simp [instrOfNumbers, hg])

theorem decode_ctrlDumpRel {c : Config} {g : SlotRef} {snap : List Byte}
    (hw : (Instr.ctrlDumpRel g snap).wellFormed c = true) :
    decode c (encode (.ctrlDumpRel g snap)) = .ok (.ctrlDumpRel g snap) := by
  have htokens : slotTokens g ++ byteTokens snap = numberTokens (slotNumbers g ++ snap.map BitVec.toNat) := by
    simp [slotTokens_eq, byteTokens, numberTokens]
  rw [encode, htokens]
  exact decode_numberLine hw rfl
    (by simp [instrOfNumbers, slotOfNumbers_slotNumbers (c := c) hw, bytesOfNumbers_toNat])

/-! The host's commands. -/

theorem decode_command (c : Config) (text : List Byte) : decode c (command text) = .ok (parseCommand c.n text) := by
  cases text <;> rfl

/-- A command line written as a word and numbers decodes to the row of its form. -/
theorem decode_command_numbers {c : Config} {w : List Byte} {ns : List Nat} {i : Instr} (hword : IsToken w)
    (hi : CommandForm c.n (w :: numberTokens ns) i) : decode c (command (joinTokens (w :: numberTokens ns))) = .ok i := by
  have htokens : tokens (joinTokens (w :: numberTokens ns)) = w :: numberTokens ns :=
    tokens_joinTokens (List.forall_mem_cons.mpr ⟨hword, fun _ => isToken_of_mem_numberTokens⟩)
  rw [decode_command, parseCommand, htokens, commandOf_eq_some.mpr hi]
  rfl

theorem decode_cmdDump {c : Config} {g : SlotRef} (hw : (Instr.cmdDump g).wellFormed c = true) :
    decode c (encode (.cmdDump g)) = .ok (.cmdDump g) := by
  rw [encode, slotTokens_eq]
  refine decode_command_numbers ⟨by decide, by decide⟩ ?_
  cases g with
  | rx => exact .dumpRx _ rfl (numeral_numeralOf 0)
  | ring k s =>
    obtain ⟨hpos, hle⟩ : 1 ≤ k ∧ k ≤ c.n := by simpa [Instr.wellFormed, slotInRange, portInRange] using hw
    exact .dumpRing _ _ k s rfl (numeral_numeralOf k) hpos hle (numeral_numeralOf _)

/-- Settles O1. A row's word is a byte, a line of numbers, a line with a level among its operands, or a command line; each
kind has its lemma. -/
theorem decodeOfEncodeIsTheInstruction : Obligations.DecodeOfEncodeIsTheInstruction := by
  intro c i hw
  cases i with
  | byteStart | byteEnd | byteLf => rfl
  | byteOther b => simp_all [encode, decode, decodeByte, Instr.wellFormed]
  | timeout | tickRx | rxSkip | readArm | readComplete | rxDone => exact decode_numberLine (ns := []) hw rfl rfl
  | tickTx k | rxOfferSkip k | rxOfferTry k | txSample k | txSampleFlow k =>
    exact decode_numberLine (ns := [k]) hw rfl rfl
  | rxCopy k s | rxAdvance k s | rxRelease k s | txAcquire k s =>
    exact decode_numberLine hw rfl (by simp [instrOfNumbers])
  | txByte k h i len | txAbort k h i len | txDone k h len => exact decode_numberLine hw rfl (by simp [instrOfNumbers])
  | flowEdge k v => exact decode_flowEdge hw
  | txSampleHead k f => exact decode_txSampleHead hw
  | txSampleLen k f h => exact decode_txSampleLen hw
  | ctrlDumpAcq g => exact decode_ctrlDumpAcq hw
  | ctrlDumpRel g snap => exact decode_ctrlDumpRel hw
  | ctrlStatsSlot j lens | ctrlStatsEnd lens => exact decode_numberLine hw rfl rfl
  | cmdEnable p =>
    exact decode_command_numbers (ns := [p]) ⟨by decide, by decide⟩
      (.enable _ p rfl (numeral_numeralOf p) (of_decide_eq_true hw))
  | cmdDisable p =>
    exact decode_command_numbers (ns := [p]) ⟨by decide, by decide⟩
      (.disable _ p rfl (numeral_numeralOf p) (of_decide_eq_true hw))
  | cmdInterval p ms =>
    exact decode_command_numbers (ns := [p, ms.toNat]) ⟨by decide, by decide⟩
      (.interval _ _ p ms rfl (numeral_numeralOf p) (of_decide_eq_true hw) (numeral_numeralOf _))
  | cmdDump g => exact decode_cmdDump hw
  | cmdStats => exact decode_command_numbers (ns := []) ⟨by decide, by decide⟩ (.stats rfl)
  | cmdMalformed text => rw [encode, decode_command, beq_iff_eq.mp hw]

/-- Settles O3: each of the words is the one the encoder writes for its row, whose operands are in range. -/
theorem writtenWordsDecode : Obligations.WrittenWordsDecode := by
  have hdecode : ∀ i : Instr, i.wellFormed Config.default = true → decode Config.default (encode i) = .ok i :=
    decodeOfEncodeIsTheInstruction Config.default
  exact ⟨hdecode .byteStart rfl, hdecode .byteEnd rfl, hdecode .byteLf rfl, hdecode (.byteOther 0x0D) rfl,
    hdecode (.byteOther 0xFF) rfl, hdecode (.tickTx 1) rfl, hdecode (.flowEdge 2 .high) rfl, hdecode (.cmdEnable 1) rfl,
    hdecode (.cmdMalformed _) rfl⟩

end Sys2Proof
end

/-! # A telegram fed byte by byte

What a read has stored after each byte of a framed telegram, and what Verify answers of the whole frame (R82, R104, R108,
R122 to R124). -/

section
namespace Sys2Proof.Machine

/-! ### Feeding -/

/-- The BYTE row of a byte receives that byte (R81, R120). -/
theorem exec_decodeByte (b : Byte) (s : State) : exec (decodeByte b) s = receiveByte b s := by
  unfold decodeByte
  split
  · next hb => rw [hb]; rfl
  split
  · next hb => rw [hb]; rfl
  split
  · next hb => rw [hb]; rfl
  · rfl

theorem feed_cons {s t : State} {b : Byte} (e : exec (decodeByte b) s = .next t) (bs : List Byte) :
    feed (b :: bs) s = feed bs t := by
  simp [feed, execAll, e]

theorem feed_append {s t : State} {bs : List Byte} (e : feed bs s = .next t) (cs : List Byte) :
    feed (bs ++ cs) s = feed cs t := by
  induction bs generalizing s with
  | nil => cases e; rfl
  | cons b bs ih =>
    cases hb : exec (decodeByte b) s with
    | next u =>
      rw [feed_cons hb] at e
      rw [List.cons_append, feed_cons hb, ih e]
    | fault f => simp [feed, execAll, hb] at e
    | refused r => simp [feed, execAll, hb] at e

/-- Bytes before the start marker change nothing (R122). -/
theorem feed_junk {s : State} (hr : s.blockStatus = .running) (hst : s.reader.state = .synchronizing) {junk : List Byte}
    (hj : slash ∉ junk) : feed junk s = .next s := by
  induction junk with
  | nil => rfl
  | cons b junk ih =>
    obtain ⟨hb, hj⟩ := not_or.mp (List.mem_cons.not.mp hj)
    have hbyte : exec (decodeByte b) s = .next s := by
      simp [exec_decodeByte, receiveByte, hr, hst, byteSynchronizing, Ne.symm hb, answer]
    rw [feed_cons hbyte, ih hj]

/-! ### What a read has stored -/

/-- The block runs under `c`, and its reader is in state `st` with the frame `pre` stored and no overflow. -/
structure HasRead (c : Config) (st : RdState) (pre : List Byte) (s : State) : Prop where
  cfg : s.cfg = c
  running : s.blockStatus = .running
  state : s.reader.state = st
  done : st = .complete → s.reader.done = true
  overflow : s.reader.overflow = false
  idx : s.reader.idx = pre.length
  frame : s.frame pre.length = .ok pre

/-- A byte written just past a range read extends what is read. -/
theorem readRange_insert {cap : Nat} {m : Memory} {pre : List Byte} (b : Byte) (h : readRange cap m pre.length = .ok pre)
    (hroom : pre.length < cap) :
    readRange cap (Memory.insert m pre.length b) (pre ++ [b]).length = .ok (pre ++ [b]) := by
  obtain ⟨-, hread⟩ := readRange_eq_ok.mp h
  refine readRange_eq_ok.mpr ⟨rfl, fun i hi => ?_⟩
  rw [List.length_append, List.length_singleton] at hi
  by_cases hlast : i = pre.length
  · subst hlast
    simp [lookup_insert_self, hroom]
  · have hlt : i < pre.length := by omega
    rw [lookup_insert_ne m b hlast, List.getElem?_append_left hlt]
    exact hread i hlt

theorem HasRead.appendByte {c : Config} {st : RdState} {pre : List Byte} {s : State} (h : HasRead c st pre s)
    (hroom : pre.length < c.bufSize) (b : Byte) :
    ∃ t, Machine.appendByte b s = .ok t ∧ HasRead c st (pre ++ [b]) t := by
  have hlt : s.reader.idx < s.cfg.bufSize := by rw [h.idx, h.cfg]; exact hroom
  refine ⟨_, appendByte_eq_ok.mpr ⟨hlt, rfl⟩, h.cfg, h.running, h.state, h.done, h.overflow, ?_, ?_⟩
  · simp [h.idx]
  · simp only [State.frame, h.idx, h.cfg]
    exact readRange_insert b (h.cfg ▸ h.frame) hroom

theorem HasRead.setState {c : Config} {st : RdState} {pre : List Byte} {s : State} (h : HasRead c st pre s) {st' : RdState}
    {d : Bool} (hd : st' = .complete → d = true) :
    HasRead c st' pre (s.setReader { s.reader with state := st', done := d }) :=
  ⟨h.cfg, h.running, rfl, hd, h.overflow, h.idx, h.frame⟩

/-- The start marker opens the frame (R122). -/
theorem HasRead.opened {s : State} (hr : s.blockStatus = .running) (hst : s.reader.state = .synchronizing)
    (hov : s.reader.overflow = false) (hbuf : 1 ≤ s.cfg.bufSize) :
    ∃ t, exec (decodeByte slash) s = .next t ∧ HasRead s.cfg .awaitingTerminator [slash] t := by
  have hempty : HasRead s.cfg .synchronizing [] (s.setReader { s.reader with idx := 0 }) :=
    ⟨rfl, hr, hst, by simp, hov, rfl, rfl⟩
  obtain ⟨u, hu, hread⟩ := hempty.appendByte hbuf slash
  have hbyte : byteSynchronizing slash s = .ok (u.setReader { u.reader with state := .awaitingTerminator }) := by
    rw [byteSynchronizing, if_pos rfl]
    exact bind_eq_ok.mpr ⟨u, hu, rfl⟩
  exact ⟨_, by simp [exec_decodeByte, receiveByte, hr, hst, hbyte], hread.setState (d := u.reader.done) (by simp)⟩

/-- The reader's state after a byte of a frame that has room (R123, R124). -/
def afterByte (st : RdState) (b : Byte) : RdState :=
  if st = .awaitingTerminator ∧ b = bang then .awaitingChecksumLine
  else if st = .awaitingChecksumLine ∧ b = lineFeed then .complete
  else st

/-- A byte of a frame is stored where there is room (R123, R124). -/
theorem HasRead.byte {c : Config} {st : RdState} {pre : List Byte} {s : State} (h : HasRead c st pre s)
    (hst : st = .awaitingTerminator ∨ st = .awaitingChecksumLine) (hroom : pre.length < c.bufSize) (b : Byte) :
    ∃ t, exec (decodeByte b) s = .next t ∧ HasRead c (afterByte st b) (pre ++ [b]) t := by
  have hlt : s.reader.idx < s.cfg.bufSize := by rw [h.idx, h.cfg]; exact hroom
  obtain ⟨u, hu, hread⟩ := h.appendByte hroom b
  rcases hst with rfl | rfl
  · have hexec : exec (decodeByte b) s = answer (byteAwaitingTerminator b s) := by
      simp [exec_decodeByte, receiveByte, h.running, h.state]
    have hbyte : byteAwaitingTerminator b s =
        .ok (if b = bang then u.setReader { u.reader with state := .awaitingChecksumLine } else u) := by
      rw [byteAwaitingTerminator, if_pos hlt]
      exact bind_eq_ok.mpr ⟨u, hu, rfl⟩
    refine ⟨_, hexec.trans (answer_eq_next.mpr hbyte), ?_⟩
    split
    · next hb => simpa [afterByte, hb] using hread.setState (st' := .awaitingChecksumLine) (d := u.reader.done) (by simp)
    · next hb => simpa [afterByte, hb] using hread
  · have hexec : exec (decodeByte b) s = answer (byteAwaitingChecksumLine b s) := by
      simp [exec_decodeByte, receiveByte, h.running, h.state]
    have hbyte : byteAwaitingChecksumLine b s =
        .ok (if b = lineFeed then u.setReader { u.reader with state := .complete, done := true } else u) := by
      rw [byteAwaitingChecksumLine, if_pos hlt]
      exact bind_eq_ok.mpr ⟨u, hu, rfl⟩
    refine ⟨_, hexec.trans (answer_eq_next.mpr hbyte), ?_⟩
    split
    · next hb => simpa [afterByte, hb] using hread.setState (st' := .complete) (d := true) (fun _ => rfl)
    · next hb => simpa [afterByte, hb] using hread

/-- Bytes that leave the reader's state alone are all stored. -/
theorem HasRead.feed {c : Config} {st : RdState} {pre bs : List Byte} {s : State} (h : HasRead c st pre s)
    (hst : st = .awaitingTerminator ∨ st = .awaitingChecksumLine) (hstay : ∀ b ∈ bs, afterByte st b = st)
    (hroom : pre.length + bs.length ≤ c.bufSize) : ∃ t, feed bs s = .next t ∧ HasRead c st (pre ++ bs) t := by
  induction bs generalizing s pre with
  | nil => exact ⟨s, rfl, by simpa using h⟩
  | cons b bs ih =>
    obtain ⟨hb, hstay⟩ := List.forall_mem_cons.mp hstay
    rw [List.length_cons] at hroom
    obtain ⟨u, hu, hread⟩ := h.byte hst (by omega) b
    rw [hb] at hread
    obtain ⟨t, ht, hread⟩ := ih hread hstay (by simp; omega)
    exact ⟨t, by rw [feed_cons hu, ht], by simpa using hread⟩

/-! ### The frame of a telegram (R102 to R106) -/

/-- A digit 0 to 15 reads back (R103, R104). -/
theorem hexval_hexDigit (hc : HexCase) {d : Nat} (h : d < 16) : hexval hc (hexDigit d) = some d := by
  revert d
  cases hc <;> decide

theorem hexDigit_ne_lineFeed {d : Nat} (h : d < 16) : hexDigit d ≠ lineFeed := by
  revert d
  decide

/-- Before its last byte a checksum line holds no LF (R102, R104). -/
theorem lineFeed_notMem_hex4_cr (v : Crc) : lineFeed ∉ hex4 v ++ [carriageReturn] := by
  have hv : v.toNat < 65536 := v.isLt
  intro hmem
  simp only [hex4, List.cons_append, List.nil_append, List.mem_cons, List.not_mem_nil, or_false] at hmem
  rcases hmem with h | h | h | h | h
  case inr.inr.inr.inr => cases h
  all_goals exact hexDigit_ne_lineFeed (by omega) h.symm

/-- Parse4 inverts Hex4, under either case (R104, R105). -/
theorem parse4_hex4 (hc : HexCase) (v : Crc) : parse4 hc (hex4 v) = some v := by
  have hv : v.toNat < 65536 := v.isLt
  have hdigit : ∀ x : Nat, hexval hc (hexDigit (x % 0x10)) = some (x % 0x10) := fun x =>
    hexval_hexDigit hc (Nat.mod_lt x (by decide))
  have hdigits : ((v.toNat / 0x1000 * 0x10 + v.toNat / 0x100 % 0x10) * 0x10 + v.toNat / 0x10 % 0x10) * 0x10 +
      v.toNat % 0x10 = v.toNat := by omega
  simp only [hex4, parse4, hexval_hexDigit hc (show v.toNat / 0x1000 < 16 by omega), hdigit, hdigits, BitVec.ofNat_toNat,
    BitVec.setWidth_eq]

/-- The first end marker is where the marker-free front ends (R108). -/
theorem endMarker_append {front : List Byte} (h : bang ∉ front) (rest : List Byte) :
    endMarker (front ++ bang :: rest) = some front.length := by
  induction front with
  | nil => simp [endMarker]
  | cons b front ih =>
    obtain ⟨hb, hfront⟩ := not_or.mp (List.mem_cons.not.mp h)
    simp [endMarker, Ne.symm hb, ih hfront]

theorem stripAt_of_getElem? {b : List Byte} {p e : Nat} {x : Byte} (hp : p + 1 ≤ e) (hx : b[e]? = some x) :
    stripAt b p x (e + 1) = e := by
  simp [stripAt, hp, hx]

/-- Of a frame that ends in CR LF, Tail strips just these two (R106). -/
theorem tail_append_crlf {kept : List Byte} {p : Nat} (hp : p + 1 ≤ kept.length) :
    tail (kept ++ [carriageReturn, lineFeed]) p = kept.drop (p + 1) := by
  have hlf : (kept ++ [carriageReturn, lineFeed])[kept.length + 1]? = some lineFeed := by simp
  have hcr : (kept ++ [carriageReturn, lineFeed])[kept.length]? = some carriageReturn := by simp
  rw [tail, List.length_append, List.length_cons, List.length_singleton, ← Nat.add_assoc,
    stripAt_of_getElem? (by omega) hlf, stripAt_of_getElem? hp hcr, List.take_left]

/-- Before CR LF the tail is the whole field (R106). -/
theorem tail_crlf (front field : List Byte) :
    tail (front ++ [bang] ++ field ++ [carriageReturn, lineFeed]) front.length = field := by
  rw [tail_append_crlf (by simp), List.drop_left' (by simp)]

theorem length_frameOf (x : List Byte) : (frameOf x).length = x.length + 8 := by
  simp [frameOf, hex4]

/-- A framed telegram verifies (R108). -/
theorem verifyFrame_frameOf (c : Config) {x : List Byte} (hx : bang ∉ x) :
    verifyFrame c (frameOf x) = .ok (x.length + 8) := by
  have hfront : bang ∉ slash :: x := not_or.mpr ⟨by decide, hx⟩ ∘ List.mem_cons.mp
  have hend : endMarker (frameOf x) = some (slash :: x).length := by
    simpa [frameOf] using endMarker_append hfront (hex4 (crc16 (slash :: x ++ [bang])) ++ [carriageReturn, lineFeed])
  have htail : tail (frameOf x) (slash :: x).length = hex4 (crc16 (slash :: x ++ [bang])) := tail_crlf ..
  have htake : (frameOf x).take ((slash :: x).length + 1) = slash :: x ++ [bang] := by
    rw [frameOf, List.append_assoc]
    exact List.take_left' (by simp)
  have hne : hex4 (crc16 (slash :: x ++ [bang])) ≠ [] := by simp [hex4]
  simp only [verifyFrame, hend, htail, htake, if_neg hne, parse4_hex4, if_true, length_frameOf]

/-- A telegram fed to an armed reader that has room is stored whole and completes the read. -/
theorem feed_frameOf {s : State} {x : List Byte} (hr : s.blockStatus = .running) (hst : s.reader.state = .synchronizing)
    (hov : s.reader.overflow = false) (hx : bang ∉ x) (hroom : x.length + 8 ≤ s.cfg.bufSize) :
    ∃ t, feed (frameOf x) s = .next t ∧ HasRead s.cfg .complete (frameOf x) t := by
  obtain ⟨s1, e1, h1⟩ := HasRead.opened hr hst hov (by omega)
  obtain ⟨s2, e2, h2⟩ := h1.feed (bs := x) (.inl rfl)
    (fun b hb => by simp [afterByte, ne_of_mem_of_not_mem hb hx]) (by simp; omega)
  obtain ⟨s3, e3, h3⟩ := h2.byte (.inl rfl) (by simp; omega) bang
  obtain ⟨s4, e4, h4⟩ := h3.feed (bs := hex4 (crc16 (slash :: x ++ [bang])) ++ [carriageReturn]) (.inr rfl)
    (fun b hb => by simp [afterByte, ne_of_mem_of_not_mem hb (lineFeed_notMem_hex4_cr _)]) (by simp [hex4]; omega)
  obtain ⟨s5, e5, h5⟩ := h4.byte (.inr rfl) (by simp [hex4]; omega) lineFeed
  have hframe : frameOf x =
      slash :: (x ++ bang :: (hex4 (crc16 (slash :: x ++ [bang])) ++ [carriageReturn] ++ [lineFeed])) := by
    simp [frameOf]
  refine ⟨s5, ?_, by simpa [frameOf, afterByte] using h5⟩
  rw [hframe, feed_cons e1, feed_append e2, feed_cons e3, feed_append e4, feed_cons e5]
  rfl

/-- Settles O16: the junk is ignored, the telegram is stored, and its frame verifies. -/
theorem fedTelegramIsReadWhole : Obligations.FedTelegramIsReadWhole := by
  intro s junk x hr hst hov hj hx hroom
  obtain ⟨t, ht, h⟩ := feed_frameOf hr hst hov hx hroom
  have hidx : t.reader.idx = x.length + 8 := by rw [h.idx, length_frameOf]
  have hframe : t.frame (x.length + 8) = .ok (frameOf x) := by rw [← length_frameOf x, h.frame]
  have hverify : verify t = .ok (.ok (x.length + 8)) := by
    rw [verify, if_neg (by simp [h.overflow]), hidx, hframe, ← verifyFrame_frameOf t.cfg hx]
    rfl
  exact ⟨t, by rw [feed_append (feed_junk hr hst hj), ht], h.state, h.done rfl, hidx, hframe, hverify⟩

end Sys2Proof.Machine
end

/-! # Which events and steps are enabled

A step runs the word it is given; an internal step that answers is the selected one; the events are taken as R245 lists
them. -/

section
namespace Sys2Proof.Machine

/-! ### A word on the agenda -/

theorem step_word {s : State} {w : List Byte} {rest : List Item} {i : Instr} (ha : s.agenda = .word w :: rest)
    (hd : decode s.cfg w = .ok i) : step s = exec i (s.setAgenda rest) :=
  step_run (by simp [fetch, ha, hd])

theorem decodeTableWord_eq_some {nbits v : Nat} {i : Instr} (h : decodeTableWord nbits v = some i) :
    decode Config.default (wordBytes nbits v) = .ok i := by
  unfold decodeTableWord at h
  split at h
  · next hd => rw [hd, Option.some.inj h]
  · cases h

/-- Settles O41: the pushed word is at the front, and taking it off gives back the agenda. -/
theorem stepRunsTheDecodedWord : Obligations.StepRunsTheDecodedWord := by
  refine ⟨fun s w rest i => step_word, fun s nbits v i hc h => ?_⟩
  have hd : decode (s.withFetchWord nbits v).cfg (wordBytes nbits v) = .ok i := hc ▸ decodeTableWord_eq_some h
  exact step_word rfl hd

/-- Settles O36: the response is appended in CtrlIdle, and CTRL stays there. -/
theorem malformedCommandChangesNothing : Obligations.MalformedCommandChangesNothing := by
  intro s line hr hp _
  refine whenEnabled_eq_next.mpr ⟨hr, by simp [hp], ?_⟩
  rw [← hp]
  rfl

/-! ### The step that answers is the selected one (R89) -/

theorem selected_rx {s : State} (hr : s.blockStatus = .running) : selected .rx s = selectedRx s := by
  simp [selected, hr]

theorem selected_tx {s : State} {k : Nat} {p : Port} (hr : s.blockStatus = .running) (hk : s.port? k = some p) :
    selected (.tx k) s = selectedTx s.cfg k p := by
  simp [selected, hr, hk]

theorem selected_ctrl {s : State} (hr : s.blockStatus = .running) : selected .ctrl s = selectedCtrl s := by
  simp [selected, hr]

/-- An offer to a port that exists is not the end of the fan-out (R155, R156). -/
theorem selectedRx_offer {s : State} {k : Nat} {p : Port} (hlen : s.ports.length = s.cfg.n) (hk : s.port? k = some p)
    (hp : s.rx.phase = .offer k) : selectedRx s = some (if p.enabled then .rxOfferTry k else .rxOfferSkip k) := by
  have hbound := port?_some_bounds hk
  simp [selectedRx, hp, hk, show k ≠ s.cfg.n + 1 by omega]

theorem phase_of_execCtrlDumpAcq {s t : State} {g : SlotRef} (e : execCtrlDumpAcq g s = .next t) :
    s.ctrl.phase = .dump g := by
  unfold execCtrlDumpAcq at e
  split at e
  · split at e <;> cases e
  · obtain ⟨-, hen, -⟩ := whenEnabled_eq_next.mp e
    simp only [Bool.and_eq_true, beq_iff_eq] at hen
    exact hen.1

theorem phase_of_execCtrlStatsSlot {s t : State} {j : Nat} {lens : List Nat}
    (e : execCtrlStatsSlot j lens s = .next t) : s.ctrl.phase = .stats j lens := by
  unfold execCtrlStatsSlot at e
  split at e
  · split at e <;> cases e
  · obtain ⟨-, hen, -⟩ := whenEnabled_eq_next.mp e
    simp only [Bool.and_eq_true, beq_iff_eq] at hen
    exact hen.1

theorem isByteRow_of_agentOf {i : Instr} {a : Agent} (ha : agentOf i = some a) : isByteRow i = false := by
  cases i with
  | byteStart | byteEnd | byteLf | byteOther => cases ha
  | _ => rfl

/-- Settles O49: what a row's condition says of the phase and of the fields it tests is what the selection tests. -/
theorem enabledStepIsTheSelectedOne : Obligations.EnabledStepIsTheSelectedOne := by
  intro i a s t hlen ha e
  have hr : s.blockStatus = .running := by
    refine running_of_exec e (isByteRow_of_agentOf ha) ?_
    rintro k v rfl
    cases ha
  cases i with
  | byteStart | byteEnd | byteLf | byteOther | timeout | tickRx | tickTx | flowEdge | cmdEnable | cmdDisable
  | cmdInterval | cmdDump | cmdStats | cmdMalformed => cases ha
  | rxSkip | readArm | readComplete | rxDone =>
    cases ha
    obtain ⟨-, hen, -⟩ := whenEnabled_eq_next.mp e
    simp only [Bool.and_eq_true, Bool.not_eq_true', beq_iff_eq] at hen
    simp [selected_rx hr, selectedRx, hen]
  | rxOfferSkip k | rxOfferTry k =>
    cases ha
    obtain ⟨p, hk, -, hen, -⟩ := whenPortEnabled_eq_next.mp e
    simp only [Bool.and_eq_true, Bool.not_eq_true', beq_iff_eq] at hen
    rw [selected_rx hr, selectedRx_offer hlen hk hen.1, hen.2]
    rfl
  | rxCopy k j =>
    cases ha
    obtain ⟨p, hk, -, hen, -⟩ := whenPortEnabled_eq_next.mp e
    simp only [Bool.and_eq_true, beq_iff_eq] at hen
    have hheld : s.holds .rx (.ring k j) = true := holds_eq_true.mpr ⟨_, slot?_ring j hk, hen.2⟩
    simp [selected_rx hr, selectedRx, hen.1, hheld]
  | rxAdvance k j | rxRelease k j =>
    cases ha
    obtain ⟨p, hk, -, hen, -⟩ := whenPortEnabled_eq_next.mp e
    rw [beq_iff_eq] at hen
    simp [selected_rx hr, selectedRx, hen]
  | txSample k | txSampleFlow k | txSampleHead k | txSampleLen k | txAcquire k | txByte k | txAbort k | txDone k =>
    cases ha
    obtain ⟨p, hk, -, hen, -⟩ := whenPortEnabled_eq_next.mp e
    simp only [Bool.and_eq_true, beq_iff_eq, decide_eq_true_eq] at hen
    simp [selected_tx hr hk, selectedTx, hen]
  | ctrlDumpAcq g =>
    cases ha
    simp [selected_ctrl hr, selectedCtrl, phase_of_execCtrlDumpAcq e, guardFree_of_execCtrlDumpAcq e]
  | ctrlStatsSlot j lens =>
    cases ha
    simp [selected_ctrl hr, selectedCtrl, phase_of_execCtrlStatsSlot e, guardFree_of_execCtrlStatsSlot e]
  | ctrlDumpRel | ctrlStatsEnd =>
    cases ha
    obtain ⟨-, hen, -⟩ := whenEnabled_eq_next.mp e
    rw [beq_iff_eq] at hen
    simp [selected_ctrl hr, selectedCtrl, hen]

/-- Settles O50: no row faults in a state of the invariant, and the selection tests what the row's condition tests. -/
theorem selectedStepCompletes : Obligations.SelectedStepCompletes := fun _ _ _ h hsel => h.selected_answers hsel

/-! ### The events (R245) -/

theorem answer_answers {e : Except Fault State} (h : ∃ t, e = .ok t) : ∃ t, answer e = .next t := by
  obtain ⟨t, ht⟩ := h
  exact ⟨t, answer_eq_next.mpr ht⟩

/-- A byte is always taken (R85, R120). -/
theorem receiveByte_answers {s : State} (b : Byte) (hbuf : 1 ≤ s.cfg.bufSize) : ∃ t, receiveByte b s = .next t := by
  unfold receiveByte
  split
  · exact ⟨_, rfl⟩
  split
  · exact ⟨_, rfl⟩
  · exact ⟨_, rfl⟩
  · exact answer_answers (byteSynchronizing_answers b hbuf)
  · exact answer_answers (byteAwaitingTerminator_answers s b)
  · exact answer_answers (byteAwaitingChecksumLine_answers s b)

/-- An edge of a port that exists is always taken (R87, R190). -/
theorem execFlowEdge_answers {s : State} {k : Nat} {p : Port} (hk : s.port? k = some p) (v : Level) :
    ∃ t, execFlowEdge k v s = .next t := by
  simp only [execFlowEdge, hk]
  split
  · exact ⟨_, rfl⟩
  · exact ⟨_, rfl⟩

/-- A row is taken exactly under its condition, for no row faults in a state of the invariant. -/
theorem BlockInv.answers_iff_enabled {s : State} {i : Instr} {en : Bool} {body : Except Fault State} (h : BlockInv s)
    (hi : Machine.exec i s = whenEnabled s en body) :
    (∃ t, Machine.exec i s = .next t) ↔ s.blockStatus = .running ∧ en = true := by
  constructor
  · rintro ⟨t, ht⟩
    obtain ⟨hr, hen, -⟩ := whenEnabled_eq_next.mp (hi ▸ ht)
    exact ⟨hr, hen⟩
  · rintro ⟨hr, hen⟩
    exact h.answers_of_enabled hi hr hen

/-- A command that names a port that exists is accepted like every command (R210). -/
theorem acceptPortCommand_eq {s : State} {k : Nat} (hlen : s.ports.length = s.cfg.n) (hpos : 1 ≤ k) (hle : k ≤ s.cfg.n)
    (body : Port → Except Fault State) : ∃ b, acceptPortCommand s k body = acceptCommand s b := by
  obtain ⟨p, hk⟩ := port?_exists hpos (hlen ▸ hle)
  exact ⟨body p, by simp only [acceptPortCommand, whenPortEnabled, hk]; rfl⟩

theorem exec_commandForm_eq {s : State} {ts : List (List Byte)} {i : Instr}
    (hlen : s.ports.length = s.cfg.n) (h : CommandForm s.cfg.n ts i) : ∃ b, exec i s = acceptCommand s b := by
  cases h with
  | enable _ p _ _ hle | disable _ p _ _ hle | interval _ _ p _ _ _ hle =>
    cases p with
    | zero => exact ⟨_, rfl⟩
    | succ k => exact acceptPortCommand_eq hlen k.succ_pos hle _
  | dumpRx | stats => exact ⟨_, rfl⟩
  | dumpRing _ _ k i _ _ hpos hle => exact acceptPortCommand_eq hlen hpos hle _

/-- Every command line, malformed or not, is accepted in the same way (R210, R211). -/
theorem exec_parseCommand_eq {s : State} (hlen : s.ports.length = s.cfg.n) (line : List Byte) :
    ∃ b, exec (parseCommand s.cfg.n line) s = acceptCommand s b := by
  rcases parseCommand_cases s.cfg.n line with hform | hbad
  · exact exec_commandForm_eq hlen hform
  · rw [hbad]
    exact ⟨_, rfl⟩

/-- Settles O52: bytes and edges have no condition, and each other event is a row under the condition of its line. -/
theorem eventsAreEnabledAsListed : Obligations.EventsAreEnabledAsListed := by
  intro s h
  have ⟨⟨_, hbuf⟩, hlen, _⟩ := h
  refine ⟨fun b => ?_, fun k v hk => ?_, ?_, ?_, fun k p hk => ?_, fun line => ?_⟩
  · rw [exec_decodeByte]
    exact receiveByte_answers b hbuf
  · obtain ⟨hpos, hle⟩ : 1 ≤ k ∧ k ≤ s.cfg.n := by simpa [portInRange] using hk
    obtain ⟨p, hport⟩ := port?_exists hpos (hlen ▸ hle)
    exact execFlowEdge_answers hport v
  · rw [h.answers_iff_enabled (i := .timeout) rfl]
    simp
  · rw [h.answers_iff_enabled (i := .tickRx) rfl]
    simp
  · rw [h.answers_iff_enabled (i := .tickTx k) (by simp only [exec, execTickTx, whenPortEnabled, hk]; rfl)]
    simp
  · obtain ⟨b, hb⟩ := exec_parseCommand_eq hlen line
    rw [h.answers_iff_enabled hb]
    simp

end Sys2Proof.Machine
end

/-! # The Checksum Engine

The two forms of the CRC, the digits of a checksum, the checksum field of a frame, and what Verify accepts
(R100, R101, R103 to R108). -/

section
namespace Sys2Proof.Machine

/-! ### The CRC (R100, R101) -/

/-- The 256 rows of the transcribed table are the inner loop's results, in order (R101). -/
theorem crcTable_eq_map : crcTable = (List.range 256).map fun i => crcShift8 (BitVec.ofNat 16 i) := by
  decide +kernel

theorem crcTable_getElem? {i : Nat} (h : i < 256) : crcTable[i]? = some (crcShift8 (BitVec.ofNat 16 i)) := by
  rw [crcTable_eq_map, List.getElem?_map, List.getElem?_range h, Option.map_some]

theorem length_crcTable : crcTable.length = 256 := by
  rw [crcTable_eq_map, List.length_map, List.length_range]

theorem crcShift_eq_xor (v : Crc) : crcShift v = (v >>> 1) ^^^ (if v.getLsbD 0 then 0xA001 else 0) := by
  unfold crcShift
  split
  · rfl
  · exact BitVec.xor_zero.symm

/-- The shift is linear over XOR (R100). -/
theorem crcShift_xor (a b : Crc) : crcShift (a ^^^ b) = crcShift a ^^^ crcShift b := by
  have hpoly : (if (a ^^^ b).getLsbD 0 then 0xA001 else 0 : Crc) =
      (if a.getLsbD 0 then 0xA001 else 0) ^^^ (if b.getLsbD 0 then 0xA001 else 0) := by
    rw [BitVec.getLsbD_xor]
    cases a.getLsbD 0 <;> cases b.getLsbD 0 <;> decide
  simp only [crcShift_eq_xor, BitVec.ushiftRight_xor_distrib, hpoly]
  ac_rfl

theorem crcShift8_xor (a b : Crc) : crcShift8 (a ^^^ b) = crcShift8 a ^^^ crcShift8 b := by
  simp only [crcShift8, crcShift_xor]

theorem crcShift_of_even {v : Crc} (h : v.getLsbD 0 = false) : crcShift v = v >>> 1 :=
  if_neg (by rw [h]; decide)

/-- No polynomial is added while the low byte is 0, so the inner loop only shifts it out. -/
theorem crcShift8_shiftLeft (v : Crc) : crcShift8 (v <<< 8) = (v <<< 8) >>> 8 := by
  simp [crcShift8, crcShift_of_even]

theorem lowByte_xor_highByte (v : Crc) : (v &&& (0x00FF : Crc)) ^^^ ((v >>> 8) <<< 8) = v := by
  have hmask : ∀ i, (h : i < 16) → (0x00FF : Crc)[i] = decide (i < 8) := by decide
  ext i hi
  rw [BitVec.getElem_xor, BitVec.getElem_and, hmask i hi, BitVec.getElem_shiftLeft]
  by_cases hlow : i < 8
  · simp [hlow]
  · simp [hlow, hi, show 8 + (i - 8) = i by omega]

/-- The inner loop in one lookup: the table gives the low byte's part, and the high byte is only shifted (R101). -/
theorem crcShift8_eq_lookup (v : Crc) : crcShift8 v = (v >>> 8) ^^^ crcTable.getD (v &&& (0x00FF : Crc)).toNat 0 := by
  have hlow : (v &&& (0x00FF : Crc)).toNat < 256 := Nat.lt_succ_of_le Nat.and_le_right
  have hrow : crcTable.getD (v &&& (0x00FF : Crc)).toNat 0 = crcShift8 (v &&& (0x00FF : Crc)) := by
    rw [List.getD_eq_getElem?_getD, crcTable_getElem? hlow, Option.getD_some, BitVec.ofNat_toNat, BitVec.setWidth_eq]
  have hhigh : (v >>> 8) <<< 8 >>> 8 = v >>> 8 := by
    ext i hi
    simpa [hi] using BitVec.lt_of_getLsbD
  calc crcShift8 v
    _ = crcShift8 (v &&& (0x00FF : Crc)) ^^^ crcShift8 ((v >>> 8) <<< 8) := by
      rw [← crcShift8_xor, lowByte_xor_highByte]
    _ = (v >>> 8) ^^^ crcTable.getD (v &&& (0x00FF : Crc)).toNat 0 := by
      rw [crcShift8_shiftLeft, hhigh, hrow, BitVec.xor_comm]

theorem crcTableByte_eq (crc : Crc) (x : Byte) : crcTableByte crc x = crcByte crc x := by
  have hbyte : x.setWidth 16 >>> 8 = 0#16 := by
    ext i hi
    simp
  rw [crcByte, crcShift8_eq_lookup, crcTableByte, BitVec.ushiftRight_xor_distrib, hbyte,
    BitVec.xor_zero]

/-- Settles O6: each byte gives the same value in both forms, for the inner loop is linear over XOR and only shifts the
high byte. -/
theorem tableFormEqualsBitwiseForm : Obligations.TableFormEqualsBitwiseForm := by
  have hbyte : crcTableByte = crcByte := funext₂ crcTableByte_eq
  exact ⟨fun m => by rw [crc16Table, hbyte, crc16], length_crcTable, fun i => crcTable_getElem?⟩

/-- A zero byte leaves a CRC of 0 at 0 (R100). -/
theorem crc16_replicate_zero (z : Nat) : crc16 (List.replicate z 0x00) = 0 := by
  induction z with
  | zero => rfl
  | succ z ih =>
    have hzero : crcByte 0 0x00 = 0 := by decide
    rwa [crc16, List.replicate_succ, List.foldl_cons, hzero]

/-- Settles O8: the zero bytes leave the seed, from which the rest is folded. -/
theorem crcIgnoresLeadingZeroBytes : Obligations.CrcIgnoresLeadingZeroBytes := by
  refine ⟨rfl, fun z m => ?_⟩
  have hzeros : (List.replicate z 0x00).foldl crcByte 0 = 0 := crc16_replicate_zero z
  rw [crc16, List.foldl_append, hzeros, crc16]

/-! ### Hex digits (R103 to R105) -/

theorem hexval_lt {hc : HexCase} {c : Byte} {d : Nat} (h : hexval hc c = some d) : d < 16 := by
  unfold hexval at h
  split at h
  · cases h; omega
  split at h
  · cases h; omega
  split at h
  · cases h; omega
  · cases h

theorem mul_add_eq_shiftLeft_or (n : Nat) {d : Nat} (h : d < 16) : n * 0x10 + d = n <<< 4 ||| d := by
  rw [← Nat.shiftLeft_add_eq_or_of_lt h, Nat.shiftLeft_eq]

/-- Four digits are put together by shift and OR (R105). -/
theorem parse4_of_hexval {hc : HexCase} {c0 c1 c2 c3 : Byte} {d0 d1 d2 d3 : Nat} (h0 : hexval hc c0 = some d0)
    (h1 : hexval hc c1 = some d1) (h2 : hexval hc c2 = some d2) (h3 : hexval hc c3 = some d3) :
    parse4 hc [c0, c1, c2, c3] = some (BitVec.ofNat 16 (d0 <<< 12 ||| d1 <<< 8 ||| d2 <<< 4 ||| d3)) := by
  simp only [parse4, h0, h1, h2, h3, mul_add_eq_shiftLeft_or _ (hexval_lt h1), mul_add_eq_shiftLeft_or _ (hexval_lt h2),
    mul_add_eq_shiftLeft_or _ (hexval_lt h3), Nat.shiftLeft_or_distrib, ← Nat.shiftLeft_add]

theorem parse4_of_hexval_none {hc : HexCase} {c0 c1 c2 c3 : Byte}
    (h : hexval hc c0 = none ∨ hexval hc c1 = none ∨ hexval hc c2 = none ∨ hexval hc c3 = none) :
    parse4 hc [c0, c1, c2, c3] = none := by
  simp only [parse4]
  split
  · next h0 h1 h2 h3 => simp [h0, h1, h2, h3] at h
  · rfl

/-- Only a sequence of four bytes has a value (R105). -/
theorem length_of_parse4 {hc : HexCase} {t : List Byte} {v : Crc} (h : parse4 hc t = some v) : t.length = 4 := by
  unfold parse4 at h
  split at h
  · rfl
  · cases h

/-- Settles O7: each digit is below 16, so shift and OR add. -/
theorem parse4InvertsHex4 : Obligations.Parse4InvertsHex4 :=
  ⟨parse4_hex4, fun _ _ _ _ _ _ _ _ _ => parse4_of_hexval, fun _ _ _ _ _ => parse4_of_hexval_none⟩

/-! ### The checksum field (R106, R107) -/

/-- Nothing of a field that does not end in `x` is stripped, not even the end marker before an empty field (R106). -/
theorem stripAt_field {front field : List Byte} {x : Byte} (h : field.getLast? ≠ some x) (rest : List Byte) :
    stripAt (front ++ [bang] ++ field ++ rest) front.length x (front ++ [bang] ++ field).length =
      (front ++ [bang] ++ field).length := by
  rcases List.eq_nil_or_concat field with rfl | ⟨init, last, rfl⟩
  · simp [stripAt]
  · have hlast : last ≠ x := by simpa using h
    simp [stripAt, hlast]

/-- The tail is the field when the field's end is where the stripping stops (R106). -/
theorem tail_eq_field {front field rest : List Byte}
    (h : stripAt (front ++ [bang] ++ field ++ rest) front.length carriageReturn
      (stripAt (front ++ [bang] ++ field ++ rest) front.length lineFeed (front ++ [bang] ++ field ++ rest).length) =
        (front ++ [bang] ++ field).length) :
    tail (front ++ [bang] ++ field ++ rest) front.length = field := by
  rw [tail, h, List.take_left, List.drop_left' (by simp)]

/-- Before CR alone the tail is the whole field (R106). -/
theorem tail_cr (front field : List Byte) :
    tail (front ++ [bang] ++ field ++ [carriageReturn]) front.length = field := by
  have hlf : (field ++ [carriageReturn]).getLast? ≠ some lineFeed := by simp [carriageReturn, lineFeed]
  have hkeep := stripAt_field (front := front) hlf []
  rw [List.append_nil, ← List.append_assoc] at hkeep
  refine tail_eq_field ?_
  rw [hkeep, List.length_append (bs := [carriageReturn]), List.length_singleton,
    stripAt_of_getElem? (by simp) (by simp)]

theorem tail_lf (front : List Byte) {field : List Byte} (h : field.getLast? ≠ some carriageReturn) :
    tail (front ++ [bang] ++ field ++ [lineFeed]) front.length = field := by
  refine tail_eq_field ?_
  rw [List.length_append (bs := [lineFeed]), List.length_singleton,
    stripAt_of_getElem? (x := lineFeed) (by simp) (by simp), stripAt_field h]

theorem tail_unbroken (front : List Byte) {field : List Byte} (hcr : field.getLast? ≠ some carriageReturn)
    (hlf : field.getLast? ≠ some lineFeed) : tail (front ++ [bang] ++ field) front.length = field := by
  have hkeep := fun {x} (h : field.getLast? ≠ some x) => stripAt_field (front := front) h []
  simp only [List.append_nil] at hkeep
  rw [tail, hkeep hlf, hkeep hcr, List.take_length, List.drop_left' (by simp)]

/-- Settles O9, by the four line endings. -/
theorem tailIsTheChecksumField : Obligations.TailIsTheChecksumField := fun front field =>
  ⟨tail_crlf front field, tail_cr front field, tail_lf front, tail_unbroken front⟩

/-! ### Verify (R108) -/

/-- The end marker found is the first one (R108). -/
theorem endMarker_eq_some_iff {b : List Byte} {p : Nat} :
    endMarker b = some p ↔ b[p]? = some bang ∧ ∀ q < p, b[q]? ≠ some bang := by
  induction b generalizing p with
  | nil => simp [endMarker]
  | cons x xs ih =>
    cases p with
    | zero => by_cases hx : x = bang <;> simp [endMarker, hx]
    | succ p =>
      rw [Nat.forall_lt_succ_left]
      by_cases hx : x = bang
      · simp [endMarker, hx]
      · simp [endMarker, hx, ih]

/-- What the rule accepts: an empty tail under Optional, or the CRC up to the end marker in four digits (R108). -/
theorem verifyFrame_eq_ok_iff {c : Config} {b : List Byte} {n : Nat} :
    verifyFrame c b = .ok n ↔ n = b.length ∧ ∃ p, endMarker b = some p ∧
      ((tail b p = [] ∧ c.checksumPolicy = .optional) ∨
        ((tail b p).length = 4 ∧ parse4 c.hexCase (tail b p) = some (crc16 (b.take (p + 1))))) := by
  rw [eq_comm (a := n)]
  unfold verifyFrame
  cases hp : endMarker b with
  | none => simp
  | some p =>
    by_cases ht : tail b p = []
    · cases hc : c.checksumPolicy <;> simp [ht]
    · cases hv : parse4 c.hexCase (tail b p) with
      | none => simp [ht, hv]
      | some v =>
        have hfour := length_of_parse4 hv
        by_cases hcrc : v = crc16 (b.take (p + 1)) <;> simp [ht, hv, hcrc, hfour]

theorem verifyFrame_results (c : Config) (b : List Byte) :
    (∃ n, verifyFrame c b = .ok n) ∨ verifyFrame c b = .checksumError := by
  unfold verifyFrame
  split
  · exact .inr rfl
  dsimp only
  split
  · split
    · exact .inl ⟨_, rfl⟩
    · exact .inr rfl
  split
  · exact .inr rfl
  split
  · exact .inl ⟨_, rfl⟩
  · exact .inr rfl

/-- Past its overflow test Verify answers as the stored frame does (R108). -/
theorem verify_of_frame {s : State} {b : List Byte}
    (hov : s.cfg.overflowPolicy ≠ .frameTooLarge ∨ s.reader.overflow = false) (hb : s.frame s.reader.idx = .ok b) :
    verify s = .ok (verifyFrame s.cfg b) := by
  rw [verify, if_neg (by rcases hov with h | h <;> simp [h]), hb]
  rfl

/-- Settles O10: past the overflow test the answer is that of the stored frame, whose length is `rd_idx`. -/
theorem verifyFollowsItsRule : Obligations.VerifyFollowsItsRule := by
  refine ⟨fun s hpol hov => if_pos ⟨hpol, hov⟩, fun s b hov hb => ?_⟩
  obtain ⟨hlen, -⟩ := readRange_eq_ok.mp hb
  simp only [verify_of_frame hov hb, Except.ok.injEq]
  refine ⟨fun n => ?_, verifyFrame_results ..⟩
  simp only [verifyFrame_eq_ok_iff, hlen, endMarker_eq_some_iff, and_assoc]
  rfl

end Sys2Proof.Machine
end

/-! # The framer and the read operation

What a byte does in each state of the reader, with and without room, and how a read is armed and ended (R121 to R125,
R130 to R133, R153). -/

section
namespace Sys2Proof.Machine

/-! ### A byte and the buffers -/

theorem isByteRow_decodeByte (b : Byte) : isByteRow (decodeByte b) = true := by
  unfold decodeByte
  repeat' split
  all_goals rfl

/-- A byte leaves every byte of every buffer alone but the one at the offset it is stored at (R122 to R125). -/
theorem memRead_of_exec_decodeByte {s t : State} {b : Byte} {g : SlotRef} {off : Nat}
    (e : exec (decodeByte b) s = .next t) (hne : (g, off) ≠ (.rx, byteOffset s)) : t.memRead g off = s.memRead g off := by
  by_contra hchanged
  rcases bytesChangeOnlyWhereStored _ s t g off e hchanged with ⟨-, rfl, rfl⟩ | ⟨k, i, hi, -⟩
  · exact hne rfl
  · exact absurd (isByteRow_decodeByte b) (by simp [hi, isByteRow])

/-- A byte inserted into the receiver's space is read back. -/
theorem memRead_rx_of_insert {t : State} {m : Memory} {off : Nat} {b : Byte}
    (hdata : t.rx.slot.data = Memory.insert m off b) (hlt : off < t.cfg.bufSize) : t.memRead .rx off = .ok b :=
  state_memRead_eq_ok.mpr ⟨_, slot?_rx t, hlt, by rw [hdata, lookup_insert_self]⟩

/-! ### What a byte does in each state of the reader (R120 to R125) -/

theorem exec_byte_synchronizing {s : State} (b : Byte) (hr : s.blockStatus = .running)
    (hst : s.reader.state = .synchronizing) : exec (decodeByte b) s = answer (byteSynchronizing b s) := by
  simp [exec_decodeByte, receiveByte, hr, hst]

theorem exec_byte_awaitingTerminator {s : State} (b : Byte) (hr : s.blockStatus = .running)
    (hst : s.reader.state = .awaitingTerminator) : exec (decodeByte b) s = answer (byteAwaitingTerminator b s) := by
  simp [exec_decodeByte, receiveByte, hr, hst]

theorem exec_byte_awaitingChecksumLine {s : State} (b : Byte) (hr : s.blockStatus = .running)
    (hst : s.reader.state = .awaitingChecksumLine) : exec (decodeByte b) s = answer (byteAwaitingChecksumLine b s) := by
  simp [exec_decodeByte, receiveByte, hr, hst]

/-- The start marker is stored at offset 0 (R122). -/
theorem byteSynchronizing_slash {s : State} (hbuf : 1 ≤ s.cfg.bufSize) :
    byteSynchronizing slash s = .ok { s with
      reader := { s.reader with state := .awaitingTerminator, idx := 1 }
      rx := { s.rx with slot := { s.rx.slot with data := Memory.insert s.rx.slot.data 0 slash } } } := by
  rw [byteSynchronizing, if_pos rfl]
  exact bind_eq_ok.mpr ⟨_, appendByte_eq_ok.mpr ⟨hbuf, rfl⟩, rfl⟩

/-- With room, a byte of the payload is stored, and `'!'` ends the payload (R123). -/
theorem byteAwaitingTerminator_of_room {s : State} (b : Byte) (hst : s.reader.state = .awaitingTerminator)
    (hroom : s.reader.idx < s.cfg.bufSize) :
    byteAwaitingTerminator b s = .ok { s with
      reader := { s.reader with
        idx := s.reader.idx + 1
        state := if b = bang then .awaitingChecksumLine else .awaitingTerminator }
      rx := { s.rx with slot := { s.rx.slot with data := Memory.insert s.rx.slot.data s.reader.idx b } } } := by
  rw [byteAwaitingTerminator, if_pos hroom]
  refine bind_eq_ok.mpr ⟨_, appendByte_eq_ok.mpr ⟨hroom, rfl⟩, ?_⟩
  split
  · rfl
  · rw [← hst]; rfl

/-- With room, a byte of the checksum line is stored, and LF completes the frame (R124). -/
theorem byteAwaitingChecksumLine_of_room {s : State} (b : Byte) (hst : s.reader.state = .awaitingChecksumLine)
    (hroom : s.reader.idx < s.cfg.bufSize) :
    byteAwaitingChecksumLine b s = .ok { s with
      reader := { s.reader with
        idx := s.reader.idx + 1
        state := if b = lineFeed then .complete else .awaitingChecksumLine
        done := if b = lineFeed then true else s.reader.done }
      rx := { s.rx with slot := { s.rx.slot with data := Memory.insert s.rx.slot.data s.reader.idx b } } } := by
  rw [byteAwaitingChecksumLine, if_pos hroom]
  refine bind_eq_ok.mpr ⟨_, appendByte_eq_ok.mpr ⟨hroom, rfl⟩, ?_⟩
  split
  · rfl
  · rw [← hst]; rfl

/-- Without room, a byte of a frame only goes through NoRoom (R125). -/
theorem exec_byte_of_full {s : State} (b : Byte) (hr : s.blockStatus = .running)
    (hst : s.reader.state = .awaitingTerminator ∨ s.reader.state = .awaitingChecksumLine)
    (hfull : s.reader.idx = s.cfg.bufSize) :
    exec (decodeByte b) s = .next (s.setReader (noRoom s.cfg b s.reader)) := by
  have hroom : ¬ s.reader.idx < s.cfg.bufSize := by omega
  rcases hst with hst | hst
  · rw [exec_byte_awaitingTerminator b hr hst, byteAwaitingTerminator, if_neg hroom, answer]
  · rw [exec_byte_awaitingChecksumLine b hr hst, byteAwaitingChecksumLine, if_neg hroom, answer]

/-- Settles O13: the byte is inserted at `rd_idx` in either state, and no other byte changes (O57). -/
theorem bytesOfAFrameAreStored : Obligations.BytesOfAFrameAreStored := by
  intro s b hr hst hroom
  have hoff : byteOffset s = s.reader.idx := by rcases hst with hst | hst <;> simp [byteOffset, hst]
  rcases hst with hst | hst
  · have e := (exec_byte_awaitingTerminator b hr hst).trans
      (answer_eq_next.mpr (byteAwaitingTerminator_of_room b hst hroom))
    exact ⟨_, _, e, by rw [if_pos hst]; rfl, memRead_rx_of_insert rfl hroom,
      fun g off hne => memRead_of_exec_decodeByte e (hoff ▸ hne)⟩
  · have e := (exec_byte_awaitingChecksumLine b hr hst).trans
      (answer_eq_next.mpr (byteAwaitingChecksumLine_of_room b hst hroom))
    have hnot : ¬ s.reader.state = .awaitingTerminator := by simp [hst]
    exact ⟨_, _, e, by rw [if_neg hnot]; rfl, memRead_rx_of_insert rfl hroom,
      fun g off hne => memRead_of_exec_decodeByte e (hoff ▸ hne)⟩

/-- Settles O14: NoRoom under each of the three policies. -/
theorem bytesWithoutRoom : Obligations.BytesWithoutRoom := by
  intro s b hr hst hfull
  rw [exec_byte_of_full b hr hst hfull, noRoom]
  refine ⟨fun hpol => ?_, fun hpol => ?_, fun hpol => ?_⟩
  all_goals
    rw [hpol]
    rfl

/-- Settles O15, by induction on the bytes: each one leaves the buffer full and the reader in the same state. -/
theorem fullBufferNeverCompletesUnderHold : Obligations.FullBufferNeverCompletesUnderHold := by
  intro bs
  induction bs with
  | nil => exact fun s _ _ _ _ => ⟨s, rfl, rfl⟩
  | cons b bs ih =>
    intro s hr hpol hst hfull
    obtain ⟨hhold, -⟩ := bytesWithoutRoom s b hr hst hfull
    obtain ⟨t, ht, heq⟩ := ih { s with reader := { s.reader with overflow := true } } hr hpol hst hfull
    exact ⟨t, by rw [feed_cons (hhold hpol), ht], by simpa using heq⟩

/-- Settles O11: the dispatch of a byte in Idle and in Complete, in either block status. -/
theorem bytesOutsideAReadChangeNothing : Obligations.BytesOutsideAReadChangeNothing := by
  intro s b hst
  rw [exec_decodeByte, receiveByte]
  rcases hst with hst | hst
  · rw [hst, ite_self]
  · rw [hst, ite_self]

/-- Settles O12: the start marker is stored at offset 0; any other byte is junk. -/
theorem startMarkerOpensTheFrame : Obligations.StartMarkerOpensTheFrame := by
  intro s hr hst hbuf
  have e : exec (decodeByte slash) s = .next _ :=
    (exec_byte_synchronizing slash hr hst).trans (answer_eq_next.mpr (byteSynchronizing_slash hbuf))
  have hoff : byteOffset s = 0 := if_pos hst
  refine ⟨⟨_, _, e, rfl, memRead_rx_of_insert rfl hbuf, fun g off hne => ?_⟩, fun b hb => ?_⟩
  · exact memRead_of_exec_decodeByte e (hoff ▸ hne)
  · rw [exec_byte_synchronizing b hr hst, byteSynchronizing, if_neg (show b ≠ slash from hb), answer]

/-! ### The read operation (R130 to R133, R153) -/

/-- Settles O17: the row is enabled, and the request line is driven where it is present. -/
theorem readArmArmsTheFramer : Obligations.ReadArmArmsTheFramer := by
  intro s hr hphase hen hlock hguard
  refine whenEnabled_eq_next.mpr ⟨hr, by simp [hphase, hen, hlock, hguard], ?_⟩
  rw [driveReqOut_eq]
  rfl

/-- READ_COMPLETE of a done read accounts what Verify answers, after ReadFinish (R131). -/
theorem exec_readComplete_eq_next {s t : State} {res : ReadResult} (hr : s.blockStatus = .running)
    (hphase : s.rx.phase = .wait) (hdone : s.reader.done = true) (hv : verify s = .ok res)
    (h : rxAccount res (readFinish s) = .ok t) : exec .readComplete s = .next t :=
  whenEnabled_eq_next.mpr ⟨hr, by simp [hphase, hdone], bind_eq_ok.mpr ⟨res, hv, h⟩⟩

/-- Settles O18: RxAccount of a success, after ReadFinish. -/
theorem successfulReadIsAccounted : Obligations.SuccessfulReadIsAccounted := by
  intro s n hr hphase hdone hv
  refine exec_readComplete_eq_next hr hphase hdone hv ?_
  rw [rxAccount_ok, readFinish_eq]

/-- Settles O19: Verify fails with one of two errors, each with a counter of its own. -/
theorem failedReadIsAccounted : Obligations.FailedReadIsAccounted := by
  intro s res hr hphase hdone hguard hv hres
  refine exec_readComplete_eq_next hr hphase hdone hv ((rxAccount_failed hres).mpr ⟨hguard, ?_⟩)
  rw [readFinish_eq]
  rcases verify_results hv with ⟨n, rfl⟩ | rfl | rfl
  · exact absurd rfl (hres n)
  · rfl
  · rfl

/-- Settles O20: RxAccount of the timeout, after ReadFinish. -/
theorem timeoutEndsTheRead : Obligations.TimeoutEndsTheRead := by
  intro s hr hphase hdone hguard
  refine whenEnabled_eq_next.mpr ⟨hr, by simp [hphase, hdone], (rxAccount_failed (by simp)).mpr ⟨hguard, ?_⟩⟩
  rw [readFinish_eq]
  rfl

end Sys2Proof.Machine
end

/-! # The receiver's fan-out

Each row of the receiver's iteration as an equation, and from these the run of a whole fan-out, port by port (R150 to
R161). -/

section
namespace Sys2Proof.Machine

/-! ### RX replaces one port and its phase -/

theorem setPort_setRxPhase_eq (s : State) (k : Nat) (q : Port) (ph : RxPhase) :
    (s.setPort k q).setRxPhase ph =
      { s with rx := { s.rx with phase := ph }, ports := ((s.setPort k q).setRxPhase ph).ports } := by
  cases k <;> rfl

theorem portsBut_setPort_setRxPhase {s : State} {k : Nat} {p : Port} (q : Port) (ph : RxPhase)
    (hk : s.port? k = some p) : PortsBut s ((s.setPort k q).setRxPhase ph) k q := by
  obtain ⟨-, hlen, hself, hothers⟩ := onlyPort_setPort q hk
  exact ⟨hlen, by rw [port?_setRxPhase, hself], fun j hj => by rw [port?_setRxPhase, hothers j hj]⟩

theorem setPort_self {s : State} {k : Nat} {p : Port} (hk : s.port? k = some p) : s.setPort k p = s := by
  cases k with
  | zero => rfl
  | succ k =>
    obtain ⟨hlt, rfl⟩ := List.getElem?_eq_some_iff.mp hk
    simp [State.setPort]

/-! ### The rows of the iteration (R150, R151, R154 to R159) -/

/-- Settles O21: both rows are enabled. -/
theorem receiverWakesAndSkips : Obligations.ReceiverWakesAndSkips := fun _ hr =>
  ⟨fun hp => whenEnabled_eq_next.mpr ⟨hr, by simp [hp], rfl⟩,
    fun hp hen => whenEnabled_eq_next.mpr ⟨hr, by simp [hp, hen], rfl⟩⟩

theorem exec_rxOfferSkip {s : State} {k : Nat} {p : Port} (hr : s.blockStatus = .running) (hk : s.port? k = some p)
    (hp : s.rx.phase = .offer k) (hen : p.enabled = false) :
    exec (.rxOfferSkip k) s = .next (s.setRxPhase (.offer (k + 1))) :=
  whenPortEnabled_eq_next.mpr ⟨p, hk, hr, by simp [hp, hen], rfl⟩

theorem exec_rxDone {s : State} (hr : s.blockStatus = .running) (hp : s.rx.phase = .offer (s.cfg.n + 1))
    (hg : s.rx.slot.guard = .held .rx) :
    exec .rxDone s = .next (s.setRx { s.rx with slot := { s.rx.slot with guard := .free }, phase := .sleep }) :=
  whenEnabled_eq_next.mpr
    ⟨hr, by simp [hp], bind_eq_ok.mpr ⟨_, release_eq_ok.mpr ⟨_, slot?_rx s, hg, rfl⟩, rfl⟩⟩

/-- Settles O22: the two rows that take no ring slot. -/
theorem fanoutSkipsAndEnds : Obligations.FanoutSkipsAndEnds := fun _ hr =>
  ⟨fun _ _ => exec_rxOfferSkip hr, exec_rxDone hr⟩

/-- A port whose next slot is Free is offered it: RX takes its guard (R154). -/
theorem exec_rxOfferTry_taken {s : State} {k : Nat} {p : Port} (hr : s.blockStatus = .running)
    (hk : s.port? k = some p) (hp : s.rx.phase = .offer k) (hen : p.enabled = true)
    (hg : (p.ring.get (nextIdx p.head)).guard = .free) :
    exec (.rxOfferTry k) s = .next ((s.setPort k
      { p with ring := p.ring.set (nextIdx p.head) { p.ring.get (nextIdx p.head) with guard := .held .rx } }).setRxPhase
        (.copy k (nextIdx p.head))) := by
  have htry := (tryAcquire_eq_some (a := .rx)).mpr ⟨_, slot?_ring (nextIdx p.head) hk, hg, rfl⟩
  refine whenPortEnabled_eq_next.mpr ⟨p, hk, hr, by simp [hp, hen], ?_⟩
  rw [htry, setSlot_ring _ _ hk]

/-- A port whose next slot is held is passed over (R154). -/
theorem exec_rxOfferTry_busy {s : State} {k : Nat} {p : Port} (hr : s.blockStatus = .running)
    (hk : s.port? k = some p) (hp : s.rx.phase = .offer k) (hen : p.enabled = true)
    (hg : (p.ring.get (nextIdx p.head)).guard ≠ .free) :
    exec (.rxOfferTry k) s = .next (s.setRxPhase (.offer (k + 1))) := by
  have htry : s.tryAcquire .rx (.ring k (nextIdx p.head)) = none := by
    refine tryAcquire_eq_none.mpr fun sl hsl => ?_
    rw [slot?_ring _ hk] at hsl
    exact Option.some.inj hsl ▸ hg
  refine whenPortEnabled_eq_next.mpr ⟨p, hk, hr, by simp [hp, hen], ?_⟩
  rw [htry]

theorem exec_rxCopy {s : State} {k : Nat} {i : RingIdx} {p : Port} {m : Memory} (hr : s.blockStatus = .running)
    (hk : s.port? k = some p) (hp : s.rx.phase = .copy k i) (hg : (p.ring.get i).guard = .held .rx)
    (hm : copyRange s.cfg.bufSize s.rx.slot.data (p.ring.get i).data s.rx.n = .ok m) :
    exec (.rxCopy k i) s = .next ((s.setPort k
      { p with ring := p.ring.set i { p.ring.get i with data := m, length := s.rx.n } }).setRxPhase (.advance k i)) := by
  refine whenPortEnabled_eq_next.mpr ⟨p, hk, hr, by simp [hp, hg], bind_eq_ok.mpr ⟨m, hm, ?_⟩⟩
  rw [setSlot_ring i _ hk]
  rfl

theorem exec_rxAdvance {s : State} {k : Nat} {i : RingIdx} {p : Port} (hr : s.blockStatus = .running)
    (hk : s.port? k = some p) (hp : s.rx.phase = .advance k i) :
    exec (.rxAdvance k i) s =
      .next ((s.setPort k { p with head := i, copied := p.copied + 1 }).setRxPhase (.release k i)) :=
  whenPortEnabled_eq_next.mpr ⟨p, hk, hr, by simp [hp], rfl⟩

theorem exec_rxRelease {s : State} {k : Nat} {i : RingIdx} {p : Port} (hr : s.blockStatus = .running)
    (hk : s.port? k = some p) (hp : s.rx.phase = .release k i) (hg : (p.ring.get i).guard = .held .rx) :
    exec (.rxRelease k i) s = .next ((s.setPort k
      { p with ring := p.ring.set i { p.ring.get i with guard := .free } }).setRxPhase (.offer (k + 1))) := by
  have hrel := release_eq_ok.mpr ⟨_, slot?_ring i hk, hg, rfl⟩
  refine whenPortEnabled_eq_next.mpr ⟨p, hk, hr, by simp [hp], bind_eq_ok.mpr ⟨_, hrel, ?_⟩⟩
  rw [setSlot_ring i _ hk]
  rfl

/-! ### The bytes -/

/-- Only the BYTE rows and RX_COPY store (R60, R66). -/
theorem sameBytes_of_exec {i : Instr} {s t : State} (e : exec i s = .next t) (hb : isByteRow i = false)
    (hc : ∀ k h, i ≠ .rxCopy k h) : SameBytes s t := by
  intro g off
  by_contra hne
  rcases bytesChangeOnlyWhereStored i s t g off e hne with ⟨hi, -⟩ | ⟨k, h, hi, -⟩
  · simp [hb] at hi
  · exact hc k h hi

/-- A slot into which the telegram was copied reads as the receiver's (R157). -/
theorem memRead_of_copyRange {s t : State} {g : SlotRef} {sl : Slot} {dst : Memory} {n j : Nat} (hc : t.cfg = s.cfg)
    (hg : t.slot? g = some sl) (hm : copyRange s.cfg.bufSize s.rx.slot.data dst n = .ok sl.data) (hj : j < n) :
    t.memRead g j = s.memRead .rx j := by
  obtain ⟨hcopied, -⟩ := copyRange_spec hm
  obtain ⟨-, hl, -⟩ := hcopied j hj
  simp [State.memRead, Machine.memRead, hc, hg, hl]

/-- Settles O23: the slot named is the next one; TryAcquire takes its guard or fails, and no byte is stored. -/
theorem offerTriesTheNextSlot : Obligations.OfferTriesTheNextSlot := by
  intro s k p hr hk hp hen i hi
  obtain rfl : i = nextIdx p.head := Fin.ext hi
  refine ⟨fun hg => ?_, exec_rxOfferTry_busy hr hk hp hen⟩
  have e := exec_rxOfferTry_taken hr hk hp hen hg
  exact ⟨_, e, setPort_setRxPhase_eq .., portsBut_setPort_setRxPhase _ _ hk, sameBytes_of_exec e rfl (by simp)⟩

/-- Settles O24: what the range copy answers is the slot's data, and no other byte changes (O57). -/
theorem copyWritesTheTelegram : Obligations.CopyWritesTheTelegram := by
  intro s k i p hr hk hp hg hcap hlisted
  obtain ⟨m, hm⟩ := copyRange_answers (dst := (p.ring.get i).data) hcap hlisted
  have e := exec_rxCopy hr hk hp hg hm
  have hbut := portsBut_setPort_setRxPhase
    { p with ring := p.ring.set i { p.ring.get i with data := m, length := s.rx.n } } (.advance k i) hk
  have ⟨_, hport, _⟩ := hbut
  refine ⟨_, m, e, setPort_setRxPhase_eq .., hbut, fun j hj => ?_, fun g off hout => ?_⟩
  · exact memRead_of_copyRange (by simp) (slot?_ring i hport) (by simpa using hm) hj
  · by_contra hne
    rcases bytesChangeOnlyWhereStored _ _ _ g off e hne with ⟨hbyte, -⟩ | ⟨k', i', hrow, hgk, hlt⟩
    · cases hbyte
    · cases hrow
      exact absurd (hout hgk) (by omega)

/-- Settles O25: the two rows that end a delivery, neither of which stores a byte. -/
theorem deliveryIsPublishedAndReleased : Obligations.DeliveryIsPublishedAndReleased := by
  intro s k i p hr hk
  refine ⟨fun hp => ?_, fun hp hg => ?_⟩
  · have e := exec_rxAdvance hr hk hp
    exact ⟨_, e, setPort_setRxPhase_eq .., portsBut_setPort_setRxPhase _ _ hk, sameBytes_of_exec e rfl (by simp)⟩
  · have e := exec_rxRelease hr hk hp hg
    exact ⟨_, e, setPort_setRxPhase_eq .., portsBut_setPort_setRxPhase _ _ hk, sameBytes_of_exec e rfl (by simp)⟩

/-! ### A fan-out of RX alone (R160, R161) -/

/-- `n` turns take `s` to `t`, and RX sleeps before none of them. -/
def RunsAwake (n : Nat) (s t : State) : Prop :=
  (∀ j < n, ∃ u, run j s = .next u ∧ u.rx.phase ≠ .sleep) ∧ run n s = .next t

theorem RunsAwake.refl (s : State) : RunsAwake 0 s s := ⟨by simp, rfl⟩

theorem RunsAwake.cons {n : Nat} {s t u : State} (hp : s.rx.phase ≠ .sleep) (e : step s = .next t)
    (h : RunsAwake n t u) : RunsAwake (n + 1) s u := by
  obtain ⟨hawake, hrun⟩ := h
  have hstep : ∀ j, run (j + 1) s = run j t := fun j => by simp [run, e]
  refine ⟨fun j hj => ?_, (hstep n).trans hrun⟩
  cases j with
  | zero => exact ⟨s, rfl, hp⟩
  | succ j => rw [hstep]; exact hawake j (by omega)

/-- What a fan-out relies on and no step of it changes: the telegram is written, and RX holds the slot it lies in. -/
structure CanFanOut (s : State) : Prop where
  running : s.blockStatus = .running
  ports : s.ports.length = s.cfg.n
  fits : s.rx.n ≤ s.cfg.bufSize
  written : Listed s.rx.slot.data s.rx.n
  held : s.rx.slot.guard = .held .rx

theorem BlockInv.canFanOut {s : State} {k : Nat} (h : BlockInv s) (hr : s.blockStatus = .running)
    (hp : s.rx.phase = .offer k) : CanFanOut s := by
  have ⟨_, hlen, _⟩ := h
  obtain ⟨-, -, hfits, hwritten⟩ := h.slotOk (slot?_rx s)
  obtain ⟨hn, -⟩ := telegramOk_iff.mp (h.offer_telegramOk hp)
  exact ⟨hr, hlen, hn ▸ hfits, hn ▸ hwritten, h.rxSlot_held (by simp [hp, RxPhase.holdsSlot])⟩

/-- A row of RX that answers is what RX's turn runs (O49). -/
theorem CanFanOut.turn {s t u : State} {n : Nat} {i : Instr} (h : CanFanOut s) (hp : s.rx.phase ≠ .sleep)
    (ha : s.agenda = turns .rx (n + 1)) (hi : agentOf i = some .rx) (e : exec i (s.setAgenda (turns .rx n)) = .next t)
    (hrun : RunsAwake n t u) : RunsAwake (n + 1) s u := by
  have hsel : selected .rx s = some i := enabledStepIsTheSelectedOne i .rx (s.setAgenda (turns .rx n)) t h.ports hi e
  exact hrun.cons hp ((step_agent_of_selected ha hsel).trans e)

/-- `s` in the course of its fan-out: port k is `q`, RX is in phase `ph` and has `n` more turns. -/
def State.fanning (s : State) (k : Nat) (q : Port) (ph : RxPhase) (n : Nat) : State :=
  ((s.setAgenda (turns .rx n)).setPort k q).setRxPhase ph

section
variable (s : State) (k : Nat) (q : Port) (ph : RxPhase) (n : Nat)

@[simp] theorem fanning_cfg : (s.fanning k q ph n).cfg = s.cfg := by simp [State.fanning]
@[simp] theorem fanning_blockStatus : (s.fanning k q ph n).blockStatus = s.blockStatus := by simp [State.fanning]
@[simp] theorem fanning_rx : (s.fanning k q ph n).rx = { s.rx with phase := ph } := by simp [State.fanning]
@[simp] theorem fanning_agenda : (s.fanning k q ph n).agenda = turns .rx n := by simp [State.fanning]

theorem fanning_phase : (s.fanning k q ph n).rx.phase = ph := by simp

theorem fanning_setAgenda (n' : Nat) : (s.fanning k q ph n).setAgenda (turns .rx n') = s.fanning k q ph n' := by
  cases k <;> rfl

theorem fanning_setPort_setRxPhase (q' : Port) (ph' : RxPhase) :
    ((s.fanning k q ph n).setPort k q').setRxPhase ph' = s.fanning k q' ph' n := by
  cases k with
  | zero => rfl
  | succ k => simp [State.fanning, State.setPort, State.setRxPhase, State.setRx]

end

theorem fanning_self {s : State} {k n : Nat} {p : Port} (hk : s.port? k = some p) (ha : s.agenda = turns .rx n) :
    s.fanning k p s.rx.phase n = s := by
  rw [State.fanning, ← ha]
  exact congrArg (·.setRxPhase s.rx.phase) (setPort_self hk)

theorem port?_fanning_self {s : State} {k : Nat} {p : Port} (q : Port) (ph : RxPhase) (n : Nat)
    (hk : s.port? k = some p) : (s.fanning k q ph n).port? k = some q := by
  rw [State.fanning, port?_setRxPhase, port?_setPort_self q ((port?_setAgenda ..).trans hk)]

theorem CanFanOut.fanning {s : State} (h : CanFanOut s) (k : Nat) (q : Port) (ph : RxPhase) (n : Nat) :
    CanFanOut (s.fanning k q ph n) := by
  obtain ⟨hr, hlen, hfits, hwritten, hheld⟩ := h
  exact ⟨by simpa, by simpa [State.fanning], by simpa, by simpa, by simpa⟩

/-- A turn of RX that replaces port k. -/
theorem CanFanOut.fanning_turn {s u : State} {k n : Nat} {q q' : Port} {ph ph' : RxPhase} {i : Instr} (h : CanFanOut s)
    (hp : ph ≠ .sleep) (hi : agentOf i = some .rx)
    (e : exec i (s.fanning k q ph n) = .next (((s.fanning k q ph n).setPort k q').setRxPhase ph'))
    (hrun : RunsAwake n (s.fanning k q' ph' n) u) : RunsAwake (n + 1) (s.fanning k q ph (n + 1)) u := by
  refine (h.fanning ..).turn (by simpa) (fanning_agenda ..) hi ?_ hrun
  rw [fanning_setAgenda, e, fanning_setPort_setRxPhase]

/-- A port after its delivery: memory `m` of length `n` published in the next slot, and counted. -/
def Port.published (p : Port) (m : Memory) (n : Nat) : Port :=
  { p with head := nextIdx p.head, copied := p.copied + 1, ring := p.ring.set (nextIdx p.head) ⟨.free, m, n⟩ }

/-- A port that accepts takes four turns: the offer, the copy, the publication and the release. -/
theorem CanFanOut.deliver {s u : State} {k n : Nat} {p : Port} {m : Memory} (h : CanFanOut s)
    (hk : s.port? k = some p) (hen : p.enabled = true) (hg : (p.ring.get (nextIdx p.head)).guard = .free)
    (hm : copyRange s.cfg.bufSize s.rx.slot.data (p.ring.get (nextIdx p.head)).data s.rx.n = .ok m)
    (hrun : RunsAwake n (s.fanning k (p.published m s.rx.n) (.offer (k + 1)) n) u) :
    RunsAwake (n + 4) (s.fanning k p (.offer k) (n + 4)) u := by
  have hr : ∀ q ph c, (s.fanning k q ph c).blockStatus = .running := fun q ph c => by simpa using h.running
  have hport := fun q ph c => port?_fanning_self q ph c hk
  refine h.fanning_turn (by simp) rfl (exec_rxOfferTry_taken (hr ..) (hport ..) (fanning_phase ..) hen hg) ?_
  refine h.fanning_turn (by simp) rfl
    (exec_rxCopy (m := m) (hr ..) (hport ..) (fanning_phase ..) (by simp) (by simpa using hm)) ?_
  refine h.fanning_turn (by simp) rfl (exec_rxAdvance (hr ..) (hport ..) (fanning_phase ..)) ?_
  refine h.fanning_turn (by simp) rfl (exec_rxRelease (hr ..) (hport ..) (fanning_phase ..) (by simp)) ?_
  simpa [Port.published] using hrun

/-- A port that does not accept takes one turn (R154, R155). -/
theorem CanFanOut.pass {s u : State} {k n : Nat} {p : Port} (h : CanFanOut s) (hk : s.port? k = some p)
    (hacc : accepts p = false) (hrun : RunsAwake n (s.fanning k p (.offer (k + 1)) n) u) :
    RunsAwake (n + 1) (s.fanning k p (.offer k) (n + 1)) u := by
  have hr : (s.fanning k p (.offer k) n).blockStatus = .running := by simpa using h.running
  have hport := port?_fanning_self p (.offer k) n hk
  cases hen : p.enabled with
  | false =>
    refine h.fanning_turn (i := .rxOfferSkip k) (by simp) rfl ?_ hrun
    rw [setPort_self hport, exec_rxOfferSkip hr hport (fanning_phase ..) hen]
  | true =>
    have hg : (p.ring.get (nextIdx p.head)).guard ≠ .free := by simpa [accepts, hen] using hacc
    refine h.fanning_turn (i := .rxOfferTry k) (by simp) rfl ?_ hrun
    rw [setPort_self hport, exec_rxOfferTry_busy hr hport (fanning_phase ..) hen hg]

/-- What becomes of port `p` in a fan-out of `s`: it is as before, or has the telegram in its new head slot. -/
def Delivered (s : State) (p q : Port) : Prop :=
  (accepts p = false → q = p) ∧
  (accepts p = true → ∃ m,
    copyRange s.cfg.bufSize s.rx.slot.data (p.ring.get (nextIdx p.head)).data s.rx.n = .ok m ∧
    q = p.published m s.rx.n)

/-- The turns of RX that a port takes. -/
def portTurns (p : Port) : Nat := if accepts p then 4 else 1

/-- RX offers the telegram to port k and comes to the next one. -/
theorem CanFanOut.offer {s : State} {k n : Nat} {p : Port} (h : CanFanOut s) (hk : s.port? k = some p)
    (hp : s.rx.phase = .offer k) (ha : s.agenda = turns .rx (n + portTurns p)) :
    ∃ q, Delivered s p q ∧
      ∀ u, RunsAwake n (s.fanning k q (.offer (k + 1)) n) u → RunsAwake (n + portTurns p) s u := by
  have hs := hp ▸ fanning_self hk ha
  cases hacc : accepts p with
  | false =>
    have hturns : portTurns p = 1 := by simp [portTurns, hacc]
    rw [hturns] at hs ⊢
    exact ⟨p, by simp [Delivered, hacc], fun u hrun => hs ▸ h.pass hk hacc hrun⟩
  | true =>
    have hturns : portTurns p = 4 := by simp [portTurns, hacc]
    rw [hturns] at hs ⊢
    obtain ⟨hen, hg⟩ : p.enabled = true ∧ (p.ring.get (nextIdx p.head)).guard = .free := by
      simpa [accepts] using hacc
    obtain ⟨m, hm⟩ := copyRange_answers (dst := (p.ring.get (nextIdx p.head)).data) h.fits h.written
    exact ⟨p.published m s.rx.n, by simp [Delivered, hacc, hm], fun u hrun => hs ▸ h.deliver hk hen hg hm hrun⟩

/-! ### All the ports -/

/-- `s` after its fan-out, with these ports: RX sleeps, and its slot is Free (R156). -/
def State.fannedOut (s : State) (ports : List Port) : State :=
  { s with rx := { s.rx with slot := { s.rx.slot with guard := .free }, phase := .sleep }, ports := ports, agenda := [] }

theorem fannedOut_fanning (s : State) (k : Nat) (q : Port) (ph : RxPhase) (n : Nat) (ports : List Port) :
    (s.fanning k q ph n).fannedOut ports = s.fannedOut ports := by
  cases k <;> rfl

theorem delivered_fanning (s : State) (k : Nat) (q : Port) (ph : RxPhase) (n : Nat) :
    Delivered (s.fanning k q ph n) = Delivered s := by
  simp [Delivered, funext_iff]

theorem fanning_ports {s : State} {pre post : List Port} {p : Port} (hs : s.ports = pre ++ p :: post) (q : Port)
    (ph : RxPhase) (n : Nat) : (s.fanning (pre.length + 1) q ph n).ports = pre ++ q :: post := by
  simp [State.fanning, State.setPort, hs]

/-- The turns of a fan-out over these ports and of its end, N + 3m + 1 in all (R160). -/
def fanoutTurns (ports : List Port) : Nat := ports.length + 3 * ports.countP accepts + 1

theorem fanoutTurns_cons (p : Port) (ports : List Port) : fanoutTurns (p :: ports) = fanoutTurns ports + portTurns p := by
  simp only [fanoutTurns, portTurns, List.length_cons, List.countP_cons]
  split <;> omega

/-- From the offer to the first port of `post`, RX serves these ports in turn and ends the fan-out. -/
theorem CanFanOut.serve {s : State} {pre post : List Port} (h : CanFanOut s) (hs : s.ports = pre ++ post)
    (hp : s.rx.phase = .offer (pre.length + 1)) (ha : s.agenda = turns .rx (fanoutTurns post)) :
    ∃ qs, List.Forall₂ (Delivered s) post qs ∧ RunsAwake (fanoutTurns post) s (s.fannedOut (pre ++ qs)) := by
  induction post generalizing pre s with
  | nil =>
    have hlast : s.rx.phase = .offer (s.cfg.n + 1) := by rw [hp, ← h.ports, hs, List.append_nil]
    have hend := exec_rxDone (s := s.setAgenda (turns .rx 0)) h.running hlast h.held
    refine ⟨[], .nil, h.turn (by simp [hp]) ha rfl hend ?_⟩
    rw [← hs]
    exact .refl _
  | cons p post ih =>
    rw [fanoutTurns_cons] at ha ⊢
    obtain ⟨q, hq, hrun⟩ := h.offer (by simp [State.port?, hs]) hp ha
    obtain ⟨qs, hqs, hrest⟩ := ih (pre := pre ++ [q]) (h.fanning (pre.length + 1) q (.offer (pre.length + 1 + 1)) _)
      (by simp [fanning_ports hs]) (by simp) (fanning_agenda ..)
    rw [delivered_fanning] at hqs
    rw [fannedOut_fanning, List.append_assoc] at hrest
    exact ⟨q :: qs, .cons hq hqs, hrun _ hrest⟩

theorem port?_of_forall₂ {R : Port → Port → Prop} {s t : State} {k : Nat} {p : Port}
    (h : List.Forall₂ R s.ports t.ports) (hk : s.port? k = some p) : ∃ q, t.port? k = some q ∧ R p q := by
  cases k with
  | zero => cases hk
  | succ k =>
    obtain ⟨hlt, rfl⟩ := List.getElem?_eq_some_iff.mp hk
    have hlt' : k < t.ports.length := h.length_eq ▸ hlt
    exact ⟨_, List.getElem?_eq_getElem hlt', h.get hlt hlt'⟩

/-- Settles O26: RX serves the ports from the first one on, and what the range copy answered reads as the telegram. -/
theorem fanoutTakesExactlyItsSteps : Obligations.FanoutTakesExactlyItsSteps := by
  intro s hinv hr hp ha
  have h := hinv.canFanOut hr hp
  have hturns : s.cfg.n + 3 * s.ports.countP accepts + 1 = fanoutTurns s.ports := by rw [fanoutTurns, h.ports]
  rw [hturns] at ha ⊢
  obtain ⟨qs, hqs, hawake, hrun⟩ := h.serve (pre := []) rfl hp ha
  refine ⟨hawake, s.fannedOut qs, hrun, rfl, hqs.length_eq.symm, fun k p hk => ?_⟩
  obtain ⟨q, hq, hpass, htake⟩ := port?_of_forall₂ (t := s.fannedOut qs) hqs hk
  refine ⟨q, hq, hpass, fun hacc => ?_⟩
  obtain ⟨m, hm, rfl⟩ := htake hacc
  have hslot : (p.published m s.rx.n).ring.get (nextIdx p.head) = ⟨.free, m, s.rx.n⟩ := ring_get_set_self ..
  refine ⟨by rw [hslot]; rfl, fun j hj => ?_⟩
  exact memRead_of_copyRange rfl (hslot ▸ slot?_ring _ hq) hm hj

end Sys2Proof.Machine
end

/-! # The sender

Each row of TX(k) as an equation, the three rows of the transmit loop against each other, and the run of a whole telegram
(R180 to R186, R193). -/

section
namespace Sys2Proof.Machine

/-! ### The sample's decision (R181, R193) -/

theorem sampleDecision_eq (p : Port) (f : FlowLevel) (h : RingIdx) :
    sampleDecision p f h =
      if p.enabled = true ∧ f = .asserted ∧ (p.ring.get h).length ≠ 0 then .acquire h else .sleep := by
  simp [sampleDecision, mayTransmit, and_assoc]

/-! ### The rows of TX(k) (R180 to R185, R193) -/

section
variable {s : State} {k : Nat} {p : Port} (hr : s.blockStatus = .running) (hk : s.port? k = some p)
include hr hk

theorem exec_tickTx (hp : p.phase = .sleep) : exec (.tickTx k) s = .next (s.setPort k { p with phase := .sample }) :=
  whenPortEnabled_eq_next.mpr ⟨p, hk, hr, by simp [hp], rfl⟩

theorem exec_txSample (hp : p.phase = .sample) (hg : s.cfg.sampleGranularity = .atomic) :
    exec (.txSample k) s = .next (s.setPort k { p with phase := sampleDecision p p.flowLevel p.head }) :=
  whenPortEnabled_eq_next.mpr ⟨p, hk, hr, by simp [hp, hg], rfl⟩

theorem exec_txSampleFlow (hp : p.phase = .sample) (hg : s.cfg.sampleGranularity = .perField) :
    exec (.txSampleFlow k) s = .next (s.setPort k { p with phase := .sampleH p.flowLevel }) :=
  whenPortEnabled_eq_next.mpr ⟨p, hk, hr, by simp [hp, hg], rfl⟩

theorem exec_txSampleHead {f : FlowLevel} (hp : p.phase = .sampleH f) :
    exec (.txSampleHead k f) s = .next (s.setPort k { p with phase := .sampleL f p.head }) :=
  whenPortEnabled_eq_next.mpr ⟨p, hk, hr, by simp [hp], rfl⟩

theorem exec_txSampleLen {f : FlowLevel} {h : RingIdx} (hp : p.phase = .sampleL f h) :
    exec (.txSampleLen k f h) s = .next (s.setPort k { p with phase := sampleDecision p f h }) :=
  whenPortEnabled_eq_next.mpr ⟨p, hk, hr, by simp [hp], rfl⟩

theorem exec_txAcquire {h : RingIdx} (hp : p.phase = .acquire h) (hg : (p.ring.get h).guard = .free)
    (hl : (p.ring.get h).length ≠ 0) :
    exec (.txAcquire k h) s = .next (s.setPort k
      { p with
        ring := p.ring.set h { p.ring.get h with guard := .held (.tx k) }
        phase := .send h 0 (p.ring.get h).length }) :=
  whenPortEnabled_eq_next.mpr ⟨p, hk, hr, by simp [hp, hg], if_neg hl⟩

theorem exec_txAcquire_empty {h : RingIdx} (hp : p.phase = .acquire h) (hg : (p.ring.get h).guard = .free)
    (hl : (p.ring.get h).length = 0) :
    exec (.txAcquire k h) s = .next (s.setPort k { p with phase := .sleep }) :=
  whenPortEnabled_eq_next.mpr ⟨p, hk, hr, by simp [hp, hg], if_pos hl⟩

theorem exec_txByte {h : RingIdx} {i len : Nat} {b : Byte} (hp : p.phase = .send h i len) (hi : i < len)
    (hf : p.flowLevel = .asserted) (hb : s.memRead (.ring k h) i = .ok b) :
    exec (.txByte k h i len) s =
      .next (s.setPort k { p with out := p.out ++ [b], phase := .send h (i + 1) len }) :=
  whenPortEnabled_eq_next.mpr ⟨p, hk, hr, by simp [hp, hi, hf], bind_eq_ok.mpr ⟨b, hb, rfl⟩⟩

theorem exec_txAbort {h : RingIdx} {i len : Nat} (hp : p.phase = .send h i len) (hi : i < len)
    (hf : p.flowLevel = .deasserted) (hg : (p.ring.get h).guard = .held (.tx k)) :
    exec (.txAbort k h i len) s = .next (s.setPort k
      { p with
        aborted := p.aborted + 1
        ring := p.ring.set h { p.ring.get h with guard := .free, length := 0 }, phase := .sleep }) :=
  whenPortEnabled_eq_next.mpr ⟨p, hk, hr, by simp [hp, hi, hf], (endTransmission_eq_ok hk).mpr ⟨hg, rfl⟩⟩

theorem exec_txDone {h : RingIdx} {len : Nat} (hp : p.phase = .send h len len)
    (hg : (p.ring.get h).guard = .held (.tx k)) :
    exec (.txDone k h len) s = .next (s.setPort k
      { p with
        written := p.written + 1
        ring := p.ring.set h { p.ring.get h with guard := .free, length := 0 }, phase := .sleep }) :=
  whenPortEnabled_eq_next.mpr ⟨p, hk, hr, by simp [hp], (endTransmission_eq_ok hk).mpr ⟨hg, rfl⟩⟩

/-- A row of a port whose body answers whenever the row is enabled takes a step exactly when it is enabled. -/
theorem whenPortEnabled_answers_iff {en : Port → Bool} {body : Port → Except Fault State}
    (hbody : en p = true → ∃ t, body p = .ok t) : (∃ t, whenPortEnabled s k en body = .next t) ↔ en p = true := by
  constructor
  · rintro ⟨t, ht⟩
    obtain ⟨q, hq, -, hen, -⟩ := whenPortEnabled_eq_next.mp ht
    obtain rfl : p = q := Option.some.inj (hk.symm.trans hq)
    exact hen
  · intro hen
    obtain ⟨t, ht⟩ := hbody hen
    exact ⟨t, whenPortEnabled_eq_next.mpr ⟨p, hk, hr, hen, ht⟩⟩

end

/-- Settles O27: both rows replace only the phase of port k. -/
theorem senderWakesAndSamples : Obligations.SenderWakesAndSamples := by
  intro s k p hr hk
  refine ⟨fun hp => ⟨_, exec_tickTx hr hk hp, onlyPort_setPort _ hk⟩, fun hp hg => ?_⟩
  rw [← sampleDecision_eq]
  exact ⟨_, exec_txSample hr hk hp hg, onlyPort_setPort _ hk⟩

/-- Settles O28: the three rows replace only the phase of port k. -/
theorem senderSamplesFieldByField : Obligations.SenderSamplesFieldByField := by
  intro s k p hr hk
  refine ⟨fun hp hg => ⟨_, exec_txSampleFlow hr hk hp hg, onlyPort_setPort _ hk⟩,
    fun f hp => ⟨_, exec_txSampleHead hr hk hp, onlyPort_setPort _ hk⟩, fun f h hp => ?_⟩
  rw [← sampleDecision_eq]
  exact ⟨_, exec_txSampleLen hr hk hp, onlyPort_setPort _ hk⟩

/-- Settles O29, by cases on whether the slot is empty. -/
theorem acquireReadsTheLengthAgain : Obligations.AcquireReadsTheLengthAgain := by
  intro s k h p hr hk hp hg
  by_cases hl : (p.ring.get h).length = 0
  · have e := exec_txAcquire_empty hr hk hp hg hl
    exact ⟨_, e, sameBytes_of_exec e rfl (by simp), fun hne => absurd hl hne, fun _ => onlyPort_setPort _ hk⟩
  · have e := exec_txAcquire hr hk hp hg hl
    exact ⟨_, e, sameBytes_of_exec e rfl (by simp), fun _ => onlyPort_setPort _ hk, fun hz => absurd hz hl⟩

/-! ### The transmit loop (R183 to R186) -/

/-- Settles O30: the byte read is appended, and no row of a sender stores one. -/
theorem byteIsSent : Obligations.ByteIsSent := by
  intro s k h i len p b hr hk hp hi hf hb
  have e := exec_txByte hr hk hp hi hf hb
  exact ⟨_, e, sameBytes_of_exec e rfl (by simp), onlyPort_setPort _ hk⟩

/-- Settles O31: both rows end the transmission, each with its own counter. -/
theorem transmissionEndsConsumeTheTelegram : Obligations.TransmissionEndsConsumeTheTelegram := by
  intro s k h i len p hr hk hp hg
  refine ⟨fun hi hf => ?_, ?_⟩
  · have e := exec_txAbort hr hk hp hi hf hg
    exact ⟨_, e, sameBytes_of_exec e rfl (by simp), onlyPort_setPort _ hk⟩
  · rintro rfl
    have e := exec_txDone hr hk hp hg
    exact ⟨_, e, sameBytes_of_exec e rfl (by simp), onlyPort_setPort _ hk⟩

theorem memRead_ring_answers {s : State} {k : Nat} {h : RingIdx} {p : Port} {i len : Nat} (hk : s.port? k = some p)
    (hi : i < len) (hcap : len ≤ s.cfg.bufSize) (hlisted : Listed (p.ring.get h).data len) :
    ∃ b, s.memRead (.ring k h) i = .ok b := by
  obtain ⟨b, hb⟩ := Option.isSome_iff_exists.mp (hlisted i hi)
  exact ⟨b, state_memRead_eq_ok.mpr ⟨_, slot?_ring h hk, by omega, hb⟩⟩

/-- Settles O32: the body of each row answers, so it is taken exactly under its condition on the phase and the level. -/
theorem transmitLoopHasOneStep : Obligations.TransmitLoopHasOneStep := by
  intro s k h i len p hr hk hp hle hg hcap hlisted
  refine ⟨(whenPortEnabled_answers_iff hr hk fun _ => ?_).trans ?_,
    (whenPortEnabled_answers_iff hr hk fun hen => ?_).trans ?_,
    (whenPortEnabled_answers_iff hr hk fun _ => ?_).trans ?_⟩
  · exact ⟨_, (endTransmission_eq_ok hk).mpr ⟨hg, rfl⟩⟩
  · simp [hp]
  · have hi : i < len := by simp_all
    exact bind_answers (memRead_ring_answers hk hi hcap hlisted) fun _ => ⟨_, rfl⟩
  · simp [hp]
  · exact ⟨_, (endTransmission_eq_ok hk).mpr ⟨hg, rfl⟩⟩
  · simp [hp]

/-! ### A whole telegram (R292) -/

/-- The first of an agent's turns runs its selected step. -/
theorem run_turns {s t : State} {a : Agent} {n : Nat} {i : Instr} (ha : s.agenda = turns a (n + 1))
    (hi : selected a s = some i) (e : exec i (s.setAgenda (turns a n)) = .next t) : run (n + 1) s = run n t := by
  have hstep : step s = .next t := (step_agent_of_selected ha hi).trans e
  simp [run, hstep]

theorem setPort_setAgenda (s : State) (k : Nat) (p : Port) (a : List Item) :
    (s.setPort k p).setAgenda a = (s.setAgenda a).setPort k p := by
  cases k <;> rfl

/-- A byte of a slot whose first bytes a range read answers (R12). -/
theorem memRead_of_readRange {s : State} {k : Nat} {h : RingIdx} {p : Port} {len i : Nat} {bytes : List Byte}
    (hk : s.port? k = some p) (hread : readRange s.cfg.bufSize (p.ring.get h).data len = .ok bytes)
    (hi : i < bytes.length) : s.memRead (.ring k h) i = .ok bytes[i] := by
  obtain ⟨rfl, hbytes⟩ := readRange_eq_ok.mp hread
  obtain ⟨hcap, hlookup⟩ := hbytes i hi
  exact state_memRead_eq_ok.mpr ⟨_, slot?_ring h hk, hcap, hlookup.trans (List.getElem?_eq_getElem hi)⟩

section
variable {s : State} {k : Nat} {p : Port} (hr : s.blockStatus = .running) (hk : s.port? k = some p)
include hr hk

/-- A turn of TX(k) before the last byte is sent, with the level asserted (R183). -/
theorem run_txByte {h : RingIdx} {i len n : Nat} {b : Byte} (hp : p.phase = .send h i len) (hi : i < len)
    (hf : p.flowLevel = .asserted) (hb : s.memRead (.ring k h) i = .ok b) (ha : s.agenda = turns (.tx k) (n + 1)) :
    run (n + 1) s = run n ((s.setAgenda (turns (.tx k) n)).setPort k
      { p with out := p.out ++ [b], phase := .send h (i + 1) len }) := by
  have hsel : selected (.tx k) s = some (.txByte k h i len) := by
    simp [selected_tx hr hk, selectedTx, hp, hi, hf]
  have hread := (state_memRead_congr (setAgenda_cfg s (turns (.tx k) n)) (slot?_setAgenda ..) i).trans hb
  exact run_turns ha hsel
    (exec_txByte (s := s.setAgenda (turns (.tx k) n)) hr ((port?_setAgenda ..).trans hk) hp hi hf hread)

/-- The turn of TX(k) after the last byte is sent (R185). -/
theorem run_txDone {h : RingIdx} {len : Nat} (hp : p.phase = .send h len len)
    (hg : (p.ring.get h).guard = .held (.tx k)) (ha : s.agenda = turns (.tx k) 1) :
    run 1 s = .next ((s.setAgenda []).setPort k
      { p with
        written := p.written + 1
        ring := p.ring.set h { p.ring.get h with guard := .free, length := 0 }, phase := .sleep }) := by
  have hsel : selected (.tx k) s = some (.txDone k h len) := by simp [selected_tx hr hk, selectedTx, hp]
  exact run_turns ha hsel (exec_txDone (s := s.setAgenda []) hr ((port?_setAgenda ..).trans hk) hp hg)

end

/-- From the byte at `i` on, TX(k) sends the `n` bytes left and counts the telegram written (R183, R185). -/
theorem run_send {s : State} {k : Nat} {h : RingIdx} {i len n : Nat} {p : Port} {bytes : List Byte}
    (hr : s.blockStatus = .running) (hk : s.port? k = some p) (hp : p.phase = .send h i len) (hlen : i + n = len)
    (hf : p.flowLevel = .asserted) (hg : (p.ring.get h).guard = .held (.tx k))
    (hread : readRange s.cfg.bufSize (p.ring.get h).data len = .ok bytes) (ha : s.agenda = turns (.tx k) (n + 1)) :
    run (n + 1) s = .next ((s.setAgenda []).setPort k
      { p with
        out := p.out ++ bytes.drop i, written := p.written + 1
        ring := p.ring.set h { p.ring.get h with guard := .free, length := 0 }, phase := .sleep }) := by
  obtain ⟨hbytes, -⟩ := readRange_eq_ok.mp hread
  induction n generalizing s p i with
  | zero =>
    obtain rfl : i = len := hlen
    rw [run_txDone hr hk hp hg ha, List.drop_of_length_le (Nat.le_of_eq hbytes), List.append_nil]
  | succ n ih =>
    have hi : i < bytes.length := by omega
    have hport := port?_setPort_self { p with out := p.out ++ [bytes[i]], phase := .send h (i + 1) len }
      ((port?_setAgenda s (turns (.tx k) (n + 1)) k).trans hk)
    rw [run_txByte hr hk hp (by omega) hf (memRead_of_readRange hk hread hi) ha,
      ih (by simpa using hr) hport rfl (by omega) hf hg (by simpa using hread) (setPort_agenda ..),
      setPort_setAgenda, setPort_setPort, List.drop_eq_getElem_cons hi, List.append_assoc]
    rfl

/-- Settles O33: the run from the first byte on, which replaces only port k and the agenda. -/
theorem wholeTelegramIsSent : Obligations.WholeTelegramIsSent := by
  intro s k h len p bytes hr hk hp hf hg hread ha
  obtain ⟨heq, hbut⟩ := onlyPort_setPort (s := s.setAgenda [])
    { p with
      out := p.out ++ bytes, written := p.written + 1
      ring := p.ring.set h { p.ring.get h with guard := .free, length := 0 }, phase := .sleep }
    ((port?_setAgenda ..).trans hk)
  exact ⟨_, run_send hr hk hp (Nat.zero_add len) hf hg hread ha, heq, hbut⟩

end Sys2Proof.Machine
end

/-! # The host control surface

Each command and each step of CTRL as an equation, the order in which `stats` reads the lengths and its whole run, and how
far a host row reaches (R210 to R217). -/

section
namespace Sys2Proof.Machine

/-! ### Accepted commands (R210) -/

theorem acceptCommand_ok {s t : State} (hr : s.blockStatus = .running) (hp : s.ctrl.phase = .idle) :
    acceptCommand s (.ok t) = .next t :=
  whenEnabled_eq_next.mpr ⟨hr, by simp [hp], rfl⟩

theorem acceptPortCommand_ok {s t : State} {k : Nat} {p : Port} {body : Port → Except Fault State}
    (hr : s.blockStatus = .running) (hp : s.ctrl.phase = .idle) (hk : s.port? k = some p) (hb : body p = .ok t) :
    acceptPortCommand s k body = .next t :=
  whenPortEnabled_eq_next.mpr ⟨p, hk, hr, by simp [hp], hb⟩

/-- A response given in CtrlIdle leaves CTRL there. -/
theorem respond_of_idle {s : State} (hp : s.ctrl.phase = .idle) (r : Resp) :
    s.respond r = { s with ctrl := ⟨.idle, s.ctrl.resp ++ [r]⟩ } := by
  rw [← hp]
  rfl

/-! ### enable, disable and interval (R212, R213) -/

section
variable {s : State} (hr : s.blockStatus = .running) (hp : s.ctrl.phase = .idle)
include hr hp

theorem setEnabled_zero (v : Bool) :
    setEnabled 0 v s = .next { s with rx := { s.rx with enabled := v }, ctrl := ⟨.idle, s.ctrl.resp ++ [respDone]⟩ } :=
  (acceptCommand_ok hr hp).trans (congrArg _ (respond_of_idle (s := s.setRx { s.rx with enabled := v }) hp respDone))

theorem execCmdInterval_zero (ms : Millis) :
    execCmdInterval 0 ms s =
      .next { s with rx := { s.rx with interval := ms }, ctrl := ⟨.idle, s.ctrl.resp ++ [respDone]⟩ } :=
  (acceptCommand_ok hr hp).trans (congrArg _ (respond_of_idle (s := s.setRx { s.rx with interval := ms }) hp respDone))

theorem setEnabled_port {k : Nat} {p : Port} (hk : s.port? k = some p) (v : Bool) :
    setEnabled k v s = .next ((s.setPort k { p with enabled := v }).respond respDone) := by
  cases k with
  | zero => cases hk
  | succ k => exact acceptPortCommand_ok hr hp hk rfl

theorem execCmdInterval_port {k : Nat} {p : Port} (hk : s.port? k = some p) (ms : Millis) :
    execCmdInterval k ms s = .next ((s.setPort k { p with interval := ms }).respond respDone) := by
  cases k with
  | zero => cases hk
  | succ k => exact acceptPortCommand_ok hr hp hk rfl

end

/-- A sender port replaced and a response given in CtrlIdle: nothing else differs. -/
theorem setPort_respond_frame {s : State} {k : Nat} {p : Port} (hp : s.ctrl.phase = .idle) (hk : s.port? k = some p)
    (q : Port) (r : Resp) :
    (s.setPort k q).respond r =
        { s with ports := ((s.setPort k q).respond r).ports, ctrl := ⟨.idle, s.ctrl.resp ++ [r]⟩ } ∧
      PortsBut s ((s.setPort k q).respond r) k q := by
  obtain ⟨-, hlen, hself, hothers⟩ := onlyPort_setPort q hk
  refine ⟨?_, hlen, by rw [port?_respond, hself], fun j hj => by rw [port?_respond, hothers j hj]⟩
  rw [respond_of_idle (by simpa using hp)]
  cases k <;> rfl

/-- Settles O35: the rows of port 0, then those of a sender port. -/
theorem controlWritesOneField : Obligations.ControlWritesOneField := fun _ ms hr hp =>
  ⟨setEnabled_zero hr hp true, setEnabled_zero hr hp false, execCmdInterval_zero hr hp ms, fun _ _ hk =>
    ⟨⟨_, setEnabled_port hr hp hk true, setPort_respond_frame hp hk _ respDone⟩,
      ⟨_, setEnabled_port hr hp hk false, setPort_respond_frame hp hk _ respDone⟩,
      ⟨_, execCmdInterval_port hr hp hk ms, setPort_respond_frame hp hk _ respDone⟩⟩⟩

/-! ### dump (R214) -/

theorem exec_cmdDump {s : State} {g : SlotRef} {sl : Slot} (hr : s.blockStatus = .running) (hp : s.ctrl.phase = .idle)
    (hg : s.slot? g = some sl) : exec (.cmdDump g) s = .next (s.setCtrlPhase (.dump g)) := by
  cases g with
  | rx => exact acceptCommand_ok hr hp
  | ring k i =>
    obtain ⟨p, hk, -⟩ := slot?_ring_eq_some.mp hg
    exact acceptPortCommand_ok hr hp hk rfl

theorem exec_ctrlDumpAcq {s : State} {g : SlotRef} {sl : Slot} {snap : List Byte} (hr : s.blockStatus = .running)
    (hp : s.ctrl.phase = .dump g) (hg : s.slot? g = some sl) (hf : sl.guard = .free)
    (hs : snapshot s.cfg.bufSize sl = .ok snap) :
    exec (.ctrlDumpAcq g) s = .next ((s.setSlot g { sl with guard := .held .ctrl }).setCtrlPhase (.dumpRel g snap)) := by
  simp only [exec, execCtrlDumpAcq, hg]
  exact whenEnabled_eq_next.mpr ⟨hr, by simp [hp, hf], bind_eq_ok.mpr ⟨snap, hs, rfl⟩⟩

theorem exec_ctrlDumpRel {s : State} {g : SlotRef} {sl : Slot} {snap : List Byte} (hr : s.blockStatus = .running)
    (hp : s.ctrl.phase = .dumpRel g snap) (hg : s.slot? g = some sl) (hh : sl.guard = .held .ctrl) :
    exec (.ctrlDumpRel g snap) s =
      .next (((s.setSlot g { sl with guard := .free }).respond ⟨0, .dump snap⟩).setCtrlPhase .idle) :=
  whenEnabled_eq_next.mpr
    ⟨hr, by simp [hp], bind_eq_ok.mpr ⟨_, release_eq_ok.mpr ⟨sl, hg, hh, rfl⟩, rfl⟩⟩

/-- One slot and CTRL's registers replaced: nothing else differs. -/
theorem setSlot_setCtrl_frame {s : State} {g : SlotRef} {old : Slot} (hg : s.slot? g = some old) (new : Slot) (c : Ctrl) :
    (s.setSlot g new).setCtrl c =
        { s with
          rx := ((s.setSlot g new).setCtrl c).rx, ports := ((s.setSlot g new).setCtrl c).ports, ctrl := c } ∧
      SlotsBut s ((s.setSlot g new).setCtrl c) g new := by
  refine ⟨?_, slotsBut_congr (setSlot_slotsBut new hg) rfl rfl⟩
  cases g with
  | rx => rfl
  | ring k i =>
    obtain ⟨p, hk, -⟩ := slot?_ring_eq_some.mp hg
    rw [setSlot_ring i new hk]
    cases k <;> rfl

/-- The snapshot of a slot is its bytes 0..length-1. -/
theorem memRead_of_snapshot {s : State} {g : SlotRef} {sl : Slot} {snap : List Byte} (hg : s.slot? g = some sl)
    (hs : snapshot s.cfg.bufSize sl = .ok snap) :
    snap.length = sl.length ∧ ∀ (j : Nat) (hj : j < snap.length), s.memRead g j = .ok snap[j] := by
  obtain ⟨hlen, hbytes⟩ := readRange_eq_ok.mp hs
  refine ⟨hlen, fun j hj => ?_⟩
  obtain ⟨hcap, hlookup⟩ := hbytes j (hlen ▸ hj)
  exact state_memRead_eq_ok.mpr ⟨sl, hg, hcap, hlookup.trans (List.getElem?_eq_getElem hj)⟩

/-- Settles O37: each step is the equation of its row. -/
theorem dumpTakesItsThreeSteps : Obligations.DumpTakesItsThreeSteps := by
  intro s g sl hr hg
  refine ⟨fun hp => exec_cmdDump hr hp hg, fun hp hf hcap hlisted => ?_, fun snap hp hh => ?_⟩
  · obtain ⟨snap, hs⟩ := readRange_answers hcap hlisted
    obtain ⟨heq, hbut⟩ := setSlot_setCtrl_frame hg { sl with guard := .held .ctrl } ⟨.dumpRel g snap, s.ctrl.resp⟩
    refine ⟨_, snap, (exec_ctrlDumpAcq hr hp hg hf hs).trans ?_, heq, hbut, memRead_of_snapshot hg hs⟩
    simp [State.setCtrlPhase]
  · obtain ⟨heq, hbut⟩ :=
      setSlot_setCtrl_frame hg { sl with guard := .free } ⟨.idle, s.ctrl.resp ++ [⟨0, .dump snap⟩]⟩
    refine ⟨_, (exec_ctrlDumpRel hr hp hg hh).trans ?_, heq, hbut⟩
    simp [State.setCtrlPhase, State.respond, State.setCtrl]

/-! ### The steps of stats (R215) -/

section
variable {s : State} (hr : s.blockStatus = .running)
include hr

theorem exec_cmdStats (hp : s.ctrl.phase = .idle) : exec .cmdStats s = .next (s.setCtrlPhase (.stats 0 [])) :=
  acceptCommand_ok hr hp

theorem exec_ctrlStatsSlot {j : Nat} {lens : List Nat} {sl : Slot} (hp : s.ctrl.phase = .stats j lens)
    (hg : s.slot? (statsSlot j) = some sl) (hf : sl.guard = .free) :
    exec (.ctrlStatsSlot j lens) s = .next (s.setCtrlPhase
      (if j < 3 * s.cfg.n then .stats (j + 1) (lens ++ [sl.length]) else .statsEnd (lens ++ [sl.length]))) := by
  simp only [exec, execCtrlStatsSlot, hg]
  exact whenEnabled_eq_next.mpr ⟨hr, by simp [hp, hf], rfl⟩

theorem exec_ctrlStatsEnd {lens : List Nat} (hp : s.ctrl.phase = .statsEnd lens) :
    exec (.ctrlStatsEnd lens) s =
      .next { s with ctrl := ⟨.idle, s.ctrl.resp ++ [⟨0, statsPayload s lens⟩]⟩ } :=
  whenEnabled_eq_next.mpr ⟨hr, by simp [hp], rfl⟩

end

theorem statsSlot_ring {k : Nat} (hk : 1 ≤ k) (i : RingIdx) : statsSlot (3 * (k - 1) + i.val + 1) = .ring k i := by
  have hi : i.val < 3 := i.isLt
  simp only [statsSlot, ringDepth, SlotRef.ring.injEq, Fin.ext_iff]
  omega

theorem length_txStatsAll (ps : List Port) (lens : List Nat) : (txStatsAll ps lens).length = ps.length := by
  induction ps generalizing lens with
  | nil => rfl
  | cons p ps ih => simp [txStatsAll, ih]

theorem txStatsAll_getElem? (ps : List Port) (lens : List Nat) (j : Nat) :
    (txStatsAll ps lens)[j]? = ps[j]?.map fun p => txStats p ((lens.drop (3 * j)).take 3) := by
  induction ps generalizing lens j with
  | nil => rfl
  | cons p ps ih =>
    cases j with
    | zero => rfl
    | succ j => simp [txStatsAll, ih, ringDepth, Nat.mul_succ, Nat.add_comm]

/-- Settles O38: the accepting step, the first slot, a ring slot, and the record of the last step. -/
theorem statsReadsSlotBySlot : Obligations.StatsReadsSlotBySlot := by
  intro s hr
  refine ⟨exec_cmdStats hr, fun lens hp hf hn => ?_, fun k p i lens hk hf hp => ?_, fun len0 lens hp hlen => ?_⟩
  · rw [exec_ctrlStatsSlot hr hp rfl hf, if_pos (by omega)]
    rfl
  · obtain ⟨hpos, -⟩ := port?_some_bounds hk
    exact exec_ctrlStatsSlot hr hp (statsSlot_ring hpos i ▸ slot?_ring i hk) hf
  · refine ⟨txStatsAll s.ports lens, exec_ctrlStatsEnd hr hp, length_txStatsAll .., fun k p hk => ?_⟩
    cases k with
    | zero => cases hk
    | succ k =>
      have hk' : s.ports[k]? = some p := hk
      simp [txStatsAll_getElem?, hk', txStats]

/-! ### A whole stats command (R215, R292) -/

/-- The lengths of a ring's slots in order. -/
def Ring.lengths (r : Ring) : List Nat := [r.s0.length, r.s1.length, r.s2.length]

theorem Ring.lengths_getElem? (r : Ring) (i : RingIdx) : r.lengths[i.val]? = some (r.get i).length := by
  match i with
  | 0 => rfl
  | 1 => rfl
  | 2 => rfl

/-- The lengths that `stats` collects, slot 0 first. -/
def State.statsLengths (s : State) : List Nat := s.rx.slot.length :: s.ports.flatMap (·.ring.lengths)

theorem length_statsLengths (s : State) : s.statsLengths.length = 3 * s.ports.length + 1 := by
  simp [State.statsLengths, Ring.lengths, List.length_flatMap, Nat.mul_comm]

theorem flatMap_lengths_getElem? (ps : List Port) (k : Nat) (i : RingIdx) :
    (ps.flatMap (·.ring.lengths))[3 * k + i.val]? = ps[k]?.map fun p => (p.ring.get i).length := by
  induction ps generalizing k with
  | nil => simp
  | cons p ps ih =>
    have hi : i.val < 3 := i.isLt
    have hlen : p.ring.lengths.length = 3 := rfl
    rw [List.flatMap_cons]
    cases k with
    | zero => rw [List.getElem?_append_left (by omega), Nat.mul_zero, Nat.zero_add, Ring.lengths_getElem?]; rfl
    | succ k =>
      rw [List.getElem?_append_right (by omega), hlen, show 3 * (k + 1) + i.val - 3 = 3 * k + i.val by omega, ih]
      rfl

/-- The j-th length collected is that of slot j (R215). -/
theorem statsLengths_getElem? (s : State) (j : Nat) :
    s.statsLengths[j]? = (s.slot? (statsSlot j)).map (·.length) := by
  cases j with
  | zero => rfl
  | succ j =>
    have h := flatMap_lengths_getElem? s.ports (j / 3) ⟨j % 3, Nat.mod_lt _ (by decide)⟩
    rw [Nat.div_add_mod] at h
    simpa [State.statsLengths, statsSlot, State.slot?, State.port?, Function.comp_def] using h

theorem txStatsAll_flatMap_lengths (ps : List Port) :
    txStatsAll ps (ps.flatMap (·.ring.lengths)) = ps.map fun p => txStats p p.ring.lengths := by
  induction ps with
  | nil => rfl
  | cons p ps ih => simpa [txStatsAll, Ring.lengths] using ih

/-- The record built from these lengths. -/
theorem statsPayload_statsLengths (s : State) :
    statsPayload s s.statsLengths =
      .stats (rxStats s.rx s.statsLengths) (s.ports.map fun p => txStats p p.ring.lengths) := by
  simp [statsPayload, State.statsLengths, txStatsAll_flatMap_lengths]

theorem run_succ {s t u : State} {n : Nat} (h : run n s = .next t) (e : step t = .next u) : run (n + 1) s = .next u := by
  induction n generalizing s with
  | zero =>
    obtain rfl : s = t := by simpa [run] using h
    simp [run, e]
  | succ n ih =>
    unfold run at h ⊢
    split at h
    · exact ih h
    · cases h
    · cases h

/-- A row of an agent that answers is what the agent's turn runs (O49). -/
theorem step_turn {s t : State} {a : Agent} {n : Nat} {i : Instr} (hlen : s.ports.length = s.cfg.n)
    (ha : s.agenda = turns a (n + 1)) (hi : agentOf i = some a) (e : exec i (s.setAgenda (turns a n)) = .next t) :
    step s = .next t :=
  (step_agent_of_selected ha (enabledStepIsTheSelectedOne i a (s.setAgenda (turns a n)) t hlen hi e)).trans e

/-- CTRL's phase when `stats` has read j lengths. -/
def statsPhase (n j : Nat) (lens : List Nat) : CtrlPhase := if j ≤ 3 * n then .stats j lens else .statsEnd lens

theorem statsPhase_ne_idle (n j : Nat) (lens : List Nat) : statsPhase n j lens ≠ .idle := by
  unfold statsPhase
  split <;> simp

/-- `s` in the course of `stats`: j lengths are read, and CTRL has the rest of its 3N + 2 turns. -/
def State.collecting (s : State) (j : Nat) : State :=
  (s.setAgenda (turns .ctrl (3 * s.cfg.n + 2 - j))).setCtrlPhase (statsPhase s.cfg.n j (s.statsLengths.take j))

/-- A turn of CTRL reads the next length. -/
theorem step_collecting {s : State} {j : Nat} (hr : s.blockStatus = .running) (hlen : s.ports.length = s.cfg.n)
    (hfree : ∀ g sl, s.slot? g = some sl → sl.guard = .free) (hj : j ≤ 3 * s.cfg.n) :
    step (s.collecting j) = .next (s.collecting (j + 1)) := by
  have hlt : j < s.statsLengths.length := by rw [length_statsLengths]; omega
  obtain ⟨sl, hsl, hl⟩ : ∃ sl, s.slot? (statsSlot j) = some sl ∧ sl.length = s.statsLengths[j] := by
    simpa [statsLengths_getElem?] using List.getElem?_eq_getElem hlt
  have hturns : 3 * s.cfg.n + 2 - j = 3 * s.cfg.n + 2 - (j + 1) + 1 := by omega
  have e := exec_ctrlStatsSlot (s := (s.collecting j).setAgenda (turns .ctrl (3 * s.cfg.n + 2 - (j + 1)))) hr
    (if_pos hj) (by simpa [State.collecting] using hsl) (hfree _ _ hsl)
  rw [hl, List.take_append_getElem] at e
  exact step_turn hlen (congrArg (turns .ctrl) hturns) rfl e

/-- After the command and j turns, CTRL has read j lengths. -/
theorem run_collecting {s : State} {j : Nat} (hr : s.blockStatus = .running) (hlen : s.ports.length = s.cfg.n)
    (hp : s.ctrl.phase = .idle) (hfree : ∀ g sl, s.slot? g = some sl → sl.guard = .free)
    (ha : s.agenda = .word (encode .cmdStats) :: turns .ctrl (3 * s.cfg.n + 2)) (hj : j ≤ 3 * s.cfg.n + 1) :
    run (j + 1) s = .next (s.collecting j) := by
  induction j with
  | zero =>
    have hword := step_word ha (decodeOfEncodeIsTheInstruction s.cfg .cmdStats rfl)
    exact run_succ (t := s) rfl (hword.trans (exec_cmdStats hr hp))
  | succ j ih => exact run_succ (ih (by omega)) (step_collecting hr hlen hfree (by omega))

/-- The last turn answers the record. -/
theorem step_collecting_end {s : State} (hr : s.blockStatus = .running) (hlen : s.ports.length = s.cfg.n) :
    step (s.collecting (3 * s.cfg.n + 1)) = .next { s with
      agenda := [], ctrl := ⟨.idle, s.ctrl.resp ++ [⟨0, statsPayload s s.statsLengths⟩]⟩ } := by
  have hall : s.statsLengths.take (3 * s.cfg.n + 1) = s.statsLengths := by
    rw [← hlen, ← length_statsLengths, List.take_length]
  have hphase : (s.collecting (3 * s.cfg.n + 1)).ctrl.phase = .statsEnd s.statsLengths := by
    simp [State.collecting, statsPhase, hall]
  have hturns : 3 * s.cfg.n + 2 - (3 * s.cfg.n + 1) = 1 := by omega
  exact step_turn hlen (congrArg (turns .ctrl) hturns) rfl
    (exec_ctrlStatsEnd (s := (s.collecting (3 * s.cfg.n + 1)).setAgenda (turns .ctrl 0)) hr hphase)

theorem guard_free_of_ports {s : State} (hrx : s.rx.slot.guard = .free)
    (hports : ∀ k p, s.port? k = some p → ∀ i, (p.ring.get i).guard = .free) {g : SlotRef} {sl : Slot}
    (hg : s.slot? g = some sl) : sl.guard = .free := by
  cases g with
  | rx => exact Option.some.inj hg ▸ hrx
  | ring k i =>
    obtain ⟨p, hk, rfl⟩ := slot?_ring_eq_some.mp hg
    exact hports k p hk i

/-- Settles O39: the command, one turn for each of the 3N + 1 slots, and the turn that answers. -/
theorem statsAnswersInItsSteps : Obligations.StatsAnswersInItsSteps := by
  intro s hr hlen _ hp hrx hports ha
  have hrun := fun j => run_collecting (j := j) hr hlen hp (fun _ _ => guard_free_of_ports hrx hports) ha
  constructor
  · intro j hpos hj
    obtain ⟨j, rfl⟩ := Nat.exists_eq_add_of_le' hpos
    exact ⟨_, hrun j (by omega), statsPhase_ne_idle _ _ _⟩
  · have h := run_succ (hrun (3 * s.cfg.n + 1) (by omega)) (step_collecting_end hr hlen)
    rw [statsPayload_statsLengths] at h
    exact h

/-! ### How far the host reaches (R217, R218) -/

/-- `y` is `x` but for `enabled`, the interval and the guard of the slot. -/
abbrev Receiver.ControlOf (x y : Receiver) : Prop :=
  y = { x with enabled := y.enabled, interval := y.interval, slot := { x.slot with guard := y.slot.guard } }

/-- `q` is `p` but for `enabled`, the interval and the guards of the ring. -/
def Port.ControlOf (p q : Port) : Prop :=
  q = { p with enabled := q.enabled, interval := q.interval, ring := q.ring } ∧
  ∀ j, q.ring.get j = { p.ring.get j with guard := (q.ring.get j).guard }

/-- `t` is `s` but for CTRL's registers and the control fields of the ports. -/
def ControlChange (s t : State) : Prop :=
  t = { s with rx := t.rx, ports := t.ports, ctrl := t.ctrl } ∧
  s.rx.ControlOf t.rx ∧
  t.ports.length = s.ports.length ∧
  ∀ k p, s.port? k = some p → ∃ q, t.port? k = some q ∧ p.ControlOf q

theorem Port.ControlOf.refl (p : Port) : p.ControlOf p := ⟨rfl, fun _ => rfl⟩

theorem Port.ControlOf.setGuard (p : Port) (i : RingIdx) (gd : Guard) :
    p.ControlOf { p with ring := p.ring.set i { p.ring.get i with guard := gd } } := by
  refine ⟨rfl, fun j => ?_⟩
  by_cases hj : j = i
  · subst hj
    simp
  · simp [ring_get_set_ne _ _ hj]

theorem controlChange_setRx_setCtrl {s : State} {x : Receiver} (hx : s.rx.ControlOf x) (c : Ctrl) :
    ControlChange s ((s.setRx x).setCtrl c) :=
  ⟨rfl, hx, rfl, fun _ p hk => ⟨p, hk, .refl p⟩⟩

theorem controlChange_setPort_setCtrl {s : State} {k : Nat} {p q : Port} (hk : s.port? k = some p)
    (hq : p.ControlOf q) (c : Ctrl) : ControlChange s ((s.setPort k q).setCtrl c) := by
  obtain ⟨-, hlen, hself, hothers⟩ := onlyPort_setPort q hk
  refine ⟨by cases k <;> rfl, by simp [Receiver.ControlOf], hlen, fun j r hj => ?_⟩
  rw [port?_setCtrl]
  by_cases hjk : j = k
  · subst hjk
    obtain rfl := Option.some.inj (hk.symm.trans hj)
    exact ⟨q, hself, hq⟩
  · exact ⟨r, (hothers j hjk).trans hj, .refl r⟩

theorem controlChange_setGuard_setCtrl {s : State} {g : SlotRef} {sl : Slot} (hg : s.slot? g = some sl) (gd : Guard)
    (c : Ctrl) : ControlChange s ((s.setSlot g { sl with guard := gd }).setCtrl c) := by
  cases g with
  | rx =>
    obtain rfl := Option.some.inj hg
    exact controlChange_setRx_setCtrl (by rfl) c
  | ring k i =>
    obtain ⟨p, hk, rfl⟩ := slot?_ring_eq_some.mp hg
    rw [setSlot_ring i _ hk]
    exact controlChange_setPort_setCtrl hk (.setGuard p i gd) c

theorem isHostRow_of_isByteRow {i : Instr} (hi : isByteRow i = true) : isHostRow i = false := by
  cases i with
  | byteStart | byteEnd | byteLf | byteOther => rfl
  | _ => cases hi

/-- Settles O40, by cases on the effect of the row. -/
theorem hostReachesOnlyControlFields : Obligations.HostReachesOnlyControlFields := by
  intro i s t hi e
  change ControlChange s t
  cases exec_effect e with
  | ctrlOnly _ c => exact controlChange_setRx_setCtrl (x := s.rx) rfl c
  | rxEnabled _ _ c | rxInterval _ c => exact controlChange_setRx_setCtrl (by rfl) c
  | portEnabled _ _ _ _ c hk | portInterval _ _ _ c hk =>
    refine controlChange_setPort_setCtrl hk ?_ c
    exact ⟨rfl, fun _ => rfl⟩
  | dumpAcq _ _ _ hg | dumpRel _ _ _ hg => exact controlChange_setGuard_setCtrl hg _ _
  | byteIgnored _ hb | byteNoRoom _ _ hb | byteStored _ _ _ hb => simp [isHostRow_of_isByteRow hb] at hi
  | _ => cases hi

end Sys2Proof.Machine
end

/-! # Reset and the ledger

The invariant right after reset, and the ledger of a port's telegrams: which rows write its terms, what each of the four
does to it, and the bound it gives. -/

section
namespace Sys2Proof.Machine

/-! ### Slots that hold a telegram (R29) -/

theorem nonEmpty_eq (r : Ring) : r.nonEmpty = (r.get 0).occupied + (r.get 1).occupied + (r.get 2).occupied := rfl

theorem occupied_of_length_ne_zero {sl : Slot} (h : sl.length ≠ 0) : sl.occupied = 1 := if_neg h

theorem occupied_of_length_eq_zero {sl : Slot} (h : sl.length = 0) : sl.occupied = 0 := if_pos h

theorem occupied_le_one (sl : Slot) : sl.occupied ≤ 1 := by
  unfold Slot.occupied
  split <;> omega

theorem occupied_congr {a b : Slot} (h : b.length = a.length) : b.occupied = a.occupied := by
  simp [Slot.occupied, h]

/-- Replacing a slot exchanges its share of the ring's occupied slots for the new slot's. -/
theorem nonEmpty_set (r : Ring) (i : RingIdx) (sl : Slot) :
    (r.set i sl).nonEmpty + (r.get i).occupied = r.nonEmpty + sl.occupied := by
  match i with
  | 0 | 1 | 2 =>
    simp only [Ring.nonEmpty, Ring.set, Ring.get]
    omega

theorem nonEmpty_set_le (r : Ring) (i : RingIdx) (sl : Slot) : (r.set i sl).nonEmpty ≤ r.nonEmpty + 1 := by
  have hset := nonEmpty_set r i sl
  have hle := occupied_le_one sl
  omega

/-- Emptying a slot that holds a telegram leaves one telegram less. -/
theorem nonEmpty_set_empty {r : Ring} {i : RingIdx} {sl : Slot} (hfull : (r.get i).length ≠ 0) (hempty : sl.length = 0) :
    (r.set i sl).nonEmpty + 1 = r.nonEmpty := by
  have hset := nonEmpty_set r i sl
  rwa [occupied_of_length_ne_zero hfull, occupied_of_length_eq_zero hempty] at hset

theorem occupied_le_nonEmpty (r : Ring) (i : RingIdx) : (r.get i).occupied ≤ r.nonEmpty := by
  match i with
  | 0 | 1 | 2 =>
    simp only [Ring.nonEmpty, Ring.get]
    omega

/-! ### The telegram that is copied and not yet counted (R157, R158) -/

theorem uncounted_cases {s : State} {k : Nat} :
    (∃ i, s.rx.phase = .advance k i ∧ uncounted s k = 1) ∨ uncounted s k = 0 := by
  unfold uncounted
  split
  · next j i hp =>
    by_cases hj : j = k
    · exact .inl ⟨i, hj ▸ hp, if_pos hj⟩
    · exact .inr (if_neg hj)
  · exact .inr rfl

theorem uncounted_of_advance {s : State} {k : Nat} {i : RingIdx} (hp : s.rx.phase = .advance k i) :
    uncounted s k = 1 := by simp [uncounted, hp]

theorem uncounted_setPort (s : State) (j k : Nat) (q : Port) : uncounted (s.setPort j q) k = uncounted s k := by
  simp only [uncounted, setPort_rx]

/-- RX leaves the phase of a copied telegram only by RX_ADVANCE (R158). -/
theorem Effect.stays_in_advance {s t : State} {i : Instr} {k : Nat} {h : RingIdx} (e : Effect s i t)
    (hadv : s.rx.phase = .advance k h) (hi : i ≠ .rxAdvance k h) : t.rx.phase = .advance k h := by
  cases e with
  | timeout hp | readOk _ hp | readFailed _ hp | tickRx hp | rxSkip hp | readArm _ hp | offerSkip _ _ _ hp
  | offerBusy _ _ _ hp | offerTaken _ _ _ hp | copy _ _ _ _ _ hp | release _ _ _ _ hp | rxDone hp =>
    simp [hadv] at hp
  | advance j h' p hk hp =>
    obtain ⟨rfl, rfl⟩ := RxPhase.advance.inj (hadv.symm.trans hp)
    exact absurd rfl hi
  | byteIgnored | byteNoRoom | byteStored | ctrlOnly | rxEnabled | rxInterval | tickTx | txSample | txSampleFlow
  | txSampleHead | txSampleLen | acquireEmpty | acquire | txByte | txAbort | txDone | flowEdge | flowEdgeHalted
  | portEnabled | portInterval =>
    simpa using hadv
  | dumpAcq g | dumpRel g =>
    obtain ⟨sl, hrx⟩ := setSlot_rx_cases s g _
    rw [setCtrl_rx, hrx]
    exact hadv

theorem uncounted_le_of_exec {s t : State} {i : Instr} {k : Nat} (e : exec i s = .next t)
    (hi : ∀ h, i ≠ .rxAdvance k h) : uncounted s k ≤ uncounted t k := by
  rcases uncounted_cases (s := s) (k := k) with ⟨h, hadv, hone⟩ | hzero
  · rw [hone, uncounted_of_advance ((exec_effect e).stays_in_advance hadv (hi h))]
  · simp [hzero]

/-! ### The rows that write a term of the ledger -/

/-- The rows that write a count or the length of a slot of port k (R157, R158, R184, R185). -/
inductive LedgerRow (k : Nat) : Instr → Prop where
  | copy (h : RingIdx) : LedgerRow k (.rxCopy k h)
  | advance (h : RingIdx) : LedgerRow k (.rxAdvance k h)
  | abort (h : RingIdx) (j len : Nat) : LedgerRow k (.txAbort k h j len)
  | done (h : RingIdx) (len : Nat) : LedgerRow k (.txDone k h len)

/-- No other row changes which slots of port k hold a telegram (R66). -/
theorem nonEmpty_eq_of_exec {s t : State} {i : Instr} {k : Nat} {p q : Port} (e : exec i s = .next t)
    (hi : ¬ LedgerRow k i) (hk : s.port? k = some p) (hq : t.port? k = some q) : q.ring.nonEmpty = p.ring.nonEmpty := by
  have hlen : ∀ h, (q.ring.get h).length = (p.ring.get h).length := by
    intro h
    by_contra hne
    rcases ringSlotsChangeOnlyUnderTheirGuard i s t k h _ _ e (slot?_ring h hk) (slot?_ring h hq) (.inr hne) with
      ⟨rfl, -⟩ | ⟨⟨j, len, rfl⟩ | ⟨len, rfl⟩, -⟩
    · exact hi (.copy h)
    · exact hi (.abort h j len)
    · exact hi (.done h len)
  simp only [nonEmpty_eq, occupied_congr (hlen _)]

/-- No other row changes a count of the ledger of port k (R37). -/
theorem counts_eq_of_exec {s t : State} {i : Instr} {k : Nat} {p q : Port} (e : exec i s = .next t)
    (hi : ¬ LedgerRow k i) (hk : s.port? k = some p) (hq : t.port? k = some q) :
    q.copied = p.copied ∧ q.aborted = p.aborted ∧ q.written = p.written := by
  obtain ⟨hcopied, -, haborted, hwritten, -⟩ := (exec_effect e).portWrites hk hq
  refine ⟨?_, ?_, ?_⟩ <;> by_contra hne
  · obtain ⟨h, rfl⟩ := hcopied (.inl hne)
    exact hi (.advance h)
  · obtain ⟨h, j, len, rfl⟩ := haborted hne
    exact hi (.abort h j len)
  · obtain ⟨h, len, rfl⟩ := hwritten hne
    exact hi (.done h len)

/-- A row that writes no term of the ledger keeps it. -/
theorem LedgerOk.of_other_row {s t : State} {i : Instr} {k : Nat} {p q : Port} (h : LedgerOk s k p)
    (e : exec i s = .next t) (hi : ¬ LedgerRow k i) (hk : s.port? k = some p) (hq : t.port? k = some q) :
    LedgerOk t k q := by
  have hring := nonEmpty_eq_of_exec e hi hk hq
  obtain ⟨hcopied, haborted, hwritten⟩ := counts_eq_of_exec e hi hk hq
  have hadv := uncounted_le_of_exec e fun h hadv => hi (hadv ▸ .advance h)
  unfold LedgerOk at h ⊢
  rw [hring, hcopied, haborted, hwritten]
  omega

/-- TX(k) sends a slot that holds a telegram (R182). -/
theorem BlockInv.send_length_ne_zero {s : State} {k : Nat} {p : Port} {i : RingIdx} {j len : Nat} (h : BlockInv s)
    (hk : s.port? k = some p) (hp : p.phase = .send i j len) : (p.ring.get i).length ≠ 0 := by
  obtain ⟨-, hphase, -⟩ := h.invPort hk
  simp_all [txPhaseOk]

/-! ### The counts, without wrap (R37) -/

theorem toNat_succ_le (c : Count) : (c + 1).toNat ≤ c.toNat + 1 := by
  rw [BitVec.toNat_add]
  exact Nat.mod_le _ _

theorem toNat_succ_of_ne_max {c : Count} (h : c ≠ 0xFFFFFFFF) : (c + 1).toNat = c.toNat + 1 := by
  bv_omega

/-! ### The four rows of the ledger -/

/-- RX_COPY may fill a slot; its telegram is the one not yet counted (R157). -/
theorem LedgerOk.rxCopy {s t : State} {k : Nat} {i : RingIdx} {p q : Port} (h : LedgerOk s k p)
    (e : exec (.rxCopy k i) s = .next t) (hk : s.port? k = some p) (hq : t.port? k = some q) : LedgerOk t k q := by
  obtain ⟨r, hr, -, hen, hb⟩ := whenPortEnabled_eq_next.mp e
  obtain rfl := Option.some.inj (hk.symm.trans hr)
  simp only [Bool.and_eq_true, beq_iff_eq] at hen
  obtain ⟨hp, -⟩ := hen
  obtain ⟨m, -, ht⟩ := bind_eq_ok.mp hb
  cases ht
  simp only [setSlot_ring i _ hk, port?_setRxPhase, port?_setPort_self _ hk, Option.some.injEq] at hq
  subst hq
  have hbefore : uncounted s k = 0 := by simp [uncounted, hp]
  have hring := nonEmpty_set_le p.ring i { p.ring.get i with data := m, length := s.rx.n }
  unfold LedgerOk at h ⊢
  rw [uncounted_of_advance (i := i) rfl]
  dsimp only at hring ⊢
  omega

/-- RX_ADVANCE counts the telegram that was not yet counted (R158). -/
theorem LedgerOk.rxAdvance {s t : State} {k : Nat} {i : RingIdx} {p q : Port} (h : LedgerOk s k p)
    (hmax : p.copied ≠ 0xFFFFFFFF) (e : exec (.rxAdvance k i) s = .next t) (hk : s.port? k = some p)
    (hq : t.port? k = some q) : LedgerOk t k q := by
  obtain ⟨r, hr, -, hen, hb⟩ := whenPortEnabled_eq_next.mp e
  obtain rfl := Option.some.inj (hk.symm.trans hr)
  cases hb
  simp only [port?_setRxPhase, port?_setPort_self _ hk, Option.some.injEq] at hq
  subst hq
  have hbefore : uncounted s k = 1 := uncounted_of_advance (beq_iff_eq.mp hen)
  unfold LedgerOk at h ⊢
  dsimp only
  rw [toNat_succ_of_ne_max hmax]
  omega

/-- The end of a transmission empties a slot that held a telegram and moves one of the counts of ended telegrams (R184,
R185). -/
theorem LedgerOk.endTransmission {s t : State} {k : Nat} {i : RingIdx} {j len : Nat} {p p' q : Port} (hinv : BlockInv s)
    (h : LedgerOk s k p) (hk : s.port? k = some p) (hp : p.phase = .send i j len) (hring : p'.ring = p.ring)
    (hcopied : p'.copied = p.copied)
    (hended : p'.written.toNat + p'.aborted.toNat ≤ p.written.toNat + p.aborted.toNat + 1)
    (e : endTransmission s k i p' = .ok t) (hq : t.port? k = some q) : LedgerOk t k q := by
  obtain ⟨-, rfl⟩ := (endTransmission_eq_ok hk).mp e
  rw [port?_setPort_self _ hk] at hq
  obtain rfl := Option.some.inj hq
  have hempty := nonEmpty_set_empty (sl := { p.ring.get i with guard := .free, length := 0 })
    (hinv.send_length_ne_zero hk hp) rfl
  unfold LedgerOk at h ⊢
  rw [uncounted_setPort]
  dsimp only at hempty ⊢
  rw [hring, hcopied]
  omega

/-- Every row keeps the ledger of every port, unless it wraps the count of copied telegrams. -/
theorem LedgerOk.exec {s t : State} {i : Instr} {k : Nat} {p q : Port} (hinv : BlockInv s) (h : LedgerOk s k p)
    (hmax : p.copied ≠ 0xFFFFFFFF) (e : exec i s = .next t) (hk : s.port? k = some p) (hq : t.port? k = some q) :
    LedgerOk t k q := by
  by_cases hi : LedgerRow k i
  · cases hi with
    | copy => exact h.rxCopy e hk hq
    | advance => exact h.rxAdvance hmax e hk hq
    | abort =>
      obtain ⟨r, hr, -, hen, hb⟩ := whenPortEnabled_eq_next.mp e
      obtain rfl := Option.some.inj (hk.symm.trans hr)
      simp only [Bool.and_eq_true, beq_iff_eq] at hen
      obtain ⟨⟨hp, -⟩, -⟩ := hen
      have hcount := toNat_succ_le p.aborted
      exact h.endTransmission (p' := { p with aborted := p.aborted + 1 }) hinv hk hp rfl rfl (by dsimp only; omega) hb hq
    | done =>
      obtain ⟨r, hr, -, hen, hb⟩ := whenPortEnabled_eq_next.mp e
      obtain rfl := Option.some.inj (hk.symm.trans hr)
      have hp := beq_iff_eq.mp hen
      have hcount := toNat_succ_le p.written
      exact h.endTransmission (p' := { p with written := p.written + 1 }) hinv hk hp rfl rfl (by dsimp only; omega) hb hq
  · exact h.of_other_row e hi hk hq

/-! ### The ledger's ends -/

theorem ledgerOk_resetOf {c : Config} {pins : List Level} {k : Nat} {p : Port}
    (hk : (State.resetOf c pins).port? k = some p) : LedgerOk (State.resetOf c pins) k p := by
  obtain rfl := resetOf_port? hk
  exact Nat.zero_le _

/-- A telegram copied and not yet counted still lies in the ring, so the ledger bounds the ended ones (R285). -/
theorem LedgerOk.ended_le_copied {s : State} {k : Nat} {p : Port} (hinv : BlockInv s) (hk : s.port? k = some p)
    (h : LedgerOk s k p) : p.written.toNat + p.aborted.toNat ≤ p.copied.toNat := by
  unfold LedgerOk at h
  rcases uncounted_cases (s := s) (k := k) with ⟨i, hadv, hone⟩ | hzero
  · have hholds : s.rx.phase.holdsRing k i = true := holdsRing_iff.mpr (.inr (.inl hadv))
    obtain ⟨-, htwo⟩ := telegramOk_iff.mp (hinv.ring_telegramOk hholds)
    have hfull : (p.ring.get i).occupied = 1 :=
      occupied_of_length_ne_zero (by rw [hinv.published_length hk hadv]; omega)
    have hle := occupied_le_nonEmpty p.ring i
    omega
  · omega

/-- Settles O58: the ledger holds at reset, each step runs at most one row and every row keeps it, and it gives the
bound. -/
theorem endedTelegramsNeverExceedDelivered : Obligations.EndedTelegramsNeverExceedDelivered := by
  refine ⟨fun c pins k p hk => ledgerOk_resetOf hk, fun s t k p q hinv hk h hmax e hq => ?_,
    fun s k p hinv hk h => h.ended_le_copied hinv hk⟩
  rcases step_cases e with rfl | ⟨rest, rfl⟩ | ⟨i, rest, -, e⟩
  · obtain rfl := Option.some.inj (hk.symm.trans hq)
    exact h
  · rw [port?_setAgenda] at hq
    obtain rfl := Option.some.inj (hk.symm.trans hq)
    exact h
  · exact LedgerOk.exec (hinv.setAgenda rest) h hmax e (by rwa [port?_setAgenda]) hq

/-! ### The invariant at reset (R270, R271) -/

theorem slotOk_reset (cap : Nat) : SlotOk cap Slot.reset :=
  ⟨rfl, by simp [Slot.reset], Nat.zero_le _, listed_zero _⟩

theorem port_reset_phase (c : Config) (pin : Level) : (Port.reset c pin).phase = .sleep := rfl

/-- A port at reset, in a state in which RX and CTRL hold no guard of a ring. -/
theorem invPort_reset {s : State} {k : Nat} (pin : Level) (hrx : s.rx.phase = .sleep) (hctrl : s.ctrl.phase = .idle) :
    InvPort s k (Port.reset s.cfg pin) := by
  refine ⟨fun i => ?_, rfl, fun _ => rfl, fun _ => rfl⟩
  have hslot := port_reset_slot s.cfg pin i
  have hguard : ringGuardOk s k (Port.reset s.cfg pin) i = true := by
    simp [ringGuardOk, hslot, Slot.reset, hrx, hctrl, port_reset_phase, TxPhase.holdsRing, CtrlPhase.holdsSlot]
  rw [hslot]
  exact ⟨slotOk_reset _, by simp [Slot.reset], hguard⟩

theorem invReader_reset {s : State} (hr : s.reader = Reader.reset) (hrx : s.rx.phase = .sleep) : InvReader s := by
  simpa [InvReader, hr, hrx, Reader.reset] using listed_zero s.rx.slot.data

/-- Settles O44: no agent holds a guard, every slot is empty, and each port reads its pin. -/
theorem resetMeetsTheInvariant : Obligations.ResetMeetsTheInvariant := by
  intro c pins hvalid
  have hports : ∀ k p, (State.resetOf c pins).port? k = some p → p = Port.reset c (pins.getD (k - 1) .low) :=
    fun _ _ => resetOf_port?
  rw [resetOf_eq] at hports ⊢
  refine ⟨hvalid, resetAll_length .., by simp [State.resetFields], fun _ => ⟨rfl, rfl⟩, invReader_reset rfl rfl,
    slotOk_reset _, rfl, rfl, rfl, fun k _ p hk => ?_⟩
  obtain rfl := hports k p hk
  exact invPort_reset _ rfl rfl

end Sys2Proof.Machine
end
